-- ==== Sys2Proof/Word.lean ====
section
/-! DEFINITION. The words of the block: octets and the widths of its registers and operands. -/

namespace Sys2Proof

/-- An octet (R11): what the buffers, the wire and the command stream are made of. -/
abbrev Byte := BitVec 8

/-- A 16-bit cursor or operand. -/
abbrev Half := BitVec 16

/-- A 32-bit operand or result. -/
abbrev Word := BitVec 32

/-- A 64-bit operand or result. -/
abbrev Long := BitVec 64

end Sys2Proof
end

