-- ==== Sys2Proof/Machine/Octets.lean ====
section
/-! DEFINITION. Byte order: the octet strings of R12 and the numbers they stand for. -/

namespace Sys2Proof.Machine

/-- `BE(v, n)` of R12: the `n`-octet big-endian string of `v mod 2^(8n)`. -/
def be (v : Nat) : Nat → List Byte
  | 0 => []
  | n + 1 => BitVec.ofNat 8 (v / 256 ^ n) :: be v n

/-- The number that continues `acc` with the octets of a string, most significant first. -/
def beAcc (acc : Nat) : List Byte → Nat
  | [] => acc
  | b :: bs => beAcc (acc * 256 + b.toNat) bs

/-- `BEval(bs)` of R12: the number a big-endian octet string stands for. -/
def beVal (bs : List Byte) : Nat := beAcc 0 bs

/-- A 16-bit operand assembled from its two octets (R82). -/
def half (a b : Byte) : Half := BitVec.ofNat 16 (beVal [a, b])

/-- A 32-bit operand assembled from its four octets (R82). -/
def word (a b c d : Byte) : Word := BitVec.ofNat 32 (beVal [a, b, c, d])

/-- A 64-bit operand assembled from its eight octets (R82). -/
def long (a b c d e f g h : Byte) : Long := BitVec.ofNat 64 (beVal [a, b, c, d, e, f, g, h])

/-- The first octet of a tag header from its three fields (R70): `tagNum` in bits 7:4, the class bit in bit 3, `lv`
in bits 2:0. -/
def headOctet (nibble : Nat) (c : Bool) (lo : Nat) : Byte :=
  BitVec.ofNat 8 (nibble <<< 4 ||| c.toNat <<< 3 ||| lo)

/-- `tagNum`, bits 7:4 of a tag header's first octet (R70). -/
def headNibble (b : Byte) : Nat := (b.extractLsb' 4 4).toNat

/-- `class`, bit 3 of a tag header's first octet (R70). -/
def headClass (b : Byte) : Bool := b.getLsbD 3

/-- `lv`, bits 2:0 of a tag header's first octet (R70). -/
def headLv (b : Byte) : BitVec 3 := b.extractLsb' 0 3

end Sys2Proof.Machine
end

