-- ==== Sys2Proof/Syntax.lean ====
section
/-! DEFINITION. The instructions: one constructor per row of spec/opcode_table.json, the 38 commands of R83 and the
16 wire-tag dispatch rows of R90. -/

namespace Sys2Proof

/-- One constructor per opcode-table row. A command's operands are those of its format (R81); a `len`, `dlen` or
`slen` field is the length of the octet string it counts and is not kept beside it. A wire-tag row's operands are
the two fields of a tag's first octet that the row leaves free (R70): the class bit and the three `lv` bits. -/
inductive Instr where
  /-- R100. -/
  | nop
  /-- R101. -/
  | oclr
  /-- R102. -/
  | iclr
  /-- R103. -/
  | iload (data : List Byte)
  /-- R112. -/
  | encTag (tn flags : Byte) (lv : Word)
  /-- R114. -/
  | decTag
  /-- R136. -/
  | encUint (v : Word)
  /-- R137. -/
  | encSint (v : Word)
  /-- R150. -/
  | encReal (v : Word)
  /-- R152. -/
  | encDbl (v : Long)
  /-- R155. -/
  | encStr (data : List Byte)
  /-- R158. -/
  | encDate (year : Half) (month day dow : Byte)
  /-- R161. -/
  | encTime (hour minute second : Byte) (ms : Half)
  /-- R164. -/
  | encOid (type : Half) (inst : Word)
  /-- R138. -/
  | decUint (n : Byte)
  /-- R139. -/
  | decSint (n : Byte)
  /-- R151. -/
  | decReal
  /-- R153. -/
  | decDbl
  /-- R156. -/
  | decStr (n : Word)
  /-- R159. -/
  | decDate
  /-- R162. -/
  | decTime
  /-- R165. -/
  | decOid
  /-- R182. -/
  | appNull
  /-- R183. -/
  | appBool (b : Byte)
  /-- R184. -/
  | appUint (v : Word)
  /-- R185. -/
  | appSint (v : Word)
  /-- R186. -/
  | appReal (v : Word)
  /-- R187. -/
  | appDbl (v : Long)
  /-- R188. -/
  | appOctstr (data : List Byte)
  /-- R189. -/
  | appStr (data : List Byte)
  /-- R190. -/
  | appBitstr (data : List Byte)
  /-- R191. -/
  | appEnum (v : Word)
  /-- R192. -/
  | appDate (year : Half) (month day dow : Byte)
  /-- R193. -/
  | appTime (hour minute second : Byte) (ms : Half)
  /-- R194. -/
  | appOid (type : Half) (inst : Word)
  /-- R196. -/
  | decAny
  /-- R214. -/
  | encNpdu (flags hop mtype : Byte) (vendor dnet : Half) (dadr : List Byte) (snet : Half) (sadr : List Byte)
  /-- R226. -/
  | encSeg (maxsegs maxapdu : Half)
  /-- R90, first octet 0x0_: null. -/
  | tagNull (c : Bool) (lv : BitVec 3)
  /-- R90, first octet 0x1_: boolean. -/
  | tagBool (c : Bool) (lv : BitVec 3)
  /-- R90, first octet 0x2_: unsigned. -/
  | tagUint (c : Bool) (lv : BitVec 3)
  /-- R90, first octet 0x3_: signed. -/
  | tagSint (c : Bool) (lv : BitVec 3)
  /-- R90, first octet 0x4_: real. -/
  | tagReal (c : Bool) (lv : BitVec 3)
  /-- R90, first octet 0x5_: double. -/
  | tagDbl (c : Bool) (lv : BitVec 3)
  /-- R90, first octet 0x6_: octet string. -/
  | tagOctstr (c : Bool) (lv : BitVec 3)
  /-- R90, first octet 0x7_: character string. -/
  | tagStr (c : Bool) (lv : BitVec 3)
  /-- R90, first octet 0x8_: bit string. -/
  | tagBitstr (c : Bool) (lv : BitVec 3)
  /-- R90, first octet 0x9_: enumerated. -/
  | tagEnum (c : Bool) (lv : BitVec 3)
  /-- R90, first octet 0xA_: date. -/
  | tagDate (c : Bool) (lv : BitVec 3)
  /-- R90, first octet 0xB_: time. -/
  | tagTime (c : Bool) (lv : BitVec 3)
  /-- R90, first octet 0xC_: object identifier. -/
  | tagOid (c : Bool) (lv : BitVec 3)
  /-- R90, first octet 0xD_: reserved. -/
  | tagRsvd13 (c : Bool) (lv : BitVec 3)
  /-- R90, first octet 0xE_: reserved. -/
  | tagRsvd14 (c : Bool) (lv : BitVec 3)
  /-- R90, first octet 0xF_: the tag number is in the next octet. -/
  | tagExt (c : Bool) (lv : BitVec 3)
deriving DecidableEq, Repr

end Sys2Proof
end

