-- ==== Sys2Proof/WellFormed.lean ====
section
/-! DEFINITION. Which instructions have an encoding: an octet string's length fits the length field that counts it
(R81). Every other operand fills its field exactly. -/

namespace Sys2Proof

/-- An octet string whose length fits the 2-octet `len` of format L. -/
def fitsLen16 (data : List Byte) : Bool := data.length < 2 ^ 16

/-- An octet string whose length fits the 4-octet `len` of format S. -/
def fitsLen32 (data : List Byte) : Bool := data.length < 2 ^ 32

/-- An octet string whose length fits the 1-octet `dlen` or `slen` of format N. -/
def fitsLen8 (data : List Byte) : Bool := data.length < 2 ^ 8

/-- The instruction has an encoding. -/
def Instr.wellFormed : Instr → Bool
  | .nop => true
  | .oclr => true
  | .iclr => true
  | .iload data => fitsLen16 data
  | .encTag _ _ _ => true
  | .decTag => true
  | .encUint _ => true
  | .encSint _ => true
  | .encReal _ => true
  | .encDbl _ => true
  | .encStr data => fitsLen32 data
  | .encDate _ _ _ _ => true
  | .encTime _ _ _ _ => true
  | .encOid _ _ => true
  | .decUint _ => true
  | .decSint _ => true
  | .decReal => true
  | .decDbl => true
  | .decStr _ => true
  | .decDate => true
  | .decTime => true
  | .decOid => true
  | .appNull => true
  | .appBool _ => true
  | .appUint _ => true
  | .appSint _ => true
  | .appReal _ => true
  | .appDbl _ => true
  | .appOctstr data => fitsLen32 data
  | .appStr data => fitsLen32 data
  | .appBitstr data => fitsLen32 data
  | .appEnum _ => true
  | .appDate _ _ _ _ => true
  | .appTime _ _ _ _ => true
  | .appOid _ _ => true
  | .decAny => true
  | .encNpdu _ _ _ _ _ dadr _ sadr => fitsLen8 dadr && fitsLen8 sadr
  | .encSeg _ _ => true
  | .tagNull _ _ => true
  | .tagBool _ _ => true
  | .tagUint _ _ => true
  | .tagSint _ _ => true
  | .tagReal _ _ => true
  | .tagDbl _ _ => true
  | .tagOctstr _ _ => true
  | .tagStr _ _ => true
  | .tagBitstr _ _ => true
  | .tagEnum _ _ => true
  | .tagDate _ _ => true
  | .tagTime _ _ => true
  | .tagOid _ _ => true
  | .tagRsvd13 _ _ => true
  | .tagRsvd14 _ _ => true
  | .tagExt _ _ => true

end Sys2Proof
end

