-- ==== Sys2Proof/Decode.lean ====
section
/-! DEFINITION. The command parser (R80 to R85), the reading of a tag's first octet as a wire-tag row (R90), and the
encoder that writes both. -/

namespace Sys2Proof

open Machine (be beVal half word long headOctet headNibble headClass headLv)

/-- What the parser finds at the front of the command stream. -/
inductive Parsed where
  /-- A complete command and the octets after it (R80). -/
  | done (i : Instr) (rest : List Byte)
  /-- Nothing, or only a part of a command: the rest has not been pushed yet (R80, R240). -/
  | wait
  /-- An opcode octet that R83 does not list, rejected by its value (R84). -/
  | reserved (op : Byte)
deriving DecidableEq, Repr

/-! ## The operand formats of R81, each read from the octets after the opcode -/

/-- Format B. -/
def parseB (f : Byte → Instr) : List Byte → Parsed
  | b :: rest => .done (f b) rest
  | _ => .wait

/-- Format W. -/
def parseW (f : Word → Instr) : List Byte → Parsed
  | a :: b :: c :: d :: rest => .done (f (word a b c d)) rest
  | _ => .wait

/-- Format D. -/
def parseD (f : Long → Instr) : List Byte → Parsed
  | a :: b :: c :: d :: e :: g :: h :: k :: rest => .done (f (long a b c d e g h k)) rest
  | _ => .wait

/-- Format T. -/
def parseT (f : Byte → Byte → Word → Instr) : List Byte → Parsed
  | tn :: flags :: a :: b :: c :: d :: rest => .done (f tn flags (word a b c d)) rest
  | _ => .wait

/-- The `data` field of formats S and L: `len` octets, which have all arrived or the command is not complete (R85). -/
def parseData (f : List Byte → Instr) (len : Nat) (bs : List Byte) : Parsed :=
  if bs.length < len then .wait else .done (f (bs.take len)) (bs.drop len)

/-- Format S. -/
def parseS (f : List Byte → Instr) : List Byte → Parsed
  | a :: b :: c :: d :: rest => parseData f (beVal [a, b, c, d]) rest
  | _ => .wait

/-- Format L. -/
def parseL (f : List Byte → Instr) : List Byte → Parsed
  | a :: b :: rest => parseData f (beVal [a, b]) rest
  | _ => .wait

/-- Format DT. -/
def parseDT (f : Half → Byte → Byte → Byte → Instr) : List Byte → Parsed
  | y1 :: y0 :: month :: day :: dow :: rest => .done (f (half y1 y0) month day dow) rest
  | _ => .wait

/-- Format TM. -/
def parseTM (f : Byte → Byte → Byte → Half → Instr) : List Byte → Parsed
  | hour :: minute :: second :: m1 :: m0 :: rest => .done (f hour minute second (half m1 m0)) rest
  | _ => .wait

/-- Format O. -/
def parseO (f : Half → Word → Instr) : List Byte → Parsed
  | t1 :: t0 :: a :: b :: c :: d :: rest => .done (f (half t1 t0) (word a b c d)) rest
  | _ => .wait

/-- Format G. -/
def parseG (f : Half → Half → Instr) : List Byte → Parsed
  | s1 :: s0 :: a1 :: a0 :: rest => .done (f (half s1 s0) (half a1 a0)) rest
  | _ => .wait

/-- The second half of format N, after `dadr`. -/
def parseNSource (f : Half → List Byte → Instr) : List Byte → Parsed
  | s1 :: s0 :: slen :: rest => parseData (f (half s1 s0)) slen.toNat rest
  | _ => .wait

/-- Format N. -/
def parseN (f : Byte → Byte → Byte → Half → Half → List Byte → Half → List Byte → Instr) : List Byte → Parsed
  | flags :: hop :: mtype :: v1 :: v0 :: d1 :: d0 :: dlen :: rest =>
    if rest.length < dlen.toNat then .wait
    else parseNSource (f flags hop mtype (half v1 v0) (half d1 d0) (rest.take dlen.toNat)) (rest.drop dlen.toNat)
  | _ => .wait

/-- The command an opcode selects, with its format (R83), read from the octets after the opcode. -/
def parseOpcode (op : Byte) (r : List Byte) : Parsed :=
  match op.toNat with
  | 0x00 => .done .nop r
  | 0x01 => .done .oclr r
  | 0x02 => .done .iclr r
  | 0x03 => parseL .iload r
  | 0x10 => parseT .encTag r
  | 0x11 => .done .decTag r
  | 0x20 => parseW .encUint r
  | 0x21 => parseW .encSint r
  | 0x22 => parseW .encReal r
  | 0x23 => parseD .encDbl r
  | 0x24 => parseS .encStr r
  | 0x25 => parseDT .encDate r
  | 0x26 => parseTM .encTime r
  | 0x27 => parseO .encOid r
  | 0x30 => parseB .decUint r
  | 0x31 => parseB .decSint r
  | 0x32 => .done .decReal r
  | 0x33 => .done .decDbl r
  | 0x34 => parseW .decStr r
  | 0x35 => .done .decDate r
  | 0x36 => .done .decTime r
  | 0x37 => .done .decOid r
  | 0x40 => .done .appNull r
  | 0x41 => parseB .appBool r
  | 0x42 => parseW .appUint r
  | 0x43 => parseW .appSint r
  | 0x44 => parseW .appReal r
  | 0x45 => parseD .appDbl r
  | 0x46 => parseS .appOctstr r
  | 0x47 => parseS .appStr r
  | 0x48 => parseS .appBitstr r
  | 0x49 => parseW .appEnum r
  | 0x4A => parseDT .appDate r
  | 0x4B => parseTM .appTime r
  | 0x4C => parseO .appOid r
  | 0x50 => .done .decAny r
  | 0x60 => parseN .encNpdu r
  | 0x70 => parseG .encSeg r
  | _ => .reserved op

/-- The command decoder, total on any octets: the front of the command stream. -/
def decode : List Byte → Parsed
  | [] => .wait
  | op :: r => parseOpcode op r

/-- The wire-tag row that the first octet of a value selects (R90, the mask 0xF0): every octet selects one. -/
def decodeWireTag (b : Byte) : Instr :=
  match headNibble b with
  | 0x0 => .tagNull (headClass b) (headLv b)
  | 0x1 => .tagBool (headClass b) (headLv b)
  | 0x2 => .tagUint (headClass b) (headLv b)
  | 0x3 => .tagSint (headClass b) (headLv b)
  | 0x4 => .tagReal (headClass b) (headLv b)
  | 0x5 => .tagDbl (headClass b) (headLv b)
  | 0x6 => .tagOctstr (headClass b) (headLv b)
  | 0x7 => .tagStr (headClass b) (headLv b)
  | 0x8 => .tagBitstr (headClass b) (headLv b)
  | 0x9 => .tagEnum (headClass b) (headLv b)
  | 0xA => .tagDate (headClass b) (headLv b)
  | 0xB => .tagTime (headClass b) (headLv b)
  | 0xC => .tagOid (headClass b) (headLv b)
  | 0xD => .tagRsvd13 (headClass b) (headLv b)
  | 0xE => .tagRsvd14 (headClass b) (headLv b)
  | _ => .tagExt (headClass b) (headLv b)

/-! ## The encoder -/

/-- The octets of a 2-octet operand (R82). -/
def octets2 (v : Half) : List Byte := be v.toNat 2

/-- The octets of a 4-octet operand (R82). -/
def octets4 (v : Word) : List Byte := be v.toNat 4

/-- The octets of an 8-octet operand (R82). -/
def octets8 (v : Long) : List Byte := be v.toNat 8

/-- The octets of an instruction: a command's opcode and operands (R81, R83), or the one octet of a wire-tag row
(R90). -/
def encode : Instr → List Byte
  | .nop => [0x00]
  | .oclr => [0x01]
  | .iclr => [0x02]
  | .iload data => 0x03 :: (be data.length 2 ++ data)
  | .encTag tn flags lv => 0x10 :: tn :: flags :: octets4 lv
  | .decTag => [0x11]
  | .encUint v => 0x20 :: octets4 v
  | .encSint v => 0x21 :: octets4 v
  | .encReal v => 0x22 :: octets4 v
  | .encDbl v => 0x23 :: octets8 v
  | .encStr data => 0x24 :: (be data.length 4 ++ data)
  | .encDate year month day dow => 0x25 :: (octets2 year ++ [month, day, dow])
  | .encTime hour minute second ms => 0x26 :: hour :: minute :: second :: octets2 ms
  | .encOid type inst => 0x27 :: (octets2 type ++ octets4 inst)
  | .decUint n => [0x30, n]
  | .decSint n => [0x31, n]
  | .decReal => [0x32]
  | .decDbl => [0x33]
  | .decStr n => 0x34 :: octets4 n
  | .decDate => [0x35]
  | .decTime => [0x36]
  | .decOid => [0x37]
  | .appNull => [0x40]
  | .appBool b => [0x41, b]
  | .appUint v => 0x42 :: octets4 v
  | .appSint v => 0x43 :: octets4 v
  | .appReal v => 0x44 :: octets4 v
  | .appDbl v => 0x45 :: octets8 v
  | .appOctstr data => 0x46 :: (be data.length 4 ++ data)
  | .appStr data => 0x47 :: (be data.length 4 ++ data)
  | .appBitstr data => 0x48 :: (be data.length 4 ++ data)
  | .appEnum v => 0x49 :: octets4 v
  | .appDate year month day dow => 0x4A :: (octets2 year ++ [month, day, dow])
  | .appTime hour minute second ms => 0x4B :: hour :: minute :: second :: octets2 ms
  | .appOid type inst => 0x4C :: (octets2 type ++ octets4 inst)
  | .decAny => [0x50]
  | .encNpdu flags hop mtype vendor dnet dadr snet sadr =>
    0x60 :: flags :: hop :: mtype :: (octets2 vendor ++ octets2 dnet ++ be dadr.length 1 ++ dadr
      ++ octets2 snet ++ be sadr.length 1 ++ sadr)
  | .encSeg maxsegs maxapdu => 0x70 :: (octets2 maxsegs ++ octets2 maxapdu)
  | .tagNull c lv => [headOctet 0x0 c lv.toNat]
  | .tagBool c lv => [headOctet 0x1 c lv.toNat]
  | .tagUint c lv => [headOctet 0x2 c lv.toNat]
  | .tagSint c lv => [headOctet 0x3 c lv.toNat]
  | .tagReal c lv => [headOctet 0x4 c lv.toNat]
  | .tagDbl c lv => [headOctet 0x5 c lv.toNat]
  | .tagOctstr c lv => [headOctet 0x6 c lv.toNat]
  | .tagStr c lv => [headOctet 0x7 c lv.toNat]
  | .tagBitstr c lv => [headOctet 0x8 c lv.toNat]
  | .tagEnum c lv => [headOctet 0x9 c lv.toNat]
  | .tagDate c lv => [headOctet 0xA c lv.toNat]
  | .tagTime c lv => [headOctet 0xB c lv.toNat]
  | .tagOid c lv => [headOctet 0xC c lv.toNat]
  | .tagRsvd13 c lv => [headOctet 0xD c lv.toNat]
  | .tagRsvd14 c lv => [headOctet 0xE c lv.toNat]
  | .tagExt c lv => [headOctet 0xF c lv.toNat]

/-! ## The two spaces of the opcode table -/

/-- Whether an instruction is a wire-tag row (the table's space "wire") and not a command (the space "command"). -/
def Instr.isWireTag : Instr → Bool
  | .nop => false
  | .oclr => false
  | .iclr => false
  | .iload _ => false
  | .encTag _ _ _ => false
  | .decTag => false
  | .encUint _ => false
  | .encSint _ => false
  | .encReal _ => false
  | .encDbl _ => false
  | .encStr _ => false
  | .encDate _ _ _ _ => false
  | .encTime _ _ _ _ => false
  | .encOid _ _ => false
  | .decUint _ => false
  | .decSint _ => false
  | .decReal => false
  | .decDbl => false
  | .decStr _ => false
  | .decDate => false
  | .decTime => false
  | .decOid => false
  | .appNull => false
  | .appBool _ => false
  | .appUint _ => false
  | .appSint _ => false
  | .appReal _ => false
  | .appDbl _ => false
  | .appOctstr _ => false
  | .appStr _ => false
  | .appBitstr _ => false
  | .appEnum _ => false
  | .appDate _ _ _ _ => false
  | .appTime _ _ _ _ => false
  | .appOid _ _ => false
  | .decAny => false
  | .encNpdu _ _ _ _ _ _ _ _ => false
  | .encSeg _ _ => false
  | .tagNull _ _ => true
  | .tagBool _ _ => true
  | .tagUint _ _ => true
  | .tagSint _ _ => true
  | .tagReal _ _ => true
  | .tagDbl _ _ => true
  | .tagOctstr _ _ => true
  | .tagStr _ _ => true
  | .tagBitstr _ _ => true
  | .tagEnum _ _ => true
  | .tagDate _ _ => true
  | .tagTime _ _ => true
  | .tagOid _ _ => true
  | .tagRsvd13 _ _ => true
  | .tagRsvd14 _ _ => true
  | .tagExt _ _ => true

/-- How many octets the command at the front of a stream takes (R85): none for a reserved opcode, or where the octets
that decide it have not arrived. -/
def commandLength : List Byte → Option Nat
  | [] => none
  | op :: r =>
    match op.toNat with
    | 0x00 | 0x01 | 0x02 | 0x11 | 0x32 | 0x33 | 0x35 | 0x36 | 0x37 | 0x40 | 0x50 => some 1
    | 0x30 | 0x31 | 0x41 => some 2
    | 0x20 | 0x21 | 0x22 | 0x34 | 0x42 | 0x43 | 0x44 | 0x49 => some 5
    | 0x23 | 0x45 => some 9
    | 0x10 => some 7
    | 0x25 | 0x26 | 0x4A | 0x4B => some 6
    | 0x27 | 0x4C => some 7
    | 0x70 => some 5
    | 0x24 | 0x46 | 0x47 | 0x48 =>
      match r with
      | a :: b :: c :: d :: _ => some (5 + beVal [a, b, c, d])
      | _ => none
    | 0x03 =>
      match r with
      | a :: b :: _ => some (3 + beVal [a, b])
      | _ => none
    | 0x60 =>
      match r[7]? with
      | none => none
      | some dlen =>
        match r[10 + dlen.toNat]? with
        | none => none
        | some slen => some (12 + dlen.toNat + slen.toNat)
    | _ => none

/-- The octets of a table word: `nbits` bits in whole octets, the first octet in bits 7:0 (R80: the first octet pushed
is the opcode), every octet after them zero as far as the longest fixed part of a command reaches. -/
def tableOctets (nbits w : Nat) : List Byte :=
  (List.range ((nbits + 7) / 8)).map (fun k => BitVec.ofNat 8 (w % 2 ^ nbits / 256 ^ k)) ++ List.replicate 267 0

/-- The command octets of a table word: as many as its length rule takes (R85), zero beyond the word. None where the
word's first octet is no command's opcode. -/
def tableCommand (nbits w : Nat) : Option (List Byte) :=
  match commandLength (tableOctets nbits w) with
  | some n => some ((tableOctets nbits w ++ List.replicate n 0).take n)
  | none => none

/-- The value octets of a table word that is no command: its octets as a tagged value, zero beyond the word, sixteen of
them at most (a header takes up to 7 and a fixed-size payload up to 8). -/
def tableWireOctets (nbits w : Nat) : List Byte := (tableOctets nbits w).take 16

/-- The instruction an opcode-table word stands for. The table has two spaces that use the same words: a word whose
first octet is a command's opcode is that command, and only a word that no command has is read as a wire-tag row
(log 7). -/
def decodeTableWord (nbits w : Nat) : Option Instr :=
  match tableCommand nbits w with
  | some bs =>
    match decode bs with
    | .done i _ => some i
    | .wait => none
    | .reserved _ => none
  | none =>
    match tableWireOctets nbits w with
    | b :: _ => some (decodeWireTag b)
    | [] => none

end Sys2Proof
end

