-- ==== Sys2Proof/Machine/State.lean ====
section
/-! DEFINITION. The state of the block (R20) and its reset value (R35), the statuses of R241, and the reasons a step
can stop. -/

namespace Sys2Proof.Machine

/-- An octet memory: (index, octet) pairs in the canonical form of `Memory.wf`. -/
abbrev Memory := List Host.Cell

/-- What an octet nothing has written reads as: DESIGN CHOICE (log 1). R21 and R25 leave the octets outside the defined
regions unspecified, any value or none; nothing observable depends on them (U22). -/
abbrev unwritten : Byte := 0x00

/-- The canonical form of a memory: indices strictly rising, and no entry equal to what an unlisted index reads as. -/
def Memory.wf : Memory → Bool
  | [] => true
  | [(_, v)] => v != unwritten
  | (a, v) :: (b, w) :: m => a < b && v != unwritten && Memory.wf ((b, w) :: m)

/-- The statuses of R241, in the order of their codes. -/
inductive Status where
  /-- Code 0. -/
  | ok
  /-- Code 1: the valid empty result of `DEC_ANY` on a null tag (R256). -/
  | nullValue
  /-- Code 2. -/
  | malformedTag
  /-- Code 3. -/
  | unsupportedValueType
  /-- Code 4. -/
  | unsupportedTag
  /-- Code 5. -/
  | insufficientBytes
  /-- Code 6. -/
  | bufferOverflow
  /-- Code 7: the opcode is not in the table (R84). -/
  | badCommand
deriving DecidableEq, Repr

/-- The classes of commands (R242). -/
inductive Cls where
  /-- Writes `OBUF`; its sticky error is `WERR`. -/
  | enc
  /-- Reads `IBUF`; its sticky error is `RERR`. -/
  | dec
  /-- Consults no sticky error. -/
  | neutral
deriving DecidableEq, Repr

/-- A value for each of the seven result registers of R29; a field not named is 0, as R29 says. -/
structure Results where
  st : BitVec 4 := 0
  rk : BitVec 4 := 0
  rt : Byte := 0
  rc : Bool := false
  rl : Word := 0
  rv : Long := 0
  rn : Word := 0
deriving DecidableEq, Repr

/-- The state of the block: the fifteen rows of R20, and the command stream. -/
structure State where
  /-- `IBUF` (R21). -/
  ibuf : Memory
  /-- `ILEN` (R22). -/
  ilen : Half
  /-- `RPOS` (R23). -/
  rpos : Half
  /-- `RERR` (R24). -/
  rerr : BitVec 4
  /-- `OBUF` (R25). -/
  obuf : Memory
  /-- `WPOS` (R26). -/
  wpos : Half
  /-- `WERR` (R27). -/
  werr : BitVec 4
  /-- `HALT` (R28). -/
  halt : Bool
  /-- `ST` (R29). -/
  st : BitVec 4
  /-- `RK` (R29). -/
  rk : BitVec 4
  /-- `RT` (R29). -/
  rt : Byte
  /-- `RC` (R29). -/
  rc : Bool
  /-- `RL` (R29). -/
  rl : Word
  /-- `RV` (R29). -/
  rv : Long
  /-- `RN` (R29). -/
  rn : Word
  /-- The command stream: the octets pushed and not yet executed, the next one first (R50, R80, R107). The model's own
  field (log 2). -/
  stream : List Byte
deriving DecidableEq, Repr

/-- The state right after reset (R35, R270): every register 0, the stream empty; nothing is listed in the buffers, whose
contents R35 leaves unspecified (log 1). -/
def State.reset : State where
  ibuf := []
  ilen := 0
  rpos := 0
  rerr := 0
  obuf := []
  wpos := 0
  werr := 0
  halt := false
  st := 0
  rk := 0
  rt := 0
  rc := false
  rl := 0
  rv := 0
  rn := 0
  stream := []

/-- The reasons a step can stop with a machine fault: there is none. Every command in every state has one outcome (R10,
R240), and what the spec calls a fault is a next state with a status (R244). Log 11. -/
inductive Fault where
deriving DecidableEq, Repr

/-- The reasons an instruction has no meaning. -/
inductive Refusal where
  /-- Raised by an arm of `exec` for an instruction the model does not reach; no arm does. Safe: the model stops where
  the hardware goes on. -/
  | notModelled (mnemonic : String)
deriving DecidableEq, Repr

end Sys2Proof.Machine
end

