-- ==== Sys2Proof/Machine/Flags.lean ====
section
/-! DEFINITION. The block's flags and codes: the numbers of the statuses (R241), the class of each instruction (R242),
the sticky error a class consults (R243), and `err_o` (R37). The block has no arithmetic condition codes (R32). -/

namespace Sys2Proof.Machine

/-- The status codes of R241. -/
def Status.code : Status → BitVec 4
  | .ok => 0
  | .nullValue => 1
  | .malformedTag => 2
  | .unsupportedValueType => 3
  | .unsupportedTag => 4
  | .insufficientBytes => 5
  | .bufferOverflow => 6
  | .badCommand => 7

/-- The class of each instruction (R83, R242). A wire-tag row is a part of `DEC_ANY` and so of class DEC. -/
def cls : Instr → Cls
  | .nop => .neutral
  | .oclr => .neutral
  | .iclr => .neutral
  | .iload _ => .neutral
  | .encTag _ _ _ => .enc
  | .decTag => .dec
  | .encUint _ => .enc
  | .encSint _ => .enc
  | .encReal _ => .enc
  | .encDbl _ => .enc
  | .encStr _ => .enc
  | .encDate _ _ _ _ => .enc
  | .encTime _ _ _ _ => .enc
  | .encOid _ _ => .enc
  | .decUint _ => .dec
  | .decSint _ => .dec
  | .decReal => .dec
  | .decDbl => .dec
  | .decStr _ => .dec
  | .decDate => .dec
  | .decTime => .dec
  | .decOid => .dec
  | .appNull => .enc
  | .appBool _ => .enc
  | .appUint _ => .enc
  | .appSint _ => .enc
  | .appReal _ => .enc
  | .appDbl _ => .enc
  | .appOctstr _ => .enc
  | .appStr _ => .enc
  | .appBitstr _ => .enc
  | .appEnum _ => .enc
  | .appDate _ _ _ _ => .enc
  | .appTime _ _ _ _ => .enc
  | .appOid _ _ => .enc
  | .decAny => .dec
  | .encNpdu _ _ _ _ _ _ _ _ => .enc
  | .encSeg _ _ => .neutral
  | .tagNull _ _ => .dec
  | .tagBool _ _ => .dec
  | .tagUint _ _ => .dec
  | .tagSint _ _ => .dec
  | .tagReal _ _ => .dec
  | .tagDbl _ _ => .dec
  | .tagOctstr _ _ => .dec
  | .tagStr _ _ => .dec
  | .tagBitstr _ _ => .dec
  | .tagEnum _ _ => .dec
  | .tagDate _ _ => .dec
  | .tagTime _ _ => .dec
  | .tagOid _ _ => .dec
  | .tagRsvd13 _ _ => .dec
  | .tagRsvd14 _ _ => .dec
  | .tagExt _ _ => .dec

/-- The sticky error a class consults (R242): `WERR`, `RERR`, or none, which reads as no error. -/
def sticky (c : Cls) (s : State) : BitVec 4 :=
  match c with
  | .enc => s.werr
  | .dec => s.rerr
  | .neutral => 0

/-- The output `err_o` (R37): a function of the state. -/
def State.errO (s : State) : Bool := s.rerr != 0 || s.werr != 0 || s.halt

end Sys2Proof.Machine
end

