-- ==== Sys2Proof/Config.lean ====
section
/-! DEFINITION. The implementation parameters of R7 as one record, the kinds of R180 that index one of them, and
which records R7, R180 and U12 allow. The record this hardware takes is `Sys2Proof.Machine.hw`. -/

namespace Sys2Proof

/-- The thirteen variants of Primitive Value, in the order of their kind codes (R180). -/
inductive Kind where
  | null | boolean | unsigned | signed | real | double | octetString | characterString | bitString
  | enumerated | date | time | objectIdentifier
deriving DecidableEq, Repr

/-- The parameters of R7. -/
structure Config where
  /-- `TAG_MAX`: the largest legal tag number. -/
  tagMax : Nat
  /-- `LV_W`: the width of `lengthOrValue` in bits. -/
  lvW : Nat
  /-- `VAL_W`: the width of unsigned, signed and enumerated values in bits; `VAL_OCTETS` is `VAL_W / 8`. -/
  valW : Nat
  /-- `IBUF_CAP`: the capacity of the input buffer in octets. -/
  ibufCap : Nat
  /-- `OBUF_CAP`: the capacity of the output buffer in octets. -/
  obufCap : Nat
  /-- `YEAR_BASE`: the wire year is the year minus this. -/
  yearBase : Nat
  /-- `YEAR_UNSPEC`: the year sentinel that passes through unchanged. -/
  yearUnspec : Nat
  /-- `PROTOCOL_VERSION`: the first octet of an NPDU header. -/
  protocolVersion : Nat
  /-- `APPTAG[kind]`: the wire tag number of each variant. -/
  apptag : Kind → Nat
  /-- `OBJ_TYPE_W`: the width of an object type in bits. -/
  objTypeW : Nat
  /-- `OBJ_INST_W`: the width of an object instance in bits. -/
  objInstW : Nat
  /-- `APDU_LIMITS`: the thresholds of the low nibble of the segmentation octet. -/
  apduLimits : List Nat

/-- The records R7 allows: what the source fixes is fixed, a capacity is any value 1..65535, the year base leaves
every decoded year inside its 16-bit field (U12), and `APPTAG` is an injective map into 0..14 with
`APPTAG[real] = 4` (R180). `VAL_W` stays 32, since the command formats carry 32-bit values (U26). -/
structure Config.Valid (c : Config) : Prop where
  tagMax : c.tagMax = 254
  lvW : c.lvW = 32
  valW : c.valW = 32
  ibufCap : 1 ≤ c.ibufCap ∧ c.ibufCap ≤ 65535
  obufCap : 1 ≤ c.obufCap ∧ c.obufCap ≤ 65535
  yearBase : c.yearBase + 254 ≤ 65535
  yearUnspec : c.yearUnspec = 0xFF
  protocolVersion : c.protocolVersion = 1
  apptag_le : ∀ k, c.apptag k ≤ 14
  apptag_injective : Function.Injective c.apptag
  apptag_real : c.apptag Kind.real = 4
  objTypeW : c.objTypeW = 10
  objInstW : c.objInstW = 22
  apduLimits : c.apduLimits = [50, 128, 206, 480, 1024, 1476]

end Sys2Proof
end

