-- ==== Sys2Proof/Machine/Params.lean ====
section
/-! DEFINITION. The values this hardware gives the parameters of R7, and the kind table of R180. -/

namespace Sys2Proof

/-- The kind code `k` of R180. -/
def Kind.code : Kind → Nat
  | .null => 0
  | .boolean => 1
  | .unsigned => 2
  | .signed => 3
  | .real => 4
  | .double => 5
  | .octetString => 6
  | .characterString => 7
  | .bitString => 8
  | .enumerated => 9
  | .date => 10
  | .time => 11
  | .objectIdentifier => 12

/-- The supported kinds of R180: all but octet string and bit string. -/
def Kind.supported : Kind → Bool
  | .null => true
  | .boolean => true
  | .unsigned => true
  | .signed => true
  | .real => true
  | .double => true
  | .octetString => false
  | .characterString => true
  | .bitString => false
  | .enumerated => true
  | .date => true
  | .time => true
  | .objectIdentifier => true

/-- Every kind, in the order of the codes (R180). -/
def Kind.all : List Kind :=
  [.null, .boolean, .unsigned, .signed, .real, .double, .octetString, .characterString, .bitString, .enumerated,
    .date, .time, .objectIdentifier]

/-- `VAL_OCTETS` (R7): the largest integer payload. -/
def Config.valOctets (cfg : Config) : Nat := cfg.valW / 8

/-- The supported kind a tag number stands for (R180, R195: "the kind with APPTAG[k] = t"); none for a tag number that
is no supported kind's. -/
def Config.kindOf (cfg : Config) (t : Nat) : Option Kind :=
  Kind.all.find? fun k => k.supported && cfg.apptag k == t

namespace Machine

/-- The default `APPTAG` of R180, on which R90's dispatch table rests: the tag number is the kind code. -/
def defaultApptag (k : Kind) : Nat := k.code

/-- The parameters this hardware takes (R7; log 9). -/
def hw : Config where
  tagMax := 254
  lvW := 32
  valW := 32
  ibufCap := 2048
  obufCap := 2048
  yearBase := 1990
  yearUnspec := 0xFF
  protocolVersion := 1
  apptag := defaultApptag
  objTypeW := 10
  objInstW := 22
  apduLimits := [50, 128, 206, 480, 1024, 1476]

end Machine

end Sys2Proof
end

