-- ==== Sys2Proof/Machine/Ops.lean ====
section
/-! DEFINITION. The shared operations: the octet memories, the five register updates everything else is made of, the
effect of a fault (R244), the prologue (R243), the writer (R54), the reader (R53), and fetching from the command
stream. -/

namespace Sys2Proof.Machine

/-! ## Octet memories -/

/-- One octet of a memory. -/
def Memory.read : Memory → Nat → Byte
  | [], _ => unwritten
  | (b, v) :: m, a => if b = a then v else Memory.read m a

/-- Write one octet, keeping the canonical form. -/
def Memory.write : Memory → Nat → Byte → Memory
  | [], a, v => if v = unwritten then [] else [(a, v)]
  | (b, w) :: m, a, v =>
    if a < b then (if v = unwritten then (b, w) :: m else (a, v) :: (b, w) :: m)
    else if a = b then (if v = unwritten then m else (a, v) :: m)
    else (b, w) :: Memory.write m a v

/-- `MemRead(_, a, n)` of R13: the octets at `a` to `a + n - 1`. -/
def Memory.readAll (m : Memory) (a : Nat) : Nat → List Byte
  | 0 => []
  | n + 1 => Memory.read m a :: Memory.readAll m (a + 1) n

/-- `MemWrite(_, a, bs)` of R13: octet `i` of `bs` at `a + i`. -/
def Memory.writeAll (m : Memory) (a : Nat) : List Byte → Memory
  | [] => m
  | b :: bs => Memory.writeAll (Memory.write m a b) (a + 1) bs

/-! ## Register updates -/

/-- Write all seven result registers (R29). -/
def State.setResults (s : State) (r : Results) : State :=
  { s with st := r.st, rk := r.rk, rt := r.rt, rc := r.rc, rl := r.rl, rv := r.rv, rn := r.rn }

/-- Write the encode half (R58). -/
def State.setEnc (s : State) (obuf : Memory) (wpos : Half) (werr : BitVec 4) : State :=
  { s with obuf := obuf, wpos := wpos, werr := werr }

/-- Write the decode half (R58). -/
def State.setDec (s : State) (ibuf : Memory) (ilen rpos : Half) (rerr : BitVec 4) : State :=
  { s with ibuf := ibuf, ilen := ilen, rpos := rpos, rerr := rerr }

/-- Write `HALT`. -/
def State.setHalt (s : State) (h : Bool) : State := { s with halt := h }

/-- Replace what the command stream still holds. -/
def State.setStream (s : State) (bs : List Byte) : State := { s with stream := bs }

/-! ## Faults -/

/-- Report a status and nothing else: `ST` takes the code, the other result registers 0. -/
def State.report (s : State) (code : BitVec 4) : State := s.setResults { st := code }

/-- The effect of `raise E` in a command of a class (R244): the status is reported, the class's sticky error latched,
and every buffer and cursor left as it was. A NEUTRAL command's `raise` latches nothing (R226). -/
def State.raise (s : State) (c : Cls) (e : Status) : State :=
  match c with
  | .enc => (s.report e.code).setEnc s.obuf s.wpos e.code
  | .dec => (s.report e.code).setDec s.ibuf s.ilen s.rpos e.code
  | .neutral => s.report e.code

/-- An opcode outside the table (R84, R243 step 2, R246): `HALT` is set, BadCommand reported, and the octet with
everything after it discarded. -/
def State.badCommand (s : State) : State := ((s.report Status.badCommand.code).setHalt true).setStream []

/-- The prologue of R243 for a command that is in the table: discarded while halted, short-circuited while its class's
sticky error is set, else its own pseudocode runs. -/
def State.prologue (s : State) (c : Cls) (body : State → State) : State :=
  if s.halt then s
  else if sticky c s = 0 then body s
  else s.report (sticky c s)

/-! ## The writer -/

/-- What the pseudocode of an ENC command computes from its operands: the octets to append, and the result registers
(`ST` and `RN` are the writer's). -/
structure Emission where
  out : List Byte
  res : Results
deriving DecidableEq, Repr

/-- The writer of R54: all of the octets or none. -/
def State.append (cfg : Config) (s : State) (em : Emission) : State :=
  if s.wpos.toNat + em.out.length > cfg.obufCap then s.raise .enc .bufferOverflow
  else (s.setResults { em.res with st := Status.ok.code, rn := BitVec.ofNat 32 em.out.length }).setEnc
    (Memory.writeAll s.obuf s.wpos.toNat em.out) (s.wpos + BitVec.ofNat 16 em.out.length) s.werr

/-- An ENC command: the prologue, then its emission appended or its fault raised. -/
def State.encCommand (cfg : Config) (s : State) (r : Except Status Emission) : State :=
  s.prologue .enc fun s =>
    match r with
    | .error e => s.raise .enc e
    | .ok em => s.append cfg em

/-! ## The reader -/

/-- What a decode helper gives: the result registers (`RN` is the reader's) and the count of octets consumed. -/
structure Decoded where
  res : Results
  n : Nat
deriving DecidableEq, Repr

/-- The unread input `in = MemRead(IBUF, RPOS, ILEN - RPOS)` of R53. -/
def State.unread (s : State) : List Byte := Memory.readAll s.ibuf s.rpos.toNat (s.ilen.toNat - s.rpos.toNat)

/-- The reader of R53: the cursor moves over the octets consumed, and `RN` counts them. -/
def State.consume (s : State) (d : Decoded) : State :=
  (s.setResults { d.res with rn := BitVec.ofNat 32 d.n }).setDec s.ibuf s.ilen (s.rpos + BitVec.ofNat 16 d.n) s.rerr

/-- A DEC command: the prologue, then its helper on the unread input and the index of that input's first octet. -/
def State.decCommand (s : State) (f : List Byte → Nat → Except Status Decoded) : State :=
  s.prologue .dec fun s =>
    match f s.unread s.rpos.toNat with
    | .error e => s.raise .dec e
    | .ok d => s.consume d

/-! ## The buffers as wholes -/

/-- `OCLR` (R101). -/
def State.clearOut (s : State) : State := (s.report Status.ok.code).setEnc s.obuf 0 0

/-- `ICLR` (R102). -/
def State.clearIn (s : State) : State := (s.report Status.ok.code).setDec s.ibuf 0 0 0

/-- `ILOAD` (R103): the buffer replaced, or emptied and latched where the octets do not fit. -/
def State.loadIn (cfg : Config) (s : State) (data : List Byte) : State :=
  if data.length > cfg.ibufCap then
    (s.report Status.bufferOverflow.code).setDec s.ibuf 0 0 Status.bufferOverflow.code
  else
    (s.setResults { st := Status.ok.code, rn := BitVec.ofNat 32 data.length }).setDec
      (Memory.writeAll s.ibuf 0 data) (BitVec.ofNat 16 data.length) 0 0

/-! ## The command stream -/

/-- Fetch: what stands at the front of the command stream (R80, R85). -/
def State.fetch (s : State) : Parsed := decode s.stream

/-- A step of a halted block: every octet pushed is discarded and nothing else changes (R28, R243 step 1). -/
def State.discardStream (s : State) : State := s.setStream []

/-- A block that has no complete command waits for the host (R240): its state does not change (log 3). -/
def State.waitForHost (s : State) : State := s

end Sys2Proof.Machine
end

