-- ==== Sys2Proof/Machine/Operands.lean ====
section
/-! DEFINITION. The operand forms and the packings of results: reserved bits (R82), the signed reading of a 32-bit
operand (R137), years (R158, R159), centiseconds (R161, R162), the ObjectID word (R163), and the layouts of `RV`
(R29). -/

namespace Sys2Proof.Machine

/-! ## Operands -/

/-- `flags[7:1]` of `ENC_TAG` and `b[7:1]` of `APP_BOOL` are reserved and must be 0 (R82). -/
def reservedBits71 (b : Byte) : Bool := b.extractLsb' 1 7 != 0

/-- `flags[6:3]` of `ENC_NPDU` are reserved and must be 0 (R214). -/
def reservedBits63 (b : Byte) : Bool := b.extractLsb' 3 4 != 0

/-- The signed reading of a 32-bit operand (R137). -/
def signedReading (v : Word) : Int := if v.toNat < 2 ^ 31 then v.toNat else (v.toNat : Int) - 2 ^ 32

/-- The wire octet of a year (R158): the sentinel passes through, a year within reach of one octet is offset, any other
is refused. -/
def wireYear (cfg : Config) (year : Half) : Except Status Byte :=
  if year.toNat = cfg.yearUnspec then .ok (BitVec.ofNat 8 cfg.yearUnspec)
  else if cfg.yearBase ≤ year.toNat ∧ year.toNat ≤ cfg.yearBase + 254 then
    .ok (BitVec.ofNat 8 (year.toNat - cfg.yearBase))
  else .error .unsupportedValueType

/-- The year of a wire octet (R159): the octet is read, then compared with the sentinel, then offset (C4). -/
def yearOfWire (cfg : Config) (y : Byte) : Half :=
  if y.toNat = cfg.yearUnspec then BitVec.ofNat 16 cfg.yearUnspec else BitVec.ofNat 16 (y.toNat + cfg.yearBase)

/-- The centisecond octet of a millisecond count (R161): floor division, refused above 999. -/
def centiseconds (ms : Half) : Except Status Byte :=
  if ms.toNat > 999 then .error .unsupportedValueType else .ok (BitVec.ofNat 8 (ms.toNat / 10))

/-- The millisecond count of a centisecond octet (R162), not range-checked. -/
def millisOfWire (cs : Byte) : Half := BitVec.ofNat 16 (cs.toNat * 10)

/-- The ObjectID word of R163, refused where a field is out of its range (R164). -/
def oidWord (cfg : Config) (type : Half) (inst : Word) : Except Status Word :=
  if type.toNat > 2 ^ cfg.objTypeW - 1 ∨ inst.toNat > 2 ^ cfg.objInstW - 1 then .error .unsupportedValueType
  else .ok (BitVec.ofNat 32 (type.toNat <<< cfg.objInstW ||| inst.toNat))

/-! ## The layouts of `RV` (R29) -/

/-- A date in `RV`: year in [39:24], month in [23:16], day in [15:8], dayOfWeek in [7:0]. -/
def packDate (year : Half) (month day dow : Byte) : Long := (0#24 ++ year ++ month ++ day ++ dow : BitVec 64)

/-- A time in `RV`: hour in [39:32], minute in [31:24], second in [23:16], millisecond in [15:0]. -/
def packTime (hour minute second : Byte) (ms : Half) : Long := (0#24 ++ hour ++ minute ++ second ++ ms : BitVec 64)

/-- A boolean in `RV`: bit 0. -/
def packBool (b : Bool) : Long := if b then 1 else 0

end Sys2Proof.Machine
end

