-- ==== Sys2Proof/Machine/BufferOps.lean ====
section
/-! DEFINITION. The buffer management commands (R100 to R103). -/

namespace Sys2Proof.Machine

/-- `NOP` (R100): no result register is written. -/
def execNop (s : State) : Host.Outcome State Fault Refusal := .next (s.prologue .neutral fun s => s)

/-- `OCLR` (R101). -/
def execOclr (s : State) : Host.Outcome State Fault Refusal := .next (s.prologue .neutral State.clearOut)

/-- `ICLR` (R102). -/
def execIclr (s : State) : Host.Outcome State Fault Refusal := .next (s.prologue .neutral State.clearIn)

/-- `ILOAD` (R103). -/
def execIload (data : List Byte) (s : State) : Host.Outcome State Fault Refusal :=
  .next (s.prologue .neutral fun s => s.loadIn hw data)

end Sys2Proof.Machine
end

