-- ==== Sys2Proof/Machine/Npdu.lean ====
section
/-! DEFINITION. The NPDU header framer: the functions of R212 and R213 and the command `ENC_NPDU` (R214). -/

namespace Sys2Proof.Machine

/-- The control octet of R212. -/
def npduControl (flags : Byte) (dnet snet : Half) (slen : Nat) : Byte :=
  BitVec.ofNat 8
    ((flags.getLsbD 7).toNat <<< 7
      ||| (decide (dnet.toNat > 0)).toNat <<< 5
      ||| (decide (snet.toNat > 0 ∧ slen > 0)).toNat <<< 3
      ||| (flags.getLsbD 2).toNat <<< 2
      ||| (flags.extractLsb' 0 2).toNat)

/-- One address group of R213: the network number, the length octet, the address octets. -/
def npduAddress (net : Half) (adr : List Byte) : List Byte := be net.toNat 2 ++ be adr.length 1 ++ adr

/-- Step 5 of R213: the hop count. -/
def npduHop (dnet : Half) (hop : Byte) : List Byte := if dnet.toNat > 0 then [hop] else []

/-- Step 6 of R213: the message type, with the vendor ID from 0x80 on, of a network-layer message. -/
def npduMessage (flags mtype : Byte) (vendor : Half) : List Byte :=
  if flags.getLsbD 7 = false then []
  else if mtype.toNat < 0x80 then [mtype]
  else mtype :: be vendor.toNat 2

/-- `encNpdu(...)` of R213: the six steps in order. -/
def encNpdu (cfg : Config) (flags hop mtype : Byte) (vendor dnet : Half) (dadr : List Byte) (snet : Half)
    (sadr : List Byte) : List Byte :=
  BitVec.ofNat 8 cfg.protocolVersion :: npduControl flags dnet snet sadr.length
    :: (npduAddress dnet dadr ++ npduAddress snet sadr ++ npduHop dnet hop ++ npduMessage flags mtype vendor)

/-- What `ENC_NPDU` computes (R214). -/
def emitNpdu (cfg : Config) (flags hop mtype : Byte) (vendor dnet : Half) (dadr : List Byte) (snet : Half)
    (sadr : List Byte) : Except Status Emission :=
  if reservedBits63 flags = true then .error .unsupportedValueType
  else .ok
    { out := encNpdu cfg flags hop mtype vendor dnet dadr snet sadr
      res := { rl := BitVec.ofNat 32 (encNpdu cfg flags hop mtype vendor dnet dadr snet sadr).length
               rv := (npduControl flags dnet snet sadr.length).setWidth 64 } }

/-- `ENC_NPDU` (R214). -/
def execEncNpdu (flags hop mtype : Byte) (vendor dnet : Half) (dadr : List Byte) (snet : Half) (sadr : List Byte)
    (s : State) : Host.Outcome State Fault Refusal :=
  .next (s.encCommand hw (emitNpdu hw flags hop mtype vendor dnet dadr snet sadr))

end Sys2Proof.Machine
end

