-- ==== Sys2Proof/Machine/Segparam.lean ====
section
/-! DEFINITION. The segmentation parameter codec: the functions of R225 and the command `ENC_SEG` (R226). -/

namespace Sys2Proof.Machine

/-- `hi(maxsegs)` of R225. -/
def segHigh (maxsegs : Nat) : Nat :=
  if maxsegs < 2 then 0
  else if maxsegs < 4 then 1
  else if maxsegs < 8 then 2
  else if maxsegs < 16 then 3
  else if maxsegs < 32 then 4
  else if maxsegs < 64 then 5
  else if maxsegs = 64 then 6
  else 7

/-- `lo(maxapdu)` of R225: the first threshold of `APDU_LIMITS` that holds it. -/
def segLow (cfg : Config) (maxapdu : Nat) : Option Nat := cfg.apduLimits.findIdx? fun limit => decide (maxapdu ≤ limit)

/-- `segOctet(maxsegs, maxapdu)` of R225. -/
def segOctet (cfg : Config) (maxsegs maxapdu : Nat) : Except Status Byte :=
  match segLow cfg maxapdu with
  | none => .error .unsupportedValueType
  | some lo => .ok (BitVec.ofNat 8 (segHigh maxsegs <<< 4 ||| lo))

/-- The pseudocode of `ENC_SEG` (R226): neither buffer is touched and a fault latches nothing. -/
def State.segCommand (cfg : Config) (s : State) (maxsegs maxapdu : Half) : State :=
  match segOctet cfg maxsegs.toNat maxapdu.toNat with
  | .error e => s.raise .neutral e
  | .ok r => s.setResults { st := Status.ok.code, rv := r.setWidth 64 }

/-- `ENC_SEG` (R226). -/
def execEncSeg (maxsegs maxapdu : Half) (s : State) : Host.Outcome State Fault Refusal :=
  .next (s.prologue .neutral fun s => s.segCommand hw maxsegs maxapdu)

end Sys2Proof.Machine
end

