-- ==== Sys2Proof/Machine/Integers.lean ====
section
/-! DEFINITION. Variable-length integers: the functions of R130 to R135 and the commands `ENC_UINT`, `ENC_SINT`,
`DEC_UINT`, `DEC_SINT` (R136 to R139). -/

namespace Sys2Proof.Machine

/-- `ulen(v)` of R130. -/
def ulen (v : Nat) : Nat := if v < 2 ^ 8 then 1 else if v < 2 ^ 16 then 2 else if v < 2 ^ 24 then 3 else 4

/-- `encUint(v)` of R131. -/
def encUint (v : Nat) : List Byte := be v (ulen v)

/-- `slen(v)` of R132. -/
def slen (v : Int) : Nat :=
  if -2 ^ 7 ≤ v ∧ v < 2 ^ 7 then 1
  else if -2 ^ 15 ≤ v ∧ v < 2 ^ 15 then 2
  else if -2 ^ 23 ≤ v ∧ v < 2 ^ 23 then 3
  else 4

/-- `encSint(v)` of R133: the low-order octets of the 32-bit two's complement. -/
def encSint (v : Int) : List Byte := be (v % 2 ^ 32).toNat (slen v)

/-- `decUint(in, n)` of R134; the count it consumes is `n`. -/
def decUint (cfg : Config) (inp : List Byte) (n : Nat) : Except Status Nat :=
  if n > cfg.valOctets then .error .malformedTag
  else if n > inp.length then .error .insufficientBytes
  else .ok (beVal (inp.take n))

/-- The two's-complement reading of an `n`-octet number (R135). -/
def signedOctets (u n : Nat) : Int :=
  if 0 < n ∧ u ≥ 2 ^ (8 * n - 1) then (u : Int) - 2 ^ (8 * n) else u

/-- `decSint(in, n)` of R135; the count it consumes is `n`. -/
def decSint (cfg : Config) (inp : List Byte) (n : Nat) : Except Status Int :=
  if n > cfg.valOctets then .error .malformedTag
  else if n > inp.length then .error .insufficientBytes
  else .ok (signedOctets (beVal (inp.take n)) n)

/-- What `ENC_UINT` computes (R136). -/
def emitUint (v : Word) : Except Status Emission :=
  .ok { out := encUint v.toNat, res := { rl := BitVec.ofNat 32 (ulen v.toNat), rv := v.setWidth 64 } }

/-- What `ENC_SINT` computes (R137). -/
def emitSint (v : Word) : Except Status Emission :=
  .ok { out := encSint (signedReading v)
        res := { rl := BitVec.ofNat 32 (slen (signedReading v)), rv := v.signExtend 64 } }

/-- What `DEC_UINT` computes (R138). -/
def readUint (cfg : Config) (n : Byte) (inp : List Byte) : Except Status Decoded :=
  match decUint cfg inp n.toNat with
  | .error e => .error e
  | .ok u => .ok { res := { rl := n.setWidth 32, rv := BitVec.ofNat 64 u }, n := n.toNat }

/-- What `DEC_SINT` computes (R139). -/
def readSint (cfg : Config) (n : Byte) (inp : List Byte) : Except Status Decoded :=
  match decSint cfg inp n.toNat with
  | .error e => .error e
  | .ok v => .ok { res := { rl := n.setWidth 32, rv := BitVec.ofInt 64 v }, n := n.toNat }

/-- `ENC_UINT` (R136). -/
def execEncUint (v : Word) (s : State) : Host.Outcome State Fault Refusal := .next (s.encCommand hw (emitUint v))

/-- `ENC_SINT` (R137). -/
def execEncSint (v : Word) (s : State) : Host.Outcome State Fault Refusal := .next (s.encCommand hw (emitSint v))

/-- `DEC_UINT` (R138). -/
def execDecUint (n : Byte) (s : State) : Host.Outcome State Fault Refusal :=
  .next (s.decCommand fun inp _ => readUint hw n inp)

/-- `DEC_SINT` (R139). -/
def execDecSint (n : Byte) (s : State) : Host.Outcome State Fault Refusal :=
  .next (s.decCommand fun inp _ => readSint hw n inp)

end Sys2Proof.Machine
end

