-- ==== Sys2Proof/Machine/Primitives.lean ====
section
/-! DEFINITION. Fixed-size and string payloads (R150 to R166): real, double, character string, date, time, object
identifier. -/

namespace Sys2Proof.Machine

/-! ## The payloads, shared by the body commands and the application-tagged ones -/

/-- The date payload of R77 from its operands (R158). -/
def datePayload (cfg : Config) (year : Half) (month day dow : Byte) : Except Status (List Byte) :=
  match wireYear cfg year with
  | .error e => .error e
  | .ok y => .ok [y, month, day, dow]

/-- The time payload of R78 from its operands (R161). -/
def timePayload (hour minute second : Byte) (ms : Half) : Except Status (List Byte) :=
  match centiseconds ms with
  | .error e => .error e
  | .ok cs => .ok [hour, minute, second, cs]

/-- The value of a payload of exactly `k` octets, read big-endian (R151, R153, R165): the length a tag carried plays no
part (R166). -/
def fixedValue (k : Nat) (inp : List Byte) : Except Status Long :=
  if inp.length < k then .error .insufficientBytes else .ok (BitVec.ofNat 64 (beVal (inp.take k)))

/-- The date of four payload octets, as `RV` holds it (R159). -/
def dateValue (cfg : Config) : List Byte → Except Status Long
  | y :: month :: day :: dow :: _ => .ok (packDate (yearOfWire cfg y) month day dow)
  | _ => .error .insufficientBytes

/-- The time of four payload octets, as `RV` holds it (R162). -/
def timeValue : List Byte → Except Status Long
  | hour :: minute :: second :: cs :: _ => .ok (packTime hour minute second (millisOfWire cs))
  | _ => .error .insufficientBytes

/-- A payload of `n` raw octets left where it is: its index in `IBUF` (R156). -/
def stringValue (n : Nat) (inp : List Byte) (base : Nat) : Except Status Long :=
  if n > inp.length then .error .insufficientBytes else .ok (BitVec.ofNat 64 base)

/-- The results of a body decode of `k` octets (R151, R153, R156, R159, R162, R165): the value, and the count in
`RL`. -/
def readBody (k : Nat) (v : Except Status Long) : Except Status Decoded :=
  match v with
  | .error e => .error e
  | .ok rv => .ok { res := { rl := BitVec.ofNat 32 k, rv := rv }, n := k }

/-- The results of a body encode whose payload may be refused (R158, R161, R164): the value, and the payload's length in
`RL`. -/
def emitBody (payload : Except Status (List Byte)) (rv : Long) : Except Status Emission :=
  match payload with
  | .error e => .error e
  | .ok out => .ok { out := out, res := { rl := BitVec.ofNat 32 out.length, rv := rv } }

/-- The object identifier payload from its word (R164). -/
def oidPayload (cfg : Config) (type : Half) (inst : Word) : Except Status (List Byte) :=
  match oidWord cfg type inst with
  | .error e => .error e
  | .ok w => .ok (be w.toNat 4)

/-- The object identifier as `RV` holds it (R29): the word of operands that fit their fields. -/
def oidResult (cfg : Config) (type : Half) (inst : Word) : Long :=
  match oidWord cfg type inst with
  | .error _ => 0
  | .ok w => w.setWidth 64

/-! ## The body commands -/

/-- What `ENC_REAL` computes (R150). -/
def emitReal (v : Word) : Except Status Emission := emitBody (.ok (be v.toNat 4)) (v.setWidth 64)

/-- What `ENC_DBL` computes (R152). -/
def emitDbl (v : Long) : Except Status Emission := emitBody (.ok (be v.toNat 8)) v

/-- What `ENC_STR` computes (R155). -/
def emitStr (data : List Byte) : Except Status Emission := emitBody (.ok data) 0

/-- What `ENC_DATE` computes (R158). -/
def emitDate (cfg : Config) (year : Half) (month day dow : Byte) : Except Status Emission :=
  emitBody (datePayload cfg year month day dow) (packDate year month day dow)

/-- What `ENC_TIME` computes (R161): `RV` holds the millisecond count given, not the rounded one. -/
def emitTime (hour minute second : Byte) (ms : Half) : Except Status Emission :=
  emitBody (timePayload hour minute second ms) (packTime hour minute second ms)

/-- What `ENC_OID` computes (R164). -/
def emitOid (cfg : Config) (type : Half) (inst : Word) : Except Status Emission :=
  emitBody (oidPayload cfg type inst) (oidResult cfg type inst)

/-- `ENC_REAL` (R150). -/
def execEncReal (v : Word) (s : State) : Host.Outcome State Fault Refusal := .next (s.encCommand hw (emitReal v))

/-- `DEC_REAL` (R151). -/
def execDecReal (s : State) : Host.Outcome State Fault Refusal :=
  .next (s.decCommand fun inp _ => readBody 4 (fixedValue 4 inp))

/-- `ENC_DBL` (R152). -/
def execEncDbl (v : Long) (s : State) : Host.Outcome State Fault Refusal := .next (s.encCommand hw (emitDbl v))

/-- `DEC_DBL` (R153). -/
def execDecDbl (s : State) : Host.Outcome State Fault Refusal :=
  .next (s.decCommand fun inp _ => readBody 8 (fixedValue 8 inp))

/-- `ENC_STR` (R155). -/
def execEncStr (data : List Byte) (s : State) : Host.Outcome State Fault Refusal :=
  .next (s.encCommand hw (emitStr data))

/-- `DEC_STR` (R156). -/
def execDecStr (n : Word) (s : State) : Host.Outcome State Fault Refusal :=
  .next (s.decCommand fun inp base => readBody n.toNat (stringValue n.toNat inp base))

/-- `ENC_DATE` (R158). -/
def execEncDate (year : Half) (month day dow : Byte) (s : State) : Host.Outcome State Fault Refusal :=
  .next (s.encCommand hw (emitDate hw year month day dow))

/-- `DEC_DATE` (R159). -/
def execDecDate (s : State) : Host.Outcome State Fault Refusal :=
  .next (s.decCommand fun inp _ => readBody 4 (dateValue hw inp))

/-- `ENC_TIME` (R161). -/
def execEncTime (hour minute second : Byte) (ms : Half) (s : State) : Host.Outcome State Fault Refusal :=
  .next (s.encCommand hw (emitTime hour minute second ms))

/-- `DEC_TIME` (R162). -/
def execDecTime (s : State) : Host.Outcome State Fault Refusal :=
  .next (s.decCommand fun inp _ => readBody 4 (timeValue inp))

/-- `ENC_OID` (R164). -/
def execEncOid (type : Half) (inst : Word) (s : State) : Host.Outcome State Fault Refusal :=
  .next (s.encCommand hw (emitOid hw type inst))

/-- `DEC_OID` (R165). -/
def execDecOid (s : State) : Host.Outcome State Fault Refusal :=
  .next (s.decCommand fun inp _ => readBody 4 (fixedValue 4 inp))

end Sys2Proof.Machine
end

