-- ==== Sys2Proof/Machine/TagHeader.lean ====
section
/-! DEFINITION. The tag header codec and the length serializer: the functions of R110, R111 and R113, and the commands
`ENC_TAG` (R112) and `DEC_TAG` (R114). -/

namespace Sys2Proof.Machine

/-- `encLenExt(L)` of R110: the length extension octets. -/
def encLenExt (L : Nat) : List Byte :=
  if L < 5 then []
  else if L < 254 then [BitVec.ofNat 8 L]
  else if L < 65536 then 0xFE :: be L 2
  else 0xFF :: be L 4

/-- `encTag(t, c, L)` of R111: the header octets. -/
def encTag (t : Nat) (c : Bool) (L : Nat) : List Byte :=
  headOctet (if t < 15 then t else 15) c (if L < 5 then L else 5)
    :: ((if t < 15 then [] else [BitVec.ofNat 8 t]) ++ encLenExt L)

/-- The length part of `decTag` (R113): from the `lv` bits of the first octet and the octets that follow the tag number,
the lengthOrValue and how many octets its extension took. -/
def decLenExt (lv : BitVec 3) (rest : List Byte) : Except Status (Nat × Nat) :=
  if lv = 5 then
    match rest with
    | [] => .error .malformedTag
    | m :: more =>
      if m = 0xFE then
        if more.length < 2 then .error .malformedTag else .ok (beVal (more.take 2), 3)
      else if m = 0xFF then
        if more.length < 4 then .error .malformedTag else .ok (beVal (more.take 4), 5)
      else .ok (m.toNat, 1)
  else .ok (lv.toNat, 0)

/-- A decoded header (R113): tag number, class bit, lengthOrValue, octets consumed. -/
structure Header where
  t : Nat
  c : Bool
  L : Nat
  n : Nat
deriving DecidableEq, Repr

/-- `decTag(in)` of R113. -/
def decTag (cfg : Config) : List Byte → Except Status Header
  | [] => .error .insufficientBytes
  | b0 :: r =>
    if headNibble b0 = 15 then
      match r with
      | [] => .error .malformedTag
      | t :: r' =>
        if t.toNat > cfg.tagMax then .error .malformedTag
        else
          match decLenExt (headLv b0) r' with
          | .error e => .error e
          | .ok (L, k) => .ok { t := t.toNat, c := headClass b0, L := L, n := 2 + k }
    else
      match decLenExt (headLv b0) r with
      | .error e => .error e
      | .ok (L, k) => .ok { t := headNibble b0, c := headClass b0, L := L, n := 1 + k }

/-- What `ENC_TAG` computes (R112). -/
def emitTag (cfg : Config) (tn flags : Byte) (lv : Word) : Except Status Emission :=
  if tn.toNat > cfg.tagMax ∨ reservedBits71 flags = true then .error .unsupportedValueType
  else .ok
    { out := encTag tn.toNat (flags.getLsbD 0) lv.toNat
      res := { rt := tn, rc := flags.getLsbD 0, rl := lv } }

/-- What `DEC_TAG` computes (R114). -/
def readTag (cfg : Config) (inp : List Byte) : Except Status Decoded :=
  match decTag cfg inp with
  | .error e => .error e
  | .ok h => .ok { res := { rt := BitVec.ofNat 8 h.t, rc := h.c, rl := BitVec.ofNat 32 h.L }, n := h.n }

/-- `ENC_TAG` (R112). -/
def execEncTag (tn flags : Byte) (lv : Word) (s : State) : Host.Outcome State Fault Refusal :=
  .next (s.encCommand hw (emitTag hw tn flags lv))

/-- `DEC_TAG` (R114). -/
def execDecTag (s : State) : Host.Outcome State Fault Refusal := .next (s.decCommand fun inp _ => readTag hw inp)

end Sys2Proof.Machine
end

