-- ==== Sys2Proof/Machine/AppValues.lean ====
section
/-! DEFINITION. Application-tagged values: the thirteen `APP_` commands (R181 to R194), and `decAny` with `DEC_ANY`
(R195, R196). -/

namespace Sys2Proof.Machine

/-! ## Encoding -/

/-- The common shape of the `APP_` commands (R181): an application tag of the kind, then the payload. -/
def emitApp (cfg : Config) (k : Kind) (lv : Nat) (rv : Long) (payload : List Byte) : Emission where
  out := encTag (cfg.apptag k) false lv ++ payload
  res := { rk := BitVec.ofNat 4 k.code, rt := BitVec.ofNat 8 (cfg.apptag k), rc := false, rl := BitVec.ofNat 32 lv, rv := rv }

/-- What `APP_NULL` computes (R182). -/
def emitAppNull (cfg : Config) : Except Status Emission := .ok (emitApp cfg .null 0 0 [])

/-- What `APP_BOOL` computes (R183): the boolean is the lengthOrValue. -/
def emitAppBool (cfg : Config) (b : Byte) : Except Status Emission :=
  if reservedBits71 b = true then .error .unsupportedValueType
  else .ok (emitApp cfg .boolean (b.getLsbD 0).toNat (packBool (b.getLsbD 0)) [])

/-- What `APP_UINT` computes (R184). -/
def emitAppUint (cfg : Config) (v : Word) : Except Status Emission :=
  .ok (emitApp cfg .unsigned (ulen v.toNat) (v.setWidth 64) (encUint v.toNat))

/-- What `APP_SINT` computes (R185). -/
def emitAppSint (cfg : Config) (v : Word) : Except Status Emission :=
  .ok (emitApp cfg .signed (slen (signedReading v)) (v.signExtend 64) (encSint (signedReading v)))

/-- What `APP_REAL` computes (R186). -/
def emitAppReal (cfg : Config) (v : Word) : Except Status Emission :=
  .ok (emitApp cfg .real 4 (v.setWidth 64) (be v.toNat 4))

/-- What `APP_DBL` computes (R187). -/
def emitAppDbl (cfg : Config) (v : Long) : Except Status Emission := .ok (emitApp cfg .double 8 v (be v.toNat 8))

/-- What `APP_OCTSTR` computes (R188): octet string is a variant with no mapping. -/
def emitAppOctstr (_data : List Byte) : Except Status Emission := .error .unsupportedValueType

/-- What `APP_STR` computes (R189). -/
def emitAppStr (cfg : Config) (data : List Byte) : Except Status Emission :=
  .ok (emitApp cfg .characterString data.length 0 data)

/-- What `APP_BITSTR` computes (R190): bit string is a variant with no mapping. -/
def emitAppBitstr (_data : List Byte) : Except Status Emission := .error .unsupportedValueType

/-- What `APP_ENUM` computes (R191). -/
def emitAppEnum (cfg : Config) (v : Word) : Except Status Emission :=
  .ok (emitApp cfg .enumerated (ulen v.toNat) (v.setWidth 64) (encUint v.toNat))

/-- What `APP_DATE` computes (R192). -/
def emitAppDate (cfg : Config) (year : Half) (month day dow : Byte) : Except Status Emission :=
  match datePayload cfg year month day dow with
  | .error e => .error e
  | .ok p => .ok (emitApp cfg .date 4 (packDate year month day dow) p)

/-- What `APP_TIME` computes (R193). -/
def emitAppTime (cfg : Config) (hour minute second : Byte) (ms : Half) : Except Status Emission :=
  match timePayload hour minute second ms with
  | .error e => .error e
  | .ok p => .ok (emitApp cfg .time 4 (packTime hour minute second ms) p)

/-- What `APP_OID` computes (R194). -/
def emitAppOid (cfg : Config) (type : Half) (inst : Word) : Except Status Emission :=
  match oidPayload cfg type inst with
  | .error e => .error e
  | .ok p => .ok (emitApp cfg .objectIdentifier 4 (oidResult cfg type inst) p)

/-- `APP_NULL` (R182). -/
def execAppNull (s : State) : Host.Outcome State Fault Refusal := .next (s.encCommand hw (emitAppNull hw))

/-- `APP_BOOL` (R183). -/
def execAppBool (b : Byte) (s : State) : Host.Outcome State Fault Refusal := .next (s.encCommand hw (emitAppBool hw b))

/-- `APP_UINT` (R184). -/
def execAppUint (v : Word) (s : State) : Host.Outcome State Fault Refusal := .next (s.encCommand hw (emitAppUint hw v))

/-- `APP_SINT` (R185). -/
def execAppSint (v : Word) (s : State) : Host.Outcome State Fault Refusal := .next (s.encCommand hw (emitAppSint hw v))

/-- `APP_REAL` (R186). -/
def execAppReal (v : Word) (s : State) : Host.Outcome State Fault Refusal := .next (s.encCommand hw (emitAppReal hw v))

/-- `APP_DBL` (R187). -/
def execAppDbl (v : Long) (s : State) : Host.Outcome State Fault Refusal := .next (s.encCommand hw (emitAppDbl hw v))

/-- `APP_OCTSTR` (R188). -/
def execAppOctstr (data : List Byte) (s : State) : Host.Outcome State Fault Refusal :=
  .next (s.encCommand hw (emitAppOctstr data))

/-- `APP_STR` (R189). -/
def execAppStr (data : List Byte) (s : State) : Host.Outcome State Fault Refusal :=
  .next (s.encCommand hw (emitAppStr hw data))

/-- `APP_BITSTR` (R190). -/
def execAppBitstr (data : List Byte) (s : State) : Host.Outcome State Fault Refusal :=
  .next (s.encCommand hw (emitAppBitstr data))

/-- `APP_ENUM` (R191). -/
def execAppEnum (v : Word) (s : State) : Host.Outcome State Fault Refusal := .next (s.encCommand hw (emitAppEnum hw v))

/-- `APP_DATE` (R192). -/
def execAppDate (year : Half) (month day dow : Byte) (s : State) : Host.Outcome State Fault Refusal :=
  .next (s.encCommand hw (emitAppDate hw year month day dow))

/-- `APP_TIME` (R193). -/
def execAppTime (hour minute second : Byte) (ms : Half) (s : State) : Host.Outcome State Fault Refusal :=
  .next (s.encCommand hw (emitAppTime hw hour minute second ms))

/-- `APP_OID` (R194). -/
def execAppOid (type : Half) (inst : Word) (s : State) : Host.Outcome State Fault Refusal :=
  .next (s.encCommand hw (emitAppOid hw type inst))

/-! ## Decoding -/

/-- The value of an unsigned or enumerated payload (R134, R195), with the count of octets it took. -/
def uintPayload (cfg : Config) (L : Nat) (rest : List Byte) : Except Status (Long × Nat) :=
  match decUint cfg rest L with
  | .error e => .error e
  | .ok u => .ok (BitVec.ofNat 64 u, L)

/-- The value of a signed payload (R135, R195), with the count of octets it took. -/
def sintPayload (cfg : Config) (L : Nat) (rest : List Byte) : Except Status (Long × Nat) :=
  match decSint cfg rest L with
  | .error e => .error e
  | .ok v => .ok (BitVec.ofInt 64 v, L)

/-- A value with the fixed count of octets it took. -/
def withCount (k : Nat) (v : Except Status Long) : Except Status (Long × Nat) :=
  match v with
  | .error e => .error e
  | .ok rv => .ok (rv, k)

/-- The payload cases of `decAny` (R195): from the kind, the header's lengthOrValue, the octets after the header and the
index of the first of them, the value and the count of octets it took. Octet string and bit string have no payload
decoder. -/
def decPayload (cfg : Config) (k : Kind) (L : Nat) (rest : List Byte) (index : Nat) : Except Status (Long × Nat) :=
  match k with
  | .null => .ok (0, 0)
  | .boolean => .ok (packBool (L != 0), 0)
  | .unsigned => uintPayload cfg L rest
  | .signed => sintPayload cfg L rest
  | .real => withCount 4 (fixedValue 4 rest)
  | .double => withCount 8 (fixedValue 8 rest)
  | .octetString => .error .unsupportedTag
  | .characterString => withCount L (stringValue L rest index)
  | .bitString => .error .unsupportedTag
  | .enumerated => uintPayload cfg L rest
  | .date => withCount 4 (dateValue cfg rest)
  | .time => withCount 4 (timeValue rest)
  | .objectIdentifier => withCount 4 (fixedValue 4 rest)

/-- The status of a decoded value (R195): NullValue for null, else OK. -/
def valueStatus (k : Kind) : Status :=
  match k with
  | .null => .nullValue
  | .boolean => .ok
  | .unsigned => .ok
  | .signed => .ok
  | .real => .ok
  | .double => .ok
  | .octetString => .ok
  | .characterString => .ok
  | .bitString => .ok
  | .enumerated => .ok
  | .date => .ok
  | .time => .ok
  | .objectIdentifier => .ok

/-- The results of a decoded value (R196): kind, tag number, class bit and lengthOrValue as decoded, and the value. -/
def decodedValue (k : Kind) (h : Header) (rv : Long) (m : Nat) : Decoded where
  res := { st := (valueStatus k).code, rk := BitVec.ofNat 4 k.code, rt := BitVec.ofNat 8 h.t, rc := h.c,
           rl := BitVec.ofNat 32 h.L, rv := rv }
  n := h.n + m

/-- `decAny(in, base)` of R195: the header, then the dispatch on the tag number alone, then the payload. -/
def decAny (cfg : Config) (inp : List Byte) (base : Nat) : Except Status Decoded :=
  match decTag cfg inp with
  | .error e => .error e
  | .ok h =>
    match cfg.kindOf h.t with
    | none => .error .unsupportedTag
    | some k =>
      match decPayload cfg k h.L (inp.drop h.n) (base + h.n) with
      | .error e => .error e
      | .ok (rv, m) => .ok (decodedValue k h rv m)

/-- `DEC_ANY` (R196). -/
def execDecAny (s : State) : Host.Outcome State Fault Refusal := .next (s.decCommand (decAny hw))

end Sys2Proof.Machine
end

