-- ==== Sys2Proof/Machine/WireTags.lean ====
section
/-! DEFINITION. The wire-tag dispatch rows of R90: what `DEC_ANY` does from the first octet of a value on, one row per
value of that octet's high nibble, under the default `APPTAG`. Executing a row is executing `DEC_ANY` where the octet at
the read cursor is the row's octet: the same class, prologue and effects (log 6). -/

namespace Sys2Proof.Machine

/-- A wire-tag row as a command of class DEC: the octet at the read cursor is the row's own, and the row goes on with
the octets after it and the index of the first of them. -/
def State.wireCommand (s : State) (f : List Byte → Nat → Except Status Decoded) : State :=
  s.decCommand fun inp base =>
    match inp with
    | [] => .error .insufficientBytes
    | _ :: rest => f rest (base + 1)

/-- A row of a supported kind: the rest of the header, then the kind's payload. -/
def wireRow (k : Kind) (t : Nat) (c : Bool) (lv : BitVec 3)
    (payload : Nat → List Byte → Nat → Except Status (Long × Nat)) (rest : List Byte) (index : Nat) :
    Except Status Decoded :=
  match decLenExt lv rest with
  | .error e => .error e
  | .ok (L, m) =>
    match payload L (rest.drop m) (index + m) with
    | .error e => .error e
    | .ok (rv, j) => .ok (decodedValue k { t := t, c := c, L := L, n := 1 + m } rv j)

/-- A row of an unsupported or reserved tag number: the header is checked first, then the tag is refused. -/
def wireUnsupported (lv : BitVec 3) (rest : List Byte) : Except Status Decoded :=
  match decLenExt lv rest with
  | .error e => .error e
  | .ok _ => .error .unsupportedTag

/-- The row `TAG.EXT`: the tag number is the next octet, looked up the same way. -/
def wireExt (cfg : Config) (c : Bool) (lv : BitVec 3) (rest : List Byte) (index : Nat) : Except Status Decoded :=
  match rest with
  | [] => .error .malformedTag
  | t :: r =>
    if t.toNat > cfg.tagMax then .error .malformedTag
    else
      match decLenExt lv r with
      | .error e => .error e
      | .ok (L, m) =>
        match cfg.kindOf t.toNat with
        | none => .error .unsupportedTag
        | some k =>
          match decPayload cfg k L (r.drop m) (index + 1 + m) with
          | .error e => .error e
          | .ok (rv, j) => .ok (decodedValue k { t := t.toNat, c := c, L := L, n := 2 + m } rv j)

/-- `TAG.NULL`: the NullValue status, no payload. -/
def execTagNull (c : Bool) (lv : BitVec 3) (s : State) : Host.Outcome State Fault Refusal :=
  .next (s.wireCommand (wireRow .null 0 c lv fun _ _ _ => .ok (0, 0)))

/-- `TAG.BOOL`: the value is whether the lengthOrValue is not 0; no payload. -/
def execTagBool (c : Bool) (lv : BitVec 3) (s : State) : Host.Outcome State Fault Refusal :=
  .next (s.wireCommand (wireRow .boolean 1 c lv fun L _ _ => .ok (packBool (L != 0), 0)))

/-- `TAG.UINT`: lengthOrValue payload octets, at most 4. -/
def execTagUint (c : Bool) (lv : BitVec 3) (s : State) : Host.Outcome State Fault Refusal :=
  .next (s.wireCommand (wireRow .unsigned 2 c lv fun L rest _ => uintPayload hw L rest))

/-- `TAG.SINT`: lengthOrValue payload octets, at most 4. -/
def execTagSint (c : Bool) (lv : BitVec 3) (s : State) : Host.Outcome State Fault Refusal :=
  .next (s.wireCommand (wireRow .signed 3 c lv fun L rest _ => sintPayload hw L rest))

/-- `TAG.REAL`: 4 payload octets, the lengthOrValue ignored. -/
def execTagReal (c : Bool) (lv : BitVec 3) (s : State) : Host.Outcome State Fault Refusal :=
  .next (s.wireCommand (wireRow .real 4 c lv fun _ rest _ => withCount 4 (fixedValue 4 rest)))

/-- `TAG.DBL`: 8 payload octets, the lengthOrValue ignored. -/
def execTagDbl (c : Bool) (lv : BitVec 3) (s : State) : Host.Outcome State Fault Refusal :=
  .next (s.wireCommand (wireRow .double 5 c lv fun _ rest _ => withCount 8 (fixedValue 8 rest)))

/-- `TAG.OCTSTR`: UnsupportedTag. -/
def execTagOctstr (_c : Bool) (lv : BitVec 3) (s : State) : Host.Outcome State Fault Refusal :=
  .next (s.wireCommand fun rest _ => wireUnsupported lv rest)

/-- `TAG.STR`: lengthOrValue payload octets, left in `IBUF`. -/
def execTagStr (c : Bool) (lv : BitVec 3) (s : State) : Host.Outcome State Fault Refusal :=
  .next (s.wireCommand (wireRow .characterString 7 c lv fun L rest index => withCount L (stringValue L rest index)))

/-- `TAG.BITSTR`: UnsupportedTag. -/
def execTagBitstr (_c : Bool) (lv : BitVec 3) (s : State) : Host.Outcome State Fault Refusal :=
  .next (s.wireCommand fun rest _ => wireUnsupported lv rest)

/-- `TAG.ENUM`: lengthOrValue payload octets, at most 4. -/
def execTagEnum (c : Bool) (lv : BitVec 3) (s : State) : Host.Outcome State Fault Refusal :=
  .next (s.wireCommand (wireRow .enumerated 9 c lv fun L rest _ => uintPayload hw L rest))

/-- `TAG.DATE`: 4 payload octets, the lengthOrValue ignored. -/
def execTagDate (c : Bool) (lv : BitVec 3) (s : State) : Host.Outcome State Fault Refusal :=
  .next (s.wireCommand (wireRow .date 10 c lv fun _ rest _ => withCount 4 (dateValue hw rest)))

/-- `TAG.TIME`: 4 payload octets, the lengthOrValue ignored. -/
def execTagTime (c : Bool) (lv : BitVec 3) (s : State) : Host.Outcome State Fault Refusal :=
  .next (s.wireCommand (wireRow .time 11 c lv fun _ rest _ => withCount 4 (timeValue rest)))

/-- `TAG.OID`: 4 payload octets, the lengthOrValue ignored. -/
def execTagOid (c : Bool) (lv : BitVec 3) (s : State) : Host.Outcome State Fault Refusal :=
  .next (s.wireCommand (wireRow .objectIdentifier 12 c lv fun _ rest _ => withCount 4 (fixedValue 4 rest)))

/-- `TAG.RSVD13`: UnsupportedTag. -/
def execTagRsvd13 (_c : Bool) (lv : BitVec 3) (s : State) : Host.Outcome State Fault Refusal :=
  .next (s.wireCommand fun rest _ => wireUnsupported lv rest)

/-- `TAG.RSVD14`: UnsupportedTag. -/
def execTagRsvd14 (_c : Bool) (lv : BitVec 3) (s : State) : Host.Outcome State Fault Refusal :=
  .next (s.wireCommand fun rest _ => wireUnsupported lv rest)

/-- `TAG.EXT`: the extension octet decides. -/
def execTagExt (c : Bool) (lv : BitVec 3) (s : State) : Host.Outcome State Fault Refusal :=
  .next (s.wireCommand (wireExt hw c lv))

end Sys2Proof.Machine
end

