-- ==== Sys2Proof/Machine/Dispatch.lean ====
section
/-! DEFINITION. Which definition gives each instruction its meaning. -/

namespace Sys2Proof.Machine

def exec (i : Instr) (s : State) : Host.Outcome State Fault Refusal :=
  match i with
  | .nop => Sys2Proof.Machine.execNop s
  | .oclr => Sys2Proof.Machine.execOclr s
  | .iclr => Sys2Proof.Machine.execIclr s
  | .iload data => Sys2Proof.Machine.execIload data s
  | .encTag tn flags lv => Sys2Proof.Machine.execEncTag tn flags lv s
  | .decTag => Sys2Proof.Machine.execDecTag s
  | .encUint v => Sys2Proof.Machine.execEncUint v s
  | .encSint v => Sys2Proof.Machine.execEncSint v s
  | .encReal v => Sys2Proof.Machine.execEncReal v s
  | .encDbl v => Sys2Proof.Machine.execEncDbl v s
  | .encStr data => Sys2Proof.Machine.execEncStr data s
  | .encDate year month day dow => Sys2Proof.Machine.execEncDate year month day dow s
  | .encTime hour minute second ms => Sys2Proof.Machine.execEncTime hour minute second ms s
  | .encOid type inst => Sys2Proof.Machine.execEncOid type inst s
  | .decUint n => Sys2Proof.Machine.execDecUint n s
  | .decSint n => Sys2Proof.Machine.execDecSint n s
  | .decReal => Sys2Proof.Machine.execDecReal s
  | .decDbl => Sys2Proof.Machine.execDecDbl s
  | .decStr n => Sys2Proof.Machine.execDecStr n s
  | .decDate => Sys2Proof.Machine.execDecDate s
  | .decTime => Sys2Proof.Machine.execDecTime s
  | .decOid => Sys2Proof.Machine.execDecOid s
  | .appNull => Sys2Proof.Machine.execAppNull s
  | .appBool b => Sys2Proof.Machine.execAppBool b s
  | .appUint v => Sys2Proof.Machine.execAppUint v s
  | .appSint v => Sys2Proof.Machine.execAppSint v s
  | .appReal v => Sys2Proof.Machine.execAppReal v s
  | .appDbl v => Sys2Proof.Machine.execAppDbl v s
  | .appOctstr data => Sys2Proof.Machine.execAppOctstr data s
  | .appStr data => Sys2Proof.Machine.execAppStr data s
  | .appBitstr data => Sys2Proof.Machine.execAppBitstr data s
  | .appEnum v => Sys2Proof.Machine.execAppEnum v s
  | .appDate year month day dow => Sys2Proof.Machine.execAppDate year month day dow s
  | .appTime hour minute second ms => Sys2Proof.Machine.execAppTime hour minute second ms s
  | .appOid type inst => Sys2Proof.Machine.execAppOid type inst s
  | .decAny => Sys2Proof.Machine.execDecAny s
  | .encNpdu flags hop mtype vendor dnet dadr snet sadr => Sys2Proof.Machine.execEncNpdu flags hop mtype vendor dnet dadr snet sadr s
  | .encSeg maxsegs maxapdu => Sys2Proof.Machine.execEncSeg maxsegs maxapdu s
  | .tagNull c lv => Sys2Proof.Machine.execTagNull c lv s
  | .tagBool c lv => Sys2Proof.Machine.execTagBool c lv s
  | .tagUint c lv => Sys2Proof.Machine.execTagUint c lv s
  | .tagSint c lv => Sys2Proof.Machine.execTagSint c lv s
  | .tagReal c lv => Sys2Proof.Machine.execTagReal c lv s
  | .tagDbl c lv => Sys2Proof.Machine.execTagDbl c lv s
  | .tagOctstr c lv => Sys2Proof.Machine.execTagOctstr c lv s
  | .tagStr c lv => Sys2Proof.Machine.execTagStr c lv s
  | .tagBitstr c lv => Sys2Proof.Machine.execTagBitstr c lv s
  | .tagEnum c lv => Sys2Proof.Machine.execTagEnum c lv s
  | .tagDate c lv => Sys2Proof.Machine.execTagDate c lv s
  | .tagTime c lv => Sys2Proof.Machine.execTagTime c lv s
  | .tagOid c lv => Sys2Proof.Machine.execTagOid c lv s
  | .tagRsvd13 c lv => Sys2Proof.Machine.execTagRsvd13 c lv s
  | .tagRsvd14 c lv => Sys2Proof.Machine.execTagRsvd14 c lv s
  | .tagExt c lv => Sys2Proof.Machine.execTagExt c lv s

end Sys2Proof.Machine
end

