-- ==== Sys2Proof/Machine/Step.lean ====
section
/-! DEFINITION. One step of the block (R240), and where a table word is placed to be the next instruction. -/

namespace Sys2Proof.Machine

/-- The step of R240: a halted block discards what is pushed (R243 step 1); else the next complete command is removed
from the stream and executed, a reserved opcode halts the block (R84), and where no complete command has arrived the
block waits. -/
def step (s : State) : Host.Outcome State Fault Refusal :=
  if s.halt then .next s.discardStream
  else
    match s.fetch with
    | .done i rest => exec i (s.setStream rest)
    | .wait => .next s.waitForHost
    | .reserved _ => .next s.badCommand

/-- The state in which the next step runs the instruction of a table word (log 7). A command is put at the front of the
command stream. A wire-tag row runs as part of `DEC_ANY`: the word's octets become the loaded input, as `ILOAD` loads
them, and `DEC_ANY` is put at the front of the stream. `HALT` is left as it is: a halted block runs nothing. -/
def State.withFetchWord (s : State) (nbits w : Nat) : State :=
  match tableCommand nbits w with
  | some bs => s.setStream (bs ++ s.stream)
  | none =>
    (s.setDec (Memory.writeAll s.ibuf 0 (tableWireOctets nbits w))
      (BitVec.ofNat 16 (tableWireOctets nbits w).length) 0 0).setStream (encode .decAny ++ s.stream)

end Sys2Proof.Machine
end

