-- ==== Sys2Proof/Machine/Pseudo.lean ====
section
/-! DEFINITION. The pseudo-instructions of R87: each expands to commands; the block knows nothing of them. -/

namespace Sys2Proof.Machine

/-- `CTX_UINT tn, v`. -/
def ctxUint (tn : Byte) (v : Word) : List Instr := [.encTag tn 1 (BitVec.ofNat 32 (ulen v.toNat)), .encUint v]

/-- `CTX_ENUM tn, v`: the same as `CTX_UINT`. -/
def ctxEnum (tn : Byte) (v : Word) : List Instr := ctxUint tn v

/-- `CTX_SINT tn, v`. -/
def ctxSint (tn : Byte) (v : Word) : List Instr :=
  [.encTag tn 1 (BitVec.ofNat 32 (slen (signedReading v))), .encSint v]

/-- `CTX_REAL tn, v`. -/
def ctxReal (tn : Byte) (v : Word) : List Instr := [.encTag tn 1 4, .encReal v]

/-- `CTX_OID tn, type, inst`. -/
def ctxOid (tn : Byte) (type : Half) (inst : Word) : List Instr := [.encTag tn 1 4, .encOid type inst]

/-- `CTX_STR tn, data`. -/
def ctxStr (tn : Byte) (data : List Byte) : List Instr := [.encTag tn 1 (BitVec.ofNat 32 data.length), .encStr data]

/-- `SKIP n`. -/
def skip (n : Word) : List Instr := [.decStr n]

/-- `RD8`. -/
def rd8 : List Instr := [.decUint 1]

/-- `RD16`. -/
def rd16 : List Instr := [.decUint 2]

/-- `RD32`. -/
def rd32 : List Instr := [.decUint 4]

end Sys2Proof.Machine
end

