-- ==== Sys2Proof/Machine/HostPort.lean ====
section
/-! DEFINITION. The host actions of R104 to R108, performed between commands: they are not commands, have no opcode and
write no result register. A refused action answers none. -/

namespace Sys2Proof.Machine

/-- `HostReadOut` (R104): the octets encoded so far, refused while `WERR` is set. -/
def State.readOut (s : State) : Option (List Byte) :=
  if s.werr = 0 then some (Memory.readAll s.obuf 0 s.wpos.toNat) else none

/-- `HostPeekIn(off, n)` (R105): octets of the loaded input, refused beyond `ILEN`. -/
def State.peekIn (s : State) (off n : Nat) : Option (List Byte) :=
  if off + n ≤ s.ilen.toNat then some (Memory.readAll s.ibuf off n) else none

/-- `HostReadReg(k)` (R106): the register of that number in R33, zero-extended; refused for any number above 12. -/
def State.readReg (s : State) (k : Nat) : Option Long :=
  match k with
  | 0 => some (s.st.setWidth 64)
  | 1 => some (s.rk.setWidth 64)
  | 2 => some (s.rt.setWidth 64)
  | 3 => some ((BitVec.ofBool s.rc).setWidth 64)
  | 4 => some (s.rl.setWidth 64)
  | 5 => some s.rv
  | 6 => some (s.rn.setWidth 64)
  | 7 => some (s.rpos.setWidth 64)
  | 8 => some (s.ilen.setWidth 64)
  | 9 => some (s.rerr.setWidth 64)
  | 10 => some (s.wpos.setWidth 64)
  | 11 => some (s.werr.setWidth 64)
  | 12 => some ((BitVec.ofBool s.halt).setWidth 64)
  | _ => none

/-- `HostPushCmd(bs)` (R107): the octets join the end of the command stream; while `HALT` is set they are discarded
(R28). -/
def State.pushCmd (s : State) (bs : List Byte) : State := if s.halt then s else s.setStream (s.stream ++ bs)

/-- `HostReset` (R108, R270): the reset state, whatever the state was (log 5). -/
def State.hostReset (_s : State) : State := State.reset

end Sys2Proof.Machine
end

