-- ==== Sys2Proof/Safety.lean ====
section
/-! DEFINITION. The terms claims are stated in: the invariants of R36 and R33, the halves of the state (R58), what a host
can observe, and what an encode, a decode and a fault do to a state. -/

namespace Sys2Proof.Safety

open Machine

/-! ## Invariants -/

/-- The invariants of R36. -/
structure Inv (s : State) : Prop where
  ilen : s.ilen.toNat ≤ hw.ibufCap
  rpos : s.rpos.toNat ≤ s.ilen.toNat
  wpos : s.wpos.toNat ≤ hw.obufCap
  rerr : s.rerr = 0 ∨ s.rerr = 2 ∨ s.rerr = 4 ∨ s.rerr = 5 ∨ s.rerr = 6
  werr : s.werr = 0 ∨ s.werr = 3 ∨ s.werr = 6
  st : s.st.toNat ≤ 7
  rk : s.rk.toNat ≤ 12
  halt : s.halt = true → s.st = 7

/-- The ranges of R33 that R36 does not name: a tag number of 0..254, and a count within the reach of a buffer. -/
structure ResultRanges (s : State) : Prop where
  rt : s.rt.toNat ≤ 254
  rn : s.rn.toNat ≤ 65535

/-- Both buffers are in canonical form and list no index outside their capacity (R50). -/
structure MemoryInv (s : State) : Prop where
  ibuf : Memory.wf s.ibuf = true
  obuf : Memory.wf s.obuf = true
  ibufCap : ∀ p ∈ s.ibuf, p.1 < hw.ibufCap
  obufCap : ∀ p ∈ s.obuf, p.1 < hw.obufCap

/-! ## Parts of the state -/

/-- The seven result registers as one value (R29). -/
def results (s : State) : Results :=
  { st := s.st, rk := s.rk, rt := s.rt, rc := s.rc, rl := s.rl, rv := s.rv, rn := s.rn }

/-- Two memories that read alike at every index. -/
def SameOctets (m m' : Memory) : Prop := ∀ a, Memory.read m' a = Memory.read m a

/-- The encode half {`OBUF`, `WPOS`, `WERR`} of R58 is the same. -/
structure SameEncodeHalf (s t : State) : Prop where
  obuf : SameOctets s.obuf t.obuf
  wpos : t.wpos = s.wpos
  werr : t.werr = s.werr

/-- The decode half {`IBUF`, `ILEN`, `RPOS`, `RERR`} of R58 is the same. -/
structure SameDecodeHalf (s t : State) : Prop where
  ibuf : SameOctets s.ibuf t.ibuf
  ilen : t.ilen = s.ilen
  rpos : t.rpos = s.rpos
  rerr : t.rerr = s.rerr

/-- `HALT` and the command stream, which no command in the opcode table writes. -/
structure SameControl (s t : State) : Prop where
  halt : t.halt = s.halt
  stream : t.stream = s.stream

/-- Everything but the result registers is the same. -/
structure SameButResults (s t : State) : Prop where
  enc : SameEncodeHalf s t
  dec : SameDecodeHalf s t
  control : SameControl s t

/-- What commands and host actions can observe is the same: every register, the stream, and the octets of the defined
regions `IBUF[0..ILEN)` and `OBUF[0..WPOS)` (R21, R25, R60, U22). -/
structure SameObservable (s t : State) : Prop where
  results : results t = results s
  ilen : t.ilen = s.ilen
  rpos : t.rpos = s.rpos
  rerr : t.rerr = s.rerr
  wpos : t.wpos = s.wpos
  werr : t.werr = s.werr
  control : SameControl s t
  ibuf : ∀ a, a < s.ilen.toNat → Memory.read t.ibuf a = Memory.read s.ibuf a
  obuf : ∀ a, a < s.wpos.toNat → Memory.read t.obuf a = Memory.read s.obuf a

/-! ## Effects -/

/-- No command of class ENC is held back: the block is not halted and no write error sticks (R243). `OBUF` is in its
canonical form, which every step keeps (`EveryStepKeepsTheMemoryCanonical`). -/
structure EncReady (s : State) : Prop where
  halt : s.halt = false
  werr : s.werr = 0
  obuf : Memory.wf s.obuf = true

/-- No command of class DEC is held back: the block is not halted and no read error sticks (R243). -/
structure DecReady (s : State) : Prop where
  halt : s.halt = false
  rerr : s.rerr = 0

/-- `out` fits into `OBUF` at the write cursor (R54). -/
def Fits (out : List Byte) (s : State) : Prop := s.wpos.toNat + out.length ≤ hw.obufCap

/-- The octets `out` were appended at the write cursor, and the result registers took `r` (R54): octet `k` of `out`
stands at `WPOS + k`, every other octet of `OBUF` and everything else is as it was. -/
structure Appended (out : List Byte) (r : Results) (s t : State) : Prop where
  written : ∀ k (h : k < out.length), Memory.read t.obuf (s.wpos.toNat + k) = out[k]
  others : ∀ a, a < s.wpos.toNat ∨ s.wpos.toNat + out.length ≤ a → Memory.read t.obuf a = Memory.read s.obuf a
  wpos : t.wpos.toNat = s.wpos.toNat + out.length
  werr : t.werr = s.werr
  results : results t = r
  dec : SameDecodeHalf s t
  control : SameControl s t

/-- The cursor moved over `n` octets, and the result registers took `r` (R53): everything else is as it was. -/
structure Consumed (n : Nat) (r : Results) (s t : State) : Prop where
  rpos : t.rpos.toNat = s.rpos.toNat + n
  ibuf : SameOctets s.ibuf t.ibuf
  ilen : t.ilen = s.ilen
  rerr : t.rerr = s.rerr
  results : results t = r
  enc : SameEncodeHalf s t
  control : SameControl s t

/-- A command of class ENC raised `e` (R244): the status is in `ST` and `WERR`, the other result registers are 0, and
everything else is as it was. -/
structure RaisedEnc (e : Status) (s t : State) : Prop where
  results : results t = { st := e.code }
  werr : t.werr = e.code
  obuf : SameOctets s.obuf t.obuf
  wpos : t.wpos = s.wpos
  dec : SameDecodeHalf s t
  control : SameControl s t

/-- A command of class DEC raised `e` (R244): the status is in `ST` and `RERR`, the other result registers are 0, and
everything else is as it was. -/
structure RaisedDec (e : Status) (s t : State) : Prop where
  results : results t = { st := e.code }
  rerr : t.rerr = e.code
  ibuf : SameOctets s.ibuf t.ibuf
  ilen : t.ilen = s.ilen
  rpos : t.rpos = s.rpos
  enc : SameEncodeHalf s t
  control : SameControl s t

/-- The status was reported and nothing else changed: the other result registers are 0 (R243 steps 4 and 5, R226). -/
structure Reported (code : BitVec 4) (s t : State) : Prop where
  results : results t = { st := code }
  same : SameButResults s t

/-- What an instruction answers when it runs: a next state with the property `P`. -/
def Answers (i : Instr) (s : State) (P : State → Prop) : Prop := ∃ t, exec i s = .next t ∧ P t

/-- An ENC command that has the octets `out` to append and the results `r`: it appends them where they fit, and raises
BufferOverflow where they do not (R54). -/
structure Emits (i : Instr) (s : State) (out : List Byte) (r : Results) : Prop where
  fits : Fits out s → Answers i s (Appended out { r with rn := BitVec.ofNat 32 out.length } s)
  overflow : ¬ Fits out s → Answers i s (RaisedEnc .bufferOverflow s)

/-- The octets of the input buffer from the read cursor on, up to `ILEN` (R53). -/
def unreadCount (s : State) : Nat := s.ilen.toNat - s.rpos.toNat

/-- `k` octets of the input buffer at `off` octets past the read cursor. -/
def inputAt (s : State) (off k : Nat) : List Byte := Memory.readAll s.ibuf (s.rpos.toNat + off) k

/-- A DEC command that needs `n` octets and gives the results `r`: it consumes them where they are there, and raises
InsufficientBytes where they are not (R53). -/
structure Reads (i : Instr) (s : State) (n : Nat) (r : Results) : Prop where
  enough : n ≤ unreadCount s → Answers i s (Consumed n { r with rn := BitVec.ofNat 32 n } s)
  short : unreadCount s < n → Answers i s (RaisedDec .insufficientBytes s)

/-- A decode helper's answer, as the state after it: what it gives is consumed, what it fails with is raised (R53,
R244). -/
def Decodes (i : Instr) (s : State) (d : Except Status Decoded) : Prop :=
  match d with
  | .ok d => Answers i s (Consumed d.n { d.res with rn := BitVec.ofNat 32 d.n } s)
  | .error e => Answers i s (RaisedDec e s)

/-! ## Headers and values in the input buffer -/

/-- The octet of the input buffer at `off` octets past the read cursor. -/
def octetAt (s : State) (off : Nat) : Byte := Memory.read s.ibuf (s.rpos.toNat + off)

/-- The length part of a header (R70, R72, R113): with `lv` in the first octet and the octets from `off` on, the
lengthOrValue is `L` and its extension takes `m` octets, all of them unread. -/
def LengthField (s : State) (off lv L m : Nat) : Prop :=
  off + m ≤ unreadCount s ∧
    ((lv ≠ 5 ∧ L = lv ∧ m = 0)
      ∨ (lv = 5 ∧ (octetAt s off).toNat < 0xFE ∧ L = (octetAt s off).toNat ∧ m = 1)
      ∨ (lv = 5 ∧ octetAt s off = 0xFE ∧ L = beVal (inputAt s (off + 1) 2) ∧ m = 3)
      ∨ (lv = 5 ∧ octetAt s off = 0xFF ∧ L = beVal (inputAt s (off + 1) 4) ∧ m = 5))

/-- The length part of a header promises octets that are not there (R113). -/
def LengthCut (s : State) (off lv : Nat) : Prop :=
  lv = 5 ∧ (unreadCount s < off + 1 ∨ (octetAt s off = 0xFE ∧ unreadCount s < off + 3)
    ∨ (octetAt s off = 0xFF ∧ unreadCount s < off + 5))

/-- A whole header of `n` octets stands at the read cursor: tag number `t`, class bit `c`, lengthOrValue `L` (R70,
R113). -/
def HeaderAt (s : State) (t : Nat) (c : Bool) (L n : Nat) : Prop :=
  1 ≤ unreadCount s ∧ c = (octetAt s 0).getLsbD 3 ∧
    ∃ m, ((octetAt s 0).toNat / 16 ≠ 15 ∧ t = (octetAt s 0).toNat / 16 ∧ n = 1 + m
          ∧ LengthField s 1 ((octetAt s 0).toNat % 8) L m)
      ∨ ((octetAt s 0).toNat / 16 = 15 ∧ t = (octetAt s 1).toNat ∧ t ≠ 255 ∧ n = 2 + m
          ∧ LengthField s 2 ((octetAt s 0).toNat % 8) L m)

/-- The octets at the read cursor begin a header that R113 calls malformed: an extension that is not there, or the
reserved tag number 255. -/
def HeaderCut (s : State) : Prop :=
  1 ≤ unreadCount s ∧
    (((octetAt s 0).toNat / 16 ≠ 15 ∧ LengthCut s 1 ((octetAt s 0).toNat % 8))
      ∨ ((octetAt s 0).toNat / 16 = 15
          ∧ (unreadCount s < 2 ∨ octetAt s 1 = 255 ∨ LengthCut s 2 ((octetAt s 0).toNat % 8))))

/-- The unsigned number of `k` octets, as `RV` holds it (R29). -/
def uintAt (s : State) (off k : Nat) : Long := BitVec.ofNat 64 (beVal (inputAt s off k))

/-- The two's-complement number of `k` octets, as `RV` holds it (R29, R135): `k` octets are sign-extended. -/
def sintAt (s : State) (off k : Nat) : Long := (BitVec.ofNat (8 * k) (beVal (inputAt s off k))).signExtend 64

/-- The date of four octets, as `RV` holds it (R29, R159): year in bits [39:24], the octet 0xFF standing for the
sentinel 255 and any other for its sum with the year base. -/
def dateAt (s : State) (off : Nat) : Long :=
  BitVec.ofNat 64
    ((if octetAt s off = 0xFF then 255 else (octetAt s off).toNat + hw.yearBase) * 2 ^ 24
      + (octetAt s (off + 1)).toNat * 2 ^ 16 + (octetAt s (off + 2)).toNat * 2 ^ 8 + (octetAt s (off + 3)).toNat)

/-- The time of four octets, as `RV` holds it (R29, R162): the last octet counts centiseconds. -/
def timeAt (s : State) (off : Nat) : Long :=
  BitVec.ofNat 64
    ((octetAt s off).toNat * 2 ^ 32 + (octetAt s (off + 1)).toNat * 2 ^ 24 + (octetAt s (off + 2)).toNat * 2 ^ 16
      + (octetAt s (off + 3)).toNat * 10)

/-- The results of a decoded value of kind `k` (R196): NullValue for null, else OK; kind, tag number, class bit and
lengthOrValue; and the value. -/
def valueResults (k : Kind) (t : Nat) (c : Bool) (L : Nat) (rv : Long) : Results where
  st := if k = .null then 1 else 0
  rk := BitVec.ofNat 4 k.code
  rt := BitVec.ofNat 8 t
  rc := c
  rl := BitVec.ofNat 32 L
  rv := rv

/-- What `i` does with a value of kind `k` whose header of `n` octets, with tag number `t`, class bit `c` and
lengthOrValue `L`, stands at the read cursor (R195, R196). -/
def DecodesKind (i : Instr) (s : State) (k : Kind) (t : Nat) (c : Bool) (L n : Nat) : Prop :=
  match k with
  | .null => Reads i s n (valueResults k t c L 0)
  | .boolean => Reads i s n (valueResults k t c L (if L = 0 then 0 else 1))
  | .unsigned =>
    if 4 < L then Answers i s (RaisedDec .malformedTag s) else Reads i s (n + L) (valueResults k t c L (uintAt s n L))
  | .enumerated =>
    if 4 < L then Answers i s (RaisedDec .malformedTag s) else Reads i s (n + L) (valueResults k t c L (uintAt s n L))
  | .signed =>
    if 4 < L then Answers i s (RaisedDec .malformedTag s) else Reads i s (n + L) (valueResults k t c L (sintAt s n L))
  | .real => Reads i s (n + 4) (valueResults k t c L (uintAt s n 4))
  | .double => Reads i s (n + 8) (valueResults k t c L (uintAt s n 8))
  | .characterString => Reads i s (n + L) (valueResults k t c L (BitVec.ofNat 64 (s.rpos.toNat + n)))
  | .date => Reads i s (n + 4) (valueResults k t c L (dateAt s n))
  | .time => Reads i s (n + 4) (valueResults k t c L (timeAt s n))
  | .objectIdentifier => Reads i s (n + 4) (valueResults k t c L (uintAt s n 4))
  | .octetString => Answers i s (RaisedDec .unsupportedTag s)
  | .bitString => Answers i s (RaisedDec .unsupportedTag s)

/-! ## Tables and runs -/

/-- The parts of a wire-tag row's octet (R90): bits 7:4, the class bit and `lv`. None for a command. -/
def rowParts : Instr → Option (Nat × Bool × Nat)
  | .tagNull c lv => some (0, c, lv.toNat)
  | .tagBool c lv => some (1, c, lv.toNat)
  | .tagUint c lv => some (2, c, lv.toNat)
  | .tagSint c lv => some (3, c, lv.toNat)
  | .tagReal c lv => some (4, c, lv.toNat)
  | .tagDbl c lv => some (5, c, lv.toNat)
  | .tagOctstr c lv => some (6, c, lv.toNat)
  | .tagStr c lv => some (7, c, lv.toNat)
  | .tagBitstr c lv => some (8, c, lv.toNat)
  | .tagEnum c lv => some (9, c, lv.toNat)
  | .tagDate c lv => some (10, c, lv.toNat)
  | .tagTime c lv => some (11, c, lv.toNat)
  | .tagOid c lv => some (12, c, lv.toNat)
  | .tagRsvd13 c lv => some (13, c, lv.toNat)
  | .tagRsvd14 c lv => some (14, c, lv.toNat)
  | .tagExt c lv => some (15, c, lv.toNat)
  | .nop => none
  | .oclr => none
  | .iclr => none
  | .iload _ => none
  | .encTag _ _ _ => none
  | .decTag => none
  | .encUint _ => none
  | .encSint _ => none
  | .encReal _ => none
  | .encDbl _ => none
  | .encStr _ => none
  | .encDate _ _ _ _ => none
  | .encTime _ _ _ _ => none
  | .encOid _ _ => none
  | .decUint _ => none
  | .decSint _ => none
  | .decReal => none
  | .decDbl => none
  | .decStr _ => none
  | .decDate => none
  | .decTime => none
  | .decOid => none
  | .appNull => none
  | .appBool _ => none
  | .appUint _ => none
  | .appSint _ => none
  | .appReal _ => none
  | .appDbl _ => none
  | .appOctstr _ => none
  | .appStr _ => none
  | .appBitstr _ => none
  | .appEnum _ => none
  | .appDate _ _ _ _ => none
  | .appTime _ _ _ _ => none
  | .appOid _ _ => none
  | .decAny => none
  | .encNpdu _ _ _ _ _ _ _ _ => none
  | .encSeg _ _ => none

/-- `hi` is the max-segments bucket of R225: the least `hi` in 0..5 with `maxsegs < 2^(hi+1)`, else 6 for 64 and 7 beyond. -/
def SegHighBucket (maxsegs hi : Nat) : Prop :=
  (hi ≤ 5 ∧ maxsegs < 2 ^ (hi + 1) ∧ (hi = 0 ∨ 2 ^ hi ≤ maxsegs)) ∨ (hi = 6 ∧ maxsegs = 64) ∨ (hi = 7 ∧ 64 < maxsegs)

/-- `lo` is the max-APDU bucket of R225. -/
def SegLowBucket (maxapdu lo : Nat) : Prop :=
  (lo = 0 ∧ maxapdu ≤ 50) ∨ (lo = 1 ∧ 50 < maxapdu ∧ maxapdu ≤ 128) ∨ (lo = 2 ∧ 128 < maxapdu ∧ maxapdu ≤ 206)
    ∨ (lo = 3 ∧ 206 < maxapdu ∧ maxapdu ≤ 480) ∨ (lo = 4 ∧ 480 < maxapdu ∧ maxapdu ≤ 1024)
    ∨ (lo = 5 ∧ 1024 < maxapdu ∧ maxapdu ≤ 1476)

/-- The supported kind whose `APP_` command an instruction is (R180); none for every other instruction. -/
def appKind : Instr → Option Kind
  | .nop => none
  | .oclr => none
  | .iclr => none
  | .iload _ => none
  | .encTag _ _ _ => none
  | .decTag => none
  | .encUint _ => none
  | .encSint _ => none
  | .encReal _ => none
  | .encDbl _ => none
  | .encStr _ => none
  | .encDate _ _ _ _ => none
  | .encTime _ _ _ _ => none
  | .encOid _ _ => none
  | .decUint _ => none
  | .decSint _ => none
  | .decReal => none
  | .decDbl => none
  | .decStr _ => none
  | .decDate => none
  | .decTime => none
  | .decOid => none
  | .appNull => some .null
  | .appBool _ => some .boolean
  | .appUint _ => some .unsigned
  | .appSint _ => some .signed
  | .appReal _ => some .real
  | .appDbl _ => some .double
  | .appOctstr _ => none
  | .appStr _ => some .characterString
  | .appBitstr _ => none
  | .appEnum _ => some .enumerated
  | .appDate _ _ _ _ => some .date
  | .appTime _ _ _ _ => some .time
  | .appOid _ _ => some .objectIdentifier
  | .decAny => none
  | .encNpdu _ _ _ _ _ _ _ _ => none
  | .encSeg _ _ => none
  | .tagNull _ _ => none
  | .tagBool _ _ => none
  | .tagUint _ _ => none
  | .tagSint _ _ => none
  | .tagReal _ _ => none
  | .tagDbl _ _ => none
  | .tagOctstr _ _ => none
  | .tagStr _ _ => none
  | .tagBitstr _ _ => none
  | .tagEnum _ _ => none
  | .tagDate _ _ => none
  | .tagTime _ _ => none
  | .tagOid _ _ => none
  | .tagRsvd13 _ _ => none
  | .tagRsvd14 _ _ => none
  | .tagExt _ _ => none

/-- The opcodes R84 reserves. -/
def ReservedOpcode (op : Byte) : Prop :=
  (0x04 ≤ op ∧ op ≤ 0x0F) ∨ (0x12 ≤ op ∧ op ≤ 0x1F) ∨ (0x28 ≤ op ∧ op ≤ 0x2F) ∨ (0x38 ≤ op ∧ op ≤ 0x3F)
    ∨ (0x4D ≤ op ∧ op ≤ 0x4F) ∨ (0x51 ≤ op ∧ op ≤ 0x5F) ∨ (0x61 ≤ op ∧ op ≤ 0x6F) ∨ 0x71 ≤ op

/-- The statuses each command can end with when it is not held back (R254); `NOP` leaves `ST` and has none of its own. A
wire-tag row ends as the `DEC_ANY` it is part of. -/
def possibleStatus : Instr → List (BitVec 4)
  | .nop => []
  | .oclr => [0]
  | .iclr => [0]
  | .iload _ => [0, 6]
  | .encTag _ _ _ => [0, 3, 6]
  | .decTag => [0, 2, 5]
  | .encUint _ => [0, 6]
  | .encSint _ => [0, 6]
  | .encReal _ => [0, 6]
  | .encDbl _ => [0, 6]
  | .encStr _ => [0, 6]
  | .encDate _ _ _ _ => [0, 3, 6]
  | .encTime _ _ _ _ => [0, 3, 6]
  | .encOid _ _ => [0, 3, 6]
  | .decUint _ => [0, 2, 5]
  | .decSint _ => [0, 2, 5]
  | .decReal => [0, 5]
  | .decDbl => [0, 5]
  | .decStr _ => [0, 5]
  | .decDate => [0, 5]
  | .decTime => [0, 5]
  | .decOid => [0, 5]
  | .appNull => [0, 6]
  | .appBool _ => [0, 3, 6]
  | .appUint _ => [0, 6]
  | .appSint _ => [0, 6]
  | .appReal _ => [0, 6]
  | .appDbl _ => [0, 6]
  | .appOctstr _ => [3]
  | .appStr _ => [0, 6]
  | .appBitstr _ => [3]
  | .appEnum _ => [0, 6]
  | .appDate _ _ _ _ => [0, 3, 6]
  | .appTime _ _ _ _ => [0, 3, 6]
  | .appOid _ _ => [0, 3, 6]
  | .decAny => [0, 1, 2, 4, 5]
  | .encNpdu _ _ _ _ _ _ _ _ => [0, 3, 6]
  | .encSeg _ _ => [0, 3]
  | .tagNull _ _ => [0, 1, 2, 4, 5]
  | .tagBool _ _ => [0, 1, 2, 4, 5]
  | .tagUint _ _ => [0, 1, 2, 4, 5]
  | .tagSint _ _ => [0, 1, 2, 4, 5]
  | .tagReal _ _ => [0, 1, 2, 4, 5]
  | .tagDbl _ _ => [0, 1, 2, 4, 5]
  | .tagOctstr _ _ => [0, 1, 2, 4, 5]
  | .tagStr _ _ => [0, 1, 2, 4, 5]
  | .tagBitstr _ _ => [0, 1, 2, 4, 5]
  | .tagEnum _ _ => [0, 1, 2, 4, 5]
  | .tagDate _ _ => [0, 1, 2, 4, 5]
  | .tagTime _ _ => [0, 1, 2, 4, 5]
  | .tagOid _ _ => [0, 1, 2, 4, 5]
  | .tagRsvd13 _ _ => [0, 1, 2, 4, 5]
  | .tagRsvd14 _ _ => [0, 1, 2, 4, 5]
  | .tagExt _ _ => [0, 1, 2, 4, 5]

/-- The state after a list of commands, executed in order (R56), where each answers a next state. -/
def runCommands : List Instr → State → Option State
  | [], s => some s
  | i :: is, s =>
    match exec i s with
    | .next t => runCommands is t
    | .fault _ => none
    | .refused _ => none

/-- The defined region `OBUF[0..WPOS)` (R25). -/
def output (s : State) : List Byte := Memory.readAll s.obuf 0 s.wpos.toNat

/-- The octets `out` were appended by one or more commands: the write cursor and `OBUF` are as after one append of them
all, and no error is latched. -/
structure AppendedByRun (out : List Byte) (s t : State) : Prop where
  output : output t = output s ++ out
  wpos : t.wpos.toNat = s.wpos.toNat + out.length
  werr : t.werr = s.werr
  dec : SameDecodeHalf s t
  control : SameControl s t

end Sys2Proof.Safety
end

