-- ==== Sys2Proof/Certificates/Slice0/Obligations.lean ====
section
/-! DEFINITION. The statements for the provers. Each docstring names the rules of spec/ it formalises; the terms are those
of Sys2Proof/Safety.lean. -/

open Sys2Proof Sys2Proof.Machine Sys2Proof.Safety

/-! ## Encodings and the command stream -/

/-- R80 to R83: the decoder reads every command's encoding back, whatever follows it. Only an operand string that its
length field cannot count has no encoding. -/
def Obligations.DecodeReadsBackEveryEncodedCommand : Prop :=
  ∀ (i : Instr) (rest : List Byte), i.isWireTag = false → i.wellFormed = true → decode (encode i ++ rest) = .done i rest

/-- R80 to R83: what the decoder reads is a well-formed command, and its encoding is the octets read. -/
def Obligations.EncodeWritesBackEveryDecodedCommand : Prop :=
  ∀ (bs : List Byte) (i : Instr) (rest : List Byte), decode bs = .done i rest →
    bs = encode i ++ rest ∧ i.wellFormed = true ∧ i.isWireTag = false

/-- R81, R85: a command is complete exactly when as many octets have arrived as its format and its length fields say,
and then exactly those are taken. -/
def Obligations.CommandLengthGovernsTheParser : Prop :=
  ∀ bs : List Byte,
    (∀ n, commandLength bs = some n → n ≤ bs.length → ∃ i, decode bs = .done i (bs.drop n))
    ∧ (∀ n, commandLength bs = some n → bs.length < n → decode bs = .wait)
    ∧ (commandLength bs = none → decode bs = .wait ∨ ∃ op, decode bs = .reserved op)

/-- R84: exactly the opcodes it lists are illegal, and meeting one halts the block with BadCommand, changes nothing else
and drops the octet and everything after it, until reset. -/
def Obligations.ReservedOpcodeHaltsTheBlock : Prop :=
  (∀ op : Byte, ReservedOpcode op ↔ ∀ r, decode (op :: r) = .reserved op)
  ∧ ∀ (s : State) (op : Byte) (rest : List Byte), s.halt = false → ReservedOpcode op → s.stream = op :: rest →
      ∃ t, step s = .next t ∧ t.halt = true ∧ results t = { st := 7 } ∧ t.stream = []
        ∧ SameEncodeHalf s t ∧ SameDecodeHalf s t
        ∧ (∀ bs, t.pushCmd bs = t) ∧ step t = .next t

/-- R83 and the examples of the command rules: words written out by hand decode to the commands they stand for. -/
def Obligations.SpecEncodingsDecode : Prop :=
  decode [0x10, 0x64, 0x00, 0x00, 0x00, 0x00, 0xFE] = .done (.encTag 100 0 254) []
  ∧ decode [0x21, 0xFF, 0xFF, 0xFF, 0x7F] = .done (.encSint 0xFFFFFF7F) []
  ∧ decode [0x25, 0x07, 0xE8, 0x01, 0x18, 0x03] = .done (.encDate 2024 1 24 3) []
  ∧ decode [0x03, 0x00, 0x02, 0x21, 0x7F, 0x50] = .done (.iload [0x21, 0x7F]) [0x50]
  ∧ decode [0x4C, 0x00, 0x08, 0x00, 0x00, 0x00, 0x0C] = .done (.appOid 8 12) []
  ∧ decode [0x60, 0x04, 0xFF, 0x00, 0x00, 0x00, 0x00, 0x00, 0x00, 0x00, 0x00, 0x00]
      = .done (.encNpdu 0x04 255 0 0 0 [] 0 []) []
  ∧ decode [0x70, 0x00, 0x40, 0x05, 0xC4] = .done (.encSeg 64 1476) []
  ∧ decode [0x71] = .reserved 0x71

/-- R70, R90: every octet is the first octet of one wire-tag row and of no other. -/
def Obligations.WireTagOctetsRoundTrip : Prop :=
  (∀ b : Byte, (decodeWireTag b).isWireTag = true ∧ encode (decodeWireTag b) = [b])
  ∧ ∀ i : Instr, i.isWireTag = true → ∃ b, encode i = [b] ∧ decodeWireTag b = i

/-- R240: where the front of the stream holds a complete command, the step removes it and executes it. -/
def Obligations.StepRunsTheDecodedCommand : Prop :=
  ∀ (s : State) (i : Instr) (rest : List Byte), s.halt = false → decode s.stream = .done i rest →
    step s = exec i { s with stream := rest }

/-- R107: pushed octets join the end of the stream; a command may come in pieces, nothing happens until its last octet
is there, and then it is executed; while `HALT` is set pushed octets are discarded. -/
def Obligations.PushedPiecesFormACommand : Prop :=
  (∀ (s : State) (bs : List Byte), s.halt = false → s.pushCmd bs = { s with stream := s.stream ++ bs })
  ∧ (∀ (s : State) (bs : List Byte), s.halt = true → s.pushCmd bs = s)
  ∧ ∀ (s : State) (i : Instr) (front back rest : List Byte), i.isWireTag = false → i.wellFormed = true →
      encode i = front ++ back → back ≠ [] → s.halt = false → s.stream = front →
      step s = .next s ∧ step (s.pushCmd (back ++ rest)) = exec i { s with stream := rest }

/-- R28, R243 step 1, R246: a halted block executes no command, discards what is pushed and keeps all else through any
number of steps; its buffers and registers stay readable, and a reset brings it back. -/
def Obligations.HaltedBlockStaysAsItIs : Prop :=
  ∀ s : State, s.halt = true →
    (∀ i, exec i s = .next s)
    ∧ (∀ bs, s.pushCmd bs = s)
    ∧ (∀ n, Host.Core.run Sys2Proof.core (n + 1) s = .next { s with stream := [] })
    ∧ (s.werr = 0 → ∃ out, s.readOut = some out ∧ out = output s)
    ∧ (s.hostReset).halt = false

/-- R10, R240: every command in every state has a next state, and so has the step that executes one; nothing faults and
nothing is refused. Two parts are the model's and not the rules': R240 gives a block without a complete command no step,
where `step` answers the same state (log 3); and `exec` answers a next state for ill-formed instructions too, which no
octets encode (log 13). -/
def Obligations.EveryCommandInEveryStateHasOneSuccessor : Prop :=
  (∀ (i : Instr) (s : State), ∃ t, exec i s = .next t) ∧ ∀ s : State, ∃ t, step s = .next t

/-! ## State and host actions -/

/-- R35, R108: what reset leaves in every register, whether it is the state a machine starts in or the one `HostReset`
puts it in; the stream is empty; no octet of either buffer can be observed. -/
def Obligations.ResetStateIsTheOneTheSpecGives : Prop :=
  ∀ s t : State, t = State.reset ∨ t = s.hostReset →
    t.ilen = 0 ∧ t.rpos = 0 ∧ t.rerr = 0 ∧ t.wpos = 0 ∧ t.werr = 0 ∧ t.halt = false
    ∧ t.st = 0 ∧ t.rk = 0 ∧ t.rt = 0 ∧ t.rc = false ∧ t.rl = 0 ∧ t.rv = 0 ∧ t.rn = 0
    ∧ t.stream = [] ∧ t.errO = false
    ∧ t.readOut = some []
    ∧ ∀ off n bs, t.peekIn off n = some bs → bs = []

/-- R33, R37, R106: the thirteen registers by number, zero-extended; no other number is a register; and `err_o`. -/
def Obligations.NumberedRegistersAreTheHostsView : Prop :=
  ∀ s : State,
    s.readReg 0 = some (s.st.setWidth 64) ∧ s.readReg 1 = some (s.rk.setWidth 64)
    ∧ s.readReg 2 = some (s.rt.setWidth 64) ∧ s.readReg 3 = some (if s.rc then 1 else 0)
    ∧ s.readReg 4 = some (s.rl.setWidth 64) ∧ s.readReg 5 = some s.rv ∧ s.readReg 6 = some (s.rn.setWidth 64)
    ∧ s.readReg 7 = some (s.rpos.setWidth 64) ∧ s.readReg 8 = some (s.ilen.setWidth 64)
    ∧ s.readReg 9 = some (s.rerr.setWidth 64) ∧ s.readReg 10 = some (s.wpos.setWidth 64)
    ∧ s.readReg 11 = some (s.werr.setWidth 64) ∧ s.readReg 12 = some (if s.halt then 1 else 0)
    ∧ (∀ k, 12 < k → s.readReg k = none)
    ∧ (s.errO = true ↔ s.rerr ≠ 0 ∨ s.werr ≠ 0 ∨ s.halt = true)

/-- R104, R105: the host reads the octets below the write cursor unless a write error sticks, and any octets of the
loaded input; beyond `ILEN` it is refused. -/
def Obligations.HostReadsAnswerTheDefinedRegions : Prop :=
  ∀ s : State,
    (s.werr ≠ 0 → s.readOut = none)
    ∧ (s.werr = 0 → ∃ bs, s.readOut = some bs ∧ bs.length = s.wpos.toNat
        ∧ ∀ k (h : k < bs.length), bs[k] = Memory.read s.obuf k)
    ∧ ∀ off n,
      (s.ilen.toNat < off + n → s.peekIn off n = none)
      ∧ (off + n ≤ s.ilen.toNat → ∃ bs, s.peekIn off n = some bs ∧ bs.length = n
          ∧ ∀ k (h : k < bs.length), bs[k] = Memory.read s.ibuf (off + k))

/-! ## Invariants -/

/-- R36, R50: the reset state satisfies the invariants. -/
def Obligations.ResetSatisfiesEveryInvariant : Prop :=
  Inv State.reset ∧ MemoryInv State.reset ∧ ResultRanges State.reset

/-- R36: a step, a command and every host action keep the invariants of the registers. -/
def Obligations.EveryStepKeepsTheRegisterInvariant : Prop :=
  Inv State.reset ∧
  ∀ s : State, Inv s →
    (∀ t, step s = .next t → Inv t)
    ∧ (∀ i t, exec i s = .next t → Inv t)
    ∧ (∀ bs, Inv (s.pushCmd bs))
    ∧ Inv s.hostReset

/-- R50: every step keeps both buffers in canonical form, with no octet listed outside their capacity. -/
def Obligations.EveryStepKeepsTheMemoryCanonical : Prop :=
  ∀ s t : State, MemoryInv s → step s = .next t → MemoryInv t

/-- R33: every step keeps the tag-number register in 0..254 and the count register within the reach of a buffer. -/
def Obligations.EveryStepKeepsTheResultRanges : Prop :=
  ∀ s t : State, ResultRanges s → step s = .next t → ResultRanges t

/-! ## Rules over all commands -/

/-- R58: a command of class ENC writes nothing of the decode half and reads nothing of it; a command of class DEC
writes nothing of the encode half and reads nothing of it. A wire-tag row is of class DEC. -/
def Obligations.EachClassKeepsToItsHalf : Prop :=
  ∀ (i : Instr) (s s' t t' : State), exec i s = .next t → exec i s' = .next t' → s'.halt = s.halt →
    (cls i = .enc →
      (t.ibuf = s.ibuf ∧ t.ilen = s.ilen ∧ t.rpos = s.rpos ∧ t.rerr = s.rerr ∧ SameControl s t)
      ∧ (s'.obuf = s.obuf → s'.wpos = s.wpos → s'.werr = s.werr →
          t'.obuf = t.obuf ∧ t'.wpos = t.wpos ∧ t'.werr = t.werr ∧ (s.halt = false → results t' = results t)))
    ∧ (cls i = .dec →
      (t.obuf = s.obuf ∧ t.wpos = s.wpos ∧ t.werr = s.werr ∧ SameControl s t)
      ∧ (s'.ibuf = s.ibuf → s'.ilen = s.ilen → s'.rpos = s.rpos → s'.rerr = s.rerr →
          t'.ibuf = t.ibuf ∧ t'.ilen = t.ilen ∧ t'.rpos = t.rpos ∧ t'.rerr = t.rerr
            ∧ (s.halt = false → results t' = results t)))

/-- R58: an ENC command and a DEC command, in either order, leave the same buffers, cursors, sticky errors and halt
flag. -/
def Obligations.EncodeAndDecodeCommandsCommute : Prop :=
  ∀ (i j : Instr) (s a b : State), cls i = .enc → cls j = .dec → exec i s = .next a → exec j a = .next b →
    ∃ a' b', exec j s = .next a' ∧ exec i a' = .next b' ∧ b'.stream = b.stream
      ∧ b'.obuf = b.obuf ∧ b'.wpos = b.wpos ∧ b'.werr = b.werr
      ∧ b'.ibuf = b.ibuf ∧ b'.ilen = b.ilen ∧ b'.rpos = b.rpos ∧ b'.rerr = b.rerr ∧ b'.halt = b.halt

/-- R5, R29, R59: no command's outcome depends on a result register or on what the command stream still holds; every
command but `NOP` overwrites all seven result registers. -/
def Obligations.NoCommandReadsResultsOrTheStream : Prop :=
  ∀ (i : Instr) (s t : State) (r : Results) (bs : List Byte), exec i s = .next t →
    (s.halt = false → i ≠ .nop → exec i ((s.setResults r).setStream bs) = .next (t.setStream bs))
    ∧ (s.halt = true ∨ i = .nop → exec i ((s.setResults r).setStream bs) = .next ((s.setResults r).setStream bs))

/-- R21, R25, R60: states that agree on every register and on the defined regions of the buffers cannot be told apart by
any command, any step or any host action, whatever the other octets hold. -/
def Obligations.UnspecifiedOctetsAreUnobservable : Prop :=
  ∀ s s' : State, MemoryInv s → MemoryInv s' → SameObservable s s' →
    (∀ i, ∃ t t', exec i s = .next t ∧ exec i s' = .next t' ∧ SameObservable t t')
    ∧ (∃ t t', step s = .next t ∧ step s' = .next t' ∧ SameObservable t t')
    ∧ s'.readOut = s.readOut ∧ (∀ off n, s'.peekIn off n = s.peekIn off n) ∧ ∀ k, s'.readReg k = s.readReg k

/-- R23, R26: the read cursor moves by the count `RN` of a DEC command that did not fault, the write cursor by the count
of an ENC command that succeeded, neither by one that faulted, and otherwise only back to 0. -/
def Obligations.CursorsMoveOnlyAsReported : Prop :=
  ∀ (i : Instr) (s t : State), s.halt = false → exec i s = .next t →
    (cls i = .dec → t.wpos = s.wpos
      ∧ (t.st.toNat ≤ 1 → t.rpos.toNat = s.rpos.toNat + t.rn.toNat) ∧ (2 ≤ t.st.toNat → t.rpos = s.rpos))
    ∧ (cls i = .enc → t.rpos = s.rpos
      ∧ (t.st = 0 → t.wpos.toNat = s.wpos.toNat + t.rn.toNat)
      ∧ (t.st ≠ 0 → t.wpos = s.wpos ∧ SameOctets s.obuf t.obuf))
    ∧ (cls i = .neutral →
      (t.rpos = s.rpos ∨ (t.rpos = 0 ∧ (i = .iclr ∨ ∃ data, i = .iload data)))
      ∧ (t.wpos = s.wpos ∨ (t.wpos = 0 ∧ i = .oclr)))

/-- R25, R56: over any run of commands without `OCLR`, what was encoded before stays at the front of the output, and the
new octets follow it; the write cursor never passes the capacity. -/
def Obligations.RunsOnlyExtendTheOutput : Prop :=
  ∀ (is : List Instr) (s t : State), Memory.wf s.obuf = true → s.wpos.toNat ≤ hw.obufCap → .oclr ∉ is →
    runCommands is s = some t →
      ∃ out, output t = output s ++ out ∧ t.wpos.toNat = s.wpos.toNat + out.length ∧ t.wpos.toNat ≤ hw.obufCap

/-- R243 steps 4 and 5: while its class's sticky error is set a command reports the original code, whatever its operands,
and does nothing else. -/
def Obligations.StickyErrorShortCircuits : Prop :=
  ∀ (i : Instr) (s : State), s.halt = false → sticky (cls i) s ≠ 0 → Answers i s (Reported (sticky (cls i) s) s)

/-- R244: a command of class ENC or DEC that faults leaves every buffer and cursor as it was, zeroes the other result
registers and latches its class's sticky error; the other class's is untouched. -/
def Obligations.FaultLeavesBuffersAndCursors : Prop :=
  ∀ (i : Instr) (s t : State), s.halt = false → sticky (cls i) s = 0 → exec i s = .next t → 2 ≤ t.st.toNat →
    (cls i = .enc → results t = { st := t.st } ∧ t.werr = t.st ∧ t.wpos = s.wpos ∧ SameOctets s.obuf t.obuf
      ∧ SameDecodeHalf s t ∧ SameControl s t)
    ∧ (cls i = .dec → results t = { st := t.st } ∧ t.rerr = t.st ∧ t.rpos = s.rpos ∧ t.ilen = s.ilen
      ∧ SameOctets s.ibuf t.ibuf ∧ SameEncodeHalf s t ∧ SameControl s t)

/-- R254: the statuses each command can end with, when it is not halted and no sticky error holds it back; `NOP` leaves
`ST`. -/
def Obligations.StatusesOfEachCommand : Prop :=
  ∀ (i : Instr) (s t : State), s.halt = false → sticky (cls i) s = 0 → exec i s = .next t →
    (i = .nop ∧ t.st = s.st) ∨ t.st ∈ possibleStatus i

/-- R248, R251: a sticky error, once set, is left as it is by every command but the one that empties its buffer. -/
def Obligations.OnlyClearingLeavesAFault : Prop :=
  ∀ (i : Instr) (s t : State), exec i s = .next t →
    (s.werr ≠ 0 → t.werr = s.werr ∨ (i = .oclr ∧ t.werr = 0 ∧ t.wpos = 0))
    ∧ (s.rerr ≠ 0 → t.rerr = s.rerr ∨ ((i = .iclr ∨ ∃ data, i = .iload data) ∧ t.rpos = 0))
    ∧ t.halt = s.halt

/-! ## Buffer management -/

/-- R100, R101, R102: `NOP` changes nothing; `OCLR` and `ICLR` empty their buffer, clear its sticky error, whatever it
was, and zero the result registers; the other half is untouched. -/
def Obligations.NopAndClearCommandsAnswer : Prop :=
  (∀ r, decode (0x00 :: r) = .done .nop r) ∧ (∀ r, decode (0x01 :: r) = .done .oclr r)
  ∧ (∀ r, decode (0x02 :: r) = .done .iclr r)
  ∧ (cls .nop = .neutral ∧ cls .oclr = .neutral ∧ cls .iclr = .neutral)
  ∧ (∀ s : State, Answers .nop s fun t => t = s)
  ∧ (∀ s : State, s.halt = false → Answers .oclr s fun t =>
      t.wpos = 0 ∧ t.werr = 0 ∧ results t = {} ∧ SameOctets s.obuf t.obuf ∧ SameDecodeHalf s t ∧ SameControl s t)
  ∧ (∀ s : State, s.halt = false → Answers .iclr s fun t =>
      t.ilen = 0 ∧ t.rpos = 0 ∧ t.rerr = 0 ∧ results t = {} ∧ SameEncodeHalf s t ∧ SameControl s t)

/-- R103: `ILOAD` replaces the input, whatever `RERR` was; octets that do not fit leave the decode half empty and
latched; the encode half is untouched. -/
def Obligations.IloadReplacesTheInput : Prop :=
  (∀ a b data rest, data.length = beVal [a, b] → decode (0x03 :: a :: b :: (data ++ rest)) = .done (.iload data) rest)
  ∧ (∀ data, cls (.iload data) = .neutral)
  ∧ ∀ (s : State) (data : List Byte), s.halt = false → Memory.wf s.ibuf = true →
    (data.length ≤ hw.ibufCap → Answers (.iload data) s fun t =>
      (∀ k (h : k < data.length), Memory.read t.ibuf k = data[k])
      ∧ t.ilen.toNat = data.length ∧ t.rpos = 0 ∧ t.rerr = 0 ∧ results t = { rn := BitVec.ofNat 32 data.length }
      ∧ SameEncodeHalf s t ∧ SameControl s t)
    ∧ (hw.ibufCap < data.length → Answers (.iload data) s fun t =>
      t.ilen = 0 ∧ t.rpos = 0 ∧ t.rerr = 6 ∧ results t = { st := 6 } ∧ SameEncodeHalf s t ∧ SameControl s t)

/-- The frame of `ICLR` and `ILOAD` on the octets of `IBUF` they do not write. The spec leaves these octets unspecified
(R21); that they keep what they held is the model's reading of the pseudocode (log 12). -/
def Obligations.BufferCommandsKeepTheOldOctets : Prop :=
  (∀ s t : State, exec .iclr s = .next t → SameOctets s.ibuf t.ibuf)
  ∧ ∀ (s t : State) (data : List Byte), exec (.iload data) s = .next t →
      ∀ a, data.length ≤ a ∨ hw.ibufCap < data.length → Memory.read t.ibuf a = Memory.read s.ibuf a

/-! ## Tag headers -/

/-- R112: `ENC_TAG` appends the header of its tag number, class bit and lengthOrValue; tag number 255 and a reserved flag
bit are refused. -/
def Obligations.EncTagAppendsAHeader : Prop :=
  (∀ tn flags a b c d rest, decode (0x10 :: tn :: flags :: a :: b :: c :: d :: rest)
    = .done (.encTag tn flags (word a b c d)) rest)
  ∧ (∀ tn flags lv, cls (.encTag tn flags lv) = .enc)
  ∧ ∀ (tn flags : Byte) (lv : Word) (s : State), EncReady s →
      (tn = 255 ∨ 1 < flags.toNat → Answers (.encTag tn flags lv) s (RaisedEnc .unsupportedValueType s))
      ∧ (tn ≠ 255 → flags.toNat ≤ 1 → Emits (.encTag tn flags lv) s (encTag tn.toNat (flags.getLsbD 0) lv.toNat)
          { rt := tn, rc := flags.getLsbD 0, rl := lv })

/-- R73: the eight shapes of a header. -/
def Obligations.HeaderOctetsFollowTheEightShapes : Prop :=
  ∀ (t : Nat) (c : Bool) (L : Nat), t ≤ 254 → L < 2 ^ 32 →
    (t ≤ 14 → L ≤ 4 → encTag t c L = [BitVec.ofNat 8 (t * 16 + c.toNat * 8 + L)])
    ∧ (t ≤ 14 → 5 ≤ L → L ≤ 253 → encTag t c L = [BitVec.ofNat 8 (t * 16 + c.toNat * 8 + 5), BitVec.ofNat 8 L])
    ∧ (t ≤ 14 → 254 ≤ L → L ≤ 65535 → encTag t c L
        = [BitVec.ofNat 8 (t * 16 + c.toNat * 8 + 5), 0xFE, BitVec.ofNat 8 (L / 256), BitVec.ofNat 8 L])
    ∧ (t ≤ 14 → 65536 ≤ L → encTag t c L
        = [BitVec.ofNat 8 (t * 16 + c.toNat * 8 + 5), 0xFF, BitVec.ofNat 8 (L / 2 ^ 24), BitVec.ofNat 8 (L / 2 ^ 16),
           BitVec.ofNat 8 (L / 256), BitVec.ofNat 8 L])
    ∧ (15 ≤ t → L ≤ 4 → encTag t c L = [BitVec.ofNat 8 (0xF0 + c.toNat * 8 + L), BitVec.ofNat 8 t])
    ∧ (15 ≤ t → 5 ≤ L → L ≤ 253 → encTag t c L
        = [BitVec.ofNat 8 (0xF0 + c.toNat * 8 + 5), BitVec.ofNat 8 t, BitVec.ofNat 8 L])
    ∧ (15 ≤ t → 254 ≤ L → L ≤ 65535 → encTag t c L
        = [BitVec.ofNat 8 (0xF0 + c.toNat * 8 + 5), BitVec.ofNat 8 t, 0xFE, BitVec.ofNat 8 (L / 256),
           BitVec.ofNat 8 L])
    ∧ (15 ≤ t → 65536 ≤ L → encTag t c L
        = [BitVec.ofNat 8 (0xF0 + c.toNat * 8 + 5), BitVec.ofNat 8 t, 0xFF, BitVec.ofNat 8 (L / 2 ^ 24),
           BitVec.ofNat 8 (L / 2 ^ 16), BitVec.ofNat 8 (L / 256), BitVec.ofNat 8 L])

/-- R115: decoding a header gives back its three fields and its length, whatever follows, under every record of
parameters R7 allows; the converse does not hold. -/
def Obligations.TagHeadersRoundTrip : Prop :=
  (∀ (cfg : Config), cfg.Valid → ∀ (t : Nat) (c : Bool) (L : Nat) (rest : List Byte), t ≤ 254 → L < 2 ^ 32 →
    decTag cfg (encTag t c L ++ rest) = .ok { t := t, c := c, L := L, n := (encTag t c L).length })
  ∧ ∃ (inp : List Byte) (h : Header), decTag hw inp = .ok h ∧ (encTag h.t h.c h.L).length < h.n

/-- R89, R113, R114: `DEC_TAG` reports the header at the cursor, in every form R113 accepts, and steps over it; an empty
input and a malformed header are faults; there is no fourth case. -/
def Obligations.DecTagReportsTheHeader : Prop :=
  (∀ r, decode (0x11 :: r) = .done .decTag r)
  ∧ cls .decTag = .dec
  ∧ ∀ s : State, DecReady s →
    (unreadCount s = 0 → Answers .decTag s (RaisedDec .insufficientBytes s))
    ∧ (HeaderCut s → Answers .decTag s (RaisedDec .malformedTag s))
    ∧ (∀ t c L n, HeaderAt s t c L n → Answers .decTag s (Consumed n
        { rt := BitVec.ofNat 8 t, rc := c, rl := BitVec.ofNat 32 L, rn := BitVec.ofNat 32 n } s))
    ∧ (unreadCount s = 0 ∨ HeaderCut s ∨ ∃ t c L n, HeaderAt s t c L n)

/-! ## Integers -/

/-- R130, R131, R132: the minimal lengths are the least octet counts that hold the value, from 1 to 4, and an unsigned
payload begins with a non-zero octet unless the value is 0. -/
def Obligations.MinimalLengthsAreLeast : Prop :=
  (∀ v : Nat, v < 2 ^ 32 → 1 ≤ ulen v ∧ ulen v ≤ 4 ∧ v < 256 ^ ulen v ∧ ∀ n, 1 ≤ n → v < 256 ^ n → ulen v ≤ n)
  ∧ (∀ v : Nat, 0 < v → v < 2 ^ 32 → ∃ b bs, encUint v = b :: bs ∧ b ≠ 0)
  ∧ ∀ v : Int, -2 ^ 31 ≤ v → v < 2 ^ 31 →
      1 ≤ slen v ∧ slen v ≤ 4 ∧ -2 ^ (8 * slen v - 1) ≤ v ∧ v < 2 ^ (8 * slen v - 1)
      ∧ ∀ n, 1 ≤ n → -2 ^ (8 * n - 1) ≤ v → v < 2 ^ (8 * n - 1) → slen v ≤ n

/-- R140: integers round-trip, whatever follows, and their length inlines in a one-octet header. -/
def Obligations.IntegersRoundTrip : Prop :=
  ∀ (cfg : Config), cfg.Valid → ∀ rest : List Byte,
    (∀ v : Nat, v < 2 ^ 32 → decUint cfg (encUint v ++ rest) (ulen v) = .ok v
      ∧ 1 ≤ ulen v ∧ ulen v ≤ 4 ∧ ∀ t c, t < 15 → (encTag t c (ulen v)).length = 1)
    ∧ ∀ v : Int, -2 ^ 31 ≤ v → v < 2 ^ 31 → decSint cfg (encSint v ++ rest) (slen v) = .ok v
      ∧ 1 ≤ slen v ∧ slen v ≤ 4 ∧ ∀ t c, t < 15 → (encTag t c (slen v)).length = 1

/-- R136, R137: `ENC_UINT` and `ENC_SINT` append the low-order octets of their operand, as many as its minimal length;
`RV` holds the operand widened to 64 bits, with zeros or by its sign. -/
def Obligations.EncIntegersAppendTheMinimalPayload : Prop :=
  (∀ a b c d rest, decode (0x20 :: a :: b :: c :: d :: rest) = .done (.encUint (word a b c d)) rest)
  ∧ (∀ a b c d rest, decode (0x21 :: a :: b :: c :: d :: rest) = .done (.encSint (word a b c d)) rest)
  ∧ (∀ v, cls (.encUint v) = .enc ∧ cls (.encSint v) = .enc)
  ∧ ∀ (v : Word) (s : State), EncReady s →
      Emits (.encUint v) s (be v.toNat (ulen v.toNat)) { rl := BitVec.ofNat 32 (ulen v.toNat), rv := v.setWidth 64 }
      ∧ Emits (.encSint v) s (be v.toNat (slen v.toInt)) { rl := BitVec.ofNat 32 (slen v.toInt), rv := v.signExtend 64 }

/-- R138, R139: `DEC_UINT` and `DEC_SINT` read exactly `n` octets, as an unsigned or a two's-complement number; above
four octets they fault with MalformedTag, before they look whether the octets are there. -/
def Obligations.DecIntegersReadExactlyTheCount : Prop :=
  (∀ n rest, decode (0x30 :: n :: rest) = .done (.decUint n) rest)
  ∧ (∀ n rest, decode (0x31 :: n :: rest) = .done (.decSint n) rest)
  ∧ (∀ n, cls (.decUint n) = .dec ∧ cls (.decSint n) = .dec)
  ∧ ∀ (n : Byte) (s : State), DecReady s →
      (4 < n.toNat → Answers (.decUint n) s (RaisedDec .malformedTag s)
        ∧ Answers (.decSint n) s (RaisedDec .malformedTag s))
      ∧ (n.toNat ≤ 4 → Reads (.decUint n) s n.toNat { rl := n.setWidth 32, rv := uintAt s 0 n.toNat }
        ∧ Reads (.decSint n) s n.toNat { rl := n.setWidth 32, rv := sintAt s 0 n.toNat })

/-! ## Fixed-size and string payloads -/

/-- R150, R152, R155: `ENC_REAL`, `ENC_DBL` and `ENC_STR` append the bits of their operand unchanged. -/
def Obligations.RawPayloadsAreAppendedUnchanged : Prop :=
  (∀ a b c d rest, decode (0x22 :: a :: b :: c :: d :: rest) = .done (.encReal (word a b c d)) rest)
  ∧ (∀ a b c d e f g h rest, decode (0x23 :: a :: b :: c :: d :: e :: f :: g :: h :: rest)
      = .done (.encDbl (long a b c d e f g h)) rest)
  ∧ (∀ a b c d data rest, data.length = beVal [a, b, c, d] →
      decode (0x24 :: a :: b :: c :: d :: (data ++ rest)) = .done (.encStr data) rest)
  ∧ (∀ v w data, cls (.encReal v) = .enc ∧ cls (.encDbl w) = .enc ∧ cls (.encStr data) = .enc)
  ∧ (∀ (v : Word) (s : State), EncReady s → Emits (.encReal v) s (be v.toNat 4) { rl := 4, rv := v.setWidth 64 })
  ∧ (∀ (v : Long) (s : State), EncReady s → Emits (.encDbl v) s (be v.toNat 8) { rl := 8, rv := v })
  ∧ ∀ (data : List Byte) (s : State), data.length < 2 ^ 32 → EncReady s →
      Emits (.encStr data) s data { rl := BitVec.ofNat 32 data.length }

/-- R151, R153, R165: `DEC_REAL`, `DEC_DBL` and `DEC_OID` read 4, 8 and 4 octets as one big-endian number. -/
def Obligations.FixedPayloadsAreReadBigEndian : Prop :=
  (∀ r, decode (0x32 :: r) = .done .decReal r) ∧ (∀ r, decode (0x33 :: r) = .done .decDbl r)
  ∧ (∀ r, decode (0x37 :: r) = .done .decOid r)
  ∧ (cls .decReal = .dec ∧ cls .decDbl = .dec ∧ cls .decOid = .dec)
  ∧ ∀ s : State, DecReady s →
      Reads .decReal s 4 { rl := 4, rv := uintAt s 0 4 }
      ∧ Reads .decDbl s 8 { rl := 8, rv := uintAt s 0 8 }
      ∧ Reads .decOid s 4 { rl := 4, rv := uintAt s 0 4 }

/-- R156: `DEC_STR` steps over `n` octets and reports where they are. -/
def Obligations.DecStrStepsOverThePayload : Prop :=
  (∀ a b c d rest, decode (0x34 :: a :: b :: c :: d :: rest) = .done (.decStr (word a b c d)) rest)
  ∧ (∀ n, cls (.decStr n) = .dec)
  ∧ ∀ (n : Word) (s : State), DecReady s → Reads (.decStr n) s n.toNat { rl := n, rv := s.rpos.setWidth 64 }

/-- R158: `ENC_DATE` writes the year less the year base, or the sentinel unchanged, and refuses every other year; month,
day and day of week go through unchecked. -/
def Obligations.EncDateAppendsTheOffsetYear : Prop :=
  (∀ y1 y0 m d w rest, decode (0x25 :: y1 :: y0 :: m :: d :: w :: rest) = .done (.encDate (half y1 y0) m d w) rest)
  ∧ (∀ y m d w, cls (.encDate y m d w) = .enc)
  ∧ ∀ (year : Half) (m d w y : Byte) (s : State), EncReady s →
      ((year = 255 ∧ y = 255) ∨ (year ≠ 255 ∧ y ≠ 255 ∧ year.toNat = y.toNat + 1990) →
        Emits (.encDate year m d w) s [y, m, d, w]
          { rl := 4, rv := BitVec.ofNat 64 (year.toNat * 2 ^ 24 + m.toNat * 2 ^ 16 + d.toNat * 2 ^ 8 + w.toNat) })
      ∧ (year ≠ 255 → year.toNat < 1990 ∨ 2244 < year.toNat →
        Answers (.encDate year m d w) s (RaisedEnc .unsupportedValueType s))

/-- R161: `ENC_TIME` writes hour, minute, second and the millisecond count divided by ten; a count above 999 is
refused. -/
def Obligations.EncTimeAppendsCentiseconds : Prop :=
  (∀ h m sec m1 m0 rest, decode (0x26 :: h :: m :: sec :: m1 :: m0 :: rest) = .done (.encTime h m sec (half m1 m0)) rest)
  ∧ (∀ h m sec ms, cls (.encTime h m sec ms) = .enc)
  ∧ ∀ (h m sec : Byte) (ms : Half) (s : State), EncReady s →
      (999 < ms.toNat → Answers (.encTime h m sec ms) s (RaisedEnc .unsupportedValueType s))
      ∧ (ms.toNat ≤ 999 → Emits (.encTime h m sec ms) s [h, m, sec, BitVec.ofNat 8 (ms.toNat / 10)]
          { rl := 4, rv := BitVec.ofNat 64 (h.toNat * 2 ^ 32 + m.toNat * 2 ^ 24 + sec.toNat * 2 ^ 16 + ms.toNat) })

/-- R164: `ENC_OID` writes the type in the high 10 bits and the instance in the low 22; a field out of its range is
refused. -/
def Obligations.EncOidAppendsThePackedWord : Prop :=
  (∀ t1 t0 a b c d rest, decode (0x27 :: t1 :: t0 :: a :: b :: c :: d :: rest)
    = .done (.encOid (half t1 t0) (word a b c d)) rest)
  ∧ (∀ t n, cls (.encOid t n) = .enc)
  ∧ ∀ (type : Half) (inst : Word) (s : State), EncReady s →
      (1023 < type.toNat ∨ 4194303 < inst.toNat →
        Answers (.encOid type inst) s (RaisedEnc .unsupportedValueType s))
      ∧ (type.toNat ≤ 1023 → inst.toNat ≤ 4194303 →
        Emits (.encOid type inst) s (be (type.toNat * 2 ^ 22 + inst.toNat) 4)
          { rl := 4, rv := BitVec.ofNat 64 (type.toNat * 2 ^ 22 + inst.toNat) })

/-- R159: `DEC_DATE` reads four octets; the year octet is read, then compared with the sentinel, then offset. -/
def Obligations.DecDateReadsTheOctetThenTheSentinel : Prop :=
  (∀ r, decode (0x35 :: r) = .done .decDate r) ∧ cls .decDate = .dec
  ∧ ∀ s : State, DecReady s → Reads .decDate s 4 { rl := 4, rv := dateAt s 0 }

/-- R162: `DEC_TIME` reads four octets; the last counts centiseconds. -/
def Obligations.DecTimeReadsCentiseconds : Prop :=
  (∀ r, decode (0x36 :: r) = .done .decTime r) ∧ cls .decTime = .dec
  ∧ ∀ s : State, DecReady s → Reads .decTime s 4 { rl := 4, rv := timeAt s 0 }

/-! ## Application-tagged values -/

/-- R182, R183: `APP_NULL` and `APP_BOOL` append a header and no payload; the boolean is the lengthOrValue; a reserved
bit is refused. -/
def Obligations.AppNullAndBoolAreHeadersAlone : Prop :=
  (∀ r, decode (0x40 :: r) = .done .appNull r) ∧ (∀ b r, decode (0x41 :: b :: r) = .done (.appBool b) r)
  ∧ (∀ b, cls .appNull = .enc ∧ cls (.appBool b) = .enc)
  ∧ (∀ s : State, EncReady s → Emits .appNull s (encTag (hw.apptag .null) false 0)
      { rk := 0, rt := BitVec.ofNat 8 (hw.apptag .null) })
  ∧ ∀ (b : Byte) (s : State), EncReady s →
      (1 < b.toNat → Answers (.appBool b) s (RaisedEnc .unsupportedValueType s))
      ∧ (b.toNat ≤ 1 → Emits (.appBool b) s (encTag (hw.apptag .boolean) false b.toNat)
          { rk := 1, rt := BitVec.ofNat 8 (hw.apptag .boolean), rl := b.setWidth 32, rv := b.setWidth 64 })

/-- R184, R185, R191: `APP_UINT`, `APP_SINT` and `APP_ENUM` append a header with the minimal length and the minimal
payload; enumerated differs from unsigned in the tag number and the kind alone. -/
def Obligations.AppIntegersTagTheMinimalPayload : Prop :=
  (∀ a b c d rest, decode (0x42 :: a :: b :: c :: d :: rest) = .done (.appUint (word a b c d)) rest)
  ∧ (∀ a b c d rest, decode (0x43 :: a :: b :: c :: d :: rest) = .done (.appSint (word a b c d)) rest)
  ∧ (∀ a b c d rest, decode (0x49 :: a :: b :: c :: d :: rest) = .done (.appEnum (word a b c d)) rest)
  ∧ (∀ v, cls (.appUint v) = .enc ∧ cls (.appSint v) = .enc ∧ cls (.appEnum v) = .enc)
  ∧ ∀ (v : Word) (s : State), EncReady s →
      Emits (.appUint v) s (encTag (hw.apptag .unsigned) false (ulen v.toNat) ++ be v.toNat (ulen v.toNat))
        { rk := 2, rt := BitVec.ofNat 8 (hw.apptag .unsigned), rl := BitVec.ofNat 32 (ulen v.toNat), rv := v.setWidth 64 }
      ∧ Emits (.appSint v) s (encTag (hw.apptag .signed) false (slen v.toInt) ++ be v.toNat (slen v.toInt))
        { rk := 3, rt := BitVec.ofNat 8 (hw.apptag .signed), rl := BitVec.ofNat 32 (slen v.toInt), rv := v.signExtend 64 }
      ∧ Emits (.appEnum v) s (encTag (hw.apptag .enumerated) false (ulen v.toNat) ++ be v.toNat (ulen v.toNat))
        { rk := 9, rt := BitVec.ofNat 8 (hw.apptag .enumerated), rl := BitVec.ofNat 32 (ulen v.toNat), rv := v.setWidth 64 }

/-- R186, R187: `APP_REAL` and `APP_DBL` append a header with length 4 or 8 and the bit pattern. -/
def Obligations.AppRealAndDoubleTagTheBitPattern : Prop :=
  (∀ a b c d rest, decode (0x44 :: a :: b :: c :: d :: rest) = .done (.appReal (word a b c d)) rest)
  ∧ (∀ a b c d e f g h rest, decode (0x45 :: a :: b :: c :: d :: e :: f :: g :: h :: rest)
      = .done (.appDbl (long a b c d e f g h)) rest)
  ∧ (∀ v w, cls (.appReal v) = .enc ∧ cls (.appDbl w) = .enc)
  ∧ (∀ (v : Word) (s : State), EncReady s → Emits (.appReal v) s (encTag (hw.apptag .real) false 4 ++ be v.toNat 4)
      { rk := 4, rt := BitVec.ofNat 8 (hw.apptag .real), rl := 4, rv := v.setWidth 64 })
  ∧ ∀ (v : Long) (s : State), EncReady s → Emits (.appDbl v) s (encTag (hw.apptag .double) false 8 ++ be v.toNat 8)
      { rk := 5, rt := BitVec.ofNat 8 (hw.apptag .double), rl := 8, rv := v }

/-- R188, R189, R190: `APP_STR` appends a header with the octet count and the octets; `APP_OCTSTR` and `APP_BITSTR` take
all of their octets from the stream and raise UnsupportedValueType. -/
def Obligations.AppStringsTagTheOctetsOrRaise : Prop :=
  (∀ a b c d data rest, data.length = beVal [a, b, c, d] →
    decode (0x46 :: a :: b :: c :: d :: (data ++ rest)) = .done (.appOctstr data) rest
    ∧ decode (0x47 :: a :: b :: c :: d :: (data ++ rest)) = .done (.appStr data) rest
    ∧ decode (0x48 :: a :: b :: c :: d :: (data ++ rest)) = .done (.appBitstr data) rest)
  ∧ (∀ data, cls (.appOctstr data) = .enc ∧ cls (.appStr data) = .enc ∧ cls (.appBitstr data) = .enc)
  ∧ ∀ (data : List Byte) (s : State), data.length < 2 ^ 32 → EncReady s →
      Answers (.appOctstr data) s (RaisedEnc .unsupportedValueType s)
      ∧ Answers (.appBitstr data) s (RaisedEnc .unsupportedValueType s)
      ∧ Emits (.appStr data) s (encTag (hw.apptag .characterString) false data.length ++ data)
        { rk := 7, rt := BitVec.ofNat 8 (hw.apptag .characterString), rl := BitVec.ofNat 32 data.length }

/-- R192, R193, R194: `APP_DATE`, `APP_TIME` and `APP_OID` append a header with length 4 and the payload of the body
command, and refuse what it refuses. -/
def Obligations.AppDateTimeAndOidTagTheFixedPayload : Prop :=
  (∀ y1 y0 m d w rest, decode (0x4A :: y1 :: y0 :: m :: d :: w :: rest) = .done (.appDate (half y1 y0) m d w) rest)
  ∧ (∀ h m sec m1 m0 rest, decode (0x4B :: h :: m :: sec :: m1 :: m0 :: rest)
      = .done (.appTime h m sec (half m1 m0)) rest)
  ∧ (∀ t1 t0 a b c d rest, decode (0x4C :: t1 :: t0 :: a :: b :: c :: d :: rest)
      = .done (.appOid (half t1 t0) (word a b c d)) rest)
  ∧ (∀ y m d w h mi sec ms t n, cls (.appDate y m d w) = .enc ∧ cls (.appTime h mi sec ms) = .enc
      ∧ cls (.appOid t n) = .enc)
  ∧ (∀ (year : Half) (m d w y : Byte) (s : State), EncReady s →
      ((year = 255 ∧ y = 255) ∨ (year ≠ 255 ∧ y ≠ 255 ∧ year.toNat = y.toNat + 1990) →
        Emits (.appDate year m d w) s (encTag (hw.apptag .date) false 4 ++ [y, m, d, w])
          { rk := 10, rt := BitVec.ofNat 8 (hw.apptag .date), rl := 4,
            rv := BitVec.ofNat 64 (year.toNat * 2 ^ 24 + m.toNat * 2 ^ 16 + d.toNat * 2 ^ 8 + w.toNat) })
      ∧ (year ≠ 255 → year.toNat < 1990 ∨ 2244 < year.toNat →
        Answers (.appDate year m d w) s (RaisedEnc .unsupportedValueType s)))
  ∧ (∀ (h m sec : Byte) (ms : Half) (s : State), EncReady s →
      (999 < ms.toNat → Answers (.appTime h m sec ms) s (RaisedEnc .unsupportedValueType s))
      ∧ (ms.toNat ≤ 999 →
        Emits (.appTime h m sec ms) s (encTag (hw.apptag .time) false 4 ++ [h, m, sec, BitVec.ofNat 8 (ms.toNat / 10)])
          { rk := 11, rt := BitVec.ofNat 8 (hw.apptag .time), rl := 4,
            rv := BitVec.ofNat 64 (h.toNat * 2 ^ 32 + m.toNat * 2 ^ 24 + sec.toNat * 2 ^ 16 + ms.toNat) }))
  ∧ ∀ (type : Half) (inst : Word) (s : State), EncReady s →
      (1023 < type.toNat ∨ 4194303 < inst.toNat →
        Answers (.appOid type inst) s (RaisedEnc .unsupportedValueType s))
      ∧ (type.toNat ≤ 1023 → inst.toNat ≤ 4194303 →
        Emits (.appOid type inst) s
          (encTag (hw.apptag .objectIdentifier) false 4 ++ be (type.toNat * 2 ^ 22 + inst.toNat) 4)
          { rk := 12, rt := BitVec.ofNat 8 (hw.apptag .objectIdentifier), rl := 4,
            rv := BitVec.ofNat 64 (type.toNat * 2 ^ 22 + inst.toNat) })

/-- R195, R196: `DEC_ANY` decodes the value at the cursor by its tag number alone: the header is checked first, then the
dispatch, then the payload; there is no other case. -/
def Obligations.DecAnyDecodesOneValue : Prop :=
  (∀ r, decode (0x50 :: r) = .done .decAny r)
  ∧ cls .decAny = .dec
  ∧ ∀ s : State, DecReady s →
    (unreadCount s = 0 → Answers .decAny s (RaisedDec .insufficientBytes s))
    ∧ (HeaderCut s → Answers .decAny s (RaisedDec .malformedTag s))
    ∧ (∀ t c L n, HeaderAt s t c L n →
        (∀ k, hw.apptag k = t → DecodesKind .decAny s k t c L n)
        ∧ ((∀ k, hw.apptag k ≠ t) → Answers .decAny s (RaisedDec .unsupportedTag s)))
    ∧ (unreadCount s = 0 ∨ HeaderCut s ∨ ∃ t c L n, HeaderAt s t c L n)

/-- R90: each of the sixteen wire-tag rows (`rowParts` lists them) decodes the value that its octet begins: the row's
class bit and `lv`, then the octets after it. That a row takes the octet at the cursor to be its own is the model's
choice (log 6). -/
def Obligations.WireRowsDecodeTheirPayload : Prop :=
  ∀ (i : Instr) (nibble : Nat) (c : Bool) (lv : Nat) (s : State), rowParts i = some (nibble, c, lv) → DecReady s →
    (unreadCount s = 0 → Answers i s (RaisedDec .insufficientBytes s))
    ∧ (nibble ≠ 15 → 1 ≤ unreadCount s → LengthCut s 1 lv → Answers i s (RaisedDec .malformedTag s))
    ∧ (∀ L m, nibble ≠ 15 → 1 ≤ unreadCount s → LengthField s 1 lv L m →
        (∀ k, hw.apptag k = nibble → DecodesKind i s k nibble c L (1 + m))
        ∧ ((∀ k, hw.apptag k ≠ nibble) → Answers i s (RaisedDec .unsupportedTag s)))
    ∧ (nibble = 15 → 1 ≤ unreadCount s → unreadCount s = 1 ∨ octetAt s 1 = 255 ∨ LengthCut s 2 lv →
        Answers i s (RaisedDec .malformedTag s))
    ∧ (∀ L m, nibble = 15 → 2 ≤ unreadCount s → octetAt s 1 ≠ 255 → LengthField s 2 lv L m →
        (∀ k, hw.apptag k = (octetAt s 1).toNat → DecodesKind i s k (octetAt s 1).toNat c L (2 + m))
        ∧ ((∀ k, hw.apptag k ≠ (octetAt s 1).toNat) → Answers i s (RaisedDec .unsupportedTag s)))

/-- R90: `DEC_ANY` does, in every state that has an unread octet, what the row of that octet does; the class bit and `lv`
play no part in the selection. That a row is an instruction of its own is the model's choice (log 6). -/
def Obligations.DecAnyRunsTheWireRowOfItsFirstOctet : Prop :=
  (∀ s : State, 1 ≤ unreadCount s → exec .decAny s = exec (decodeWireTag (octetAt s 0)) s)
  ∧ ∀ b b' : Byte, b.toNat / 16 = b'.toNat / 16 →
      (rowParts (decodeWireTag b)).map (·.1) = (rowParts (decodeWireTag b')).map (·.1)

/-- R197 for the functions, under every record of parameters R7 and R180 allow (G1): decoding what an `APP_` command
computes gives its results back, whatever follows and wherever it stands; null comes back as NullValue, a string as its
index, a time in whole centiseconds. -/
def Obligations.ApplicationValuesRoundTrip : Prop :=
  ∀ (cfg : Config), cfg.Valid → ∀ (rest : List Byte) (base : Nat) (em : Emission),
    (emitAppNull cfg = .ok em →
      decAny cfg (em.out ++ rest) base = .ok { res := { em.res with st := 1 }, n := em.out.length })
    ∧ ((∃ b, emitAppBool cfg b = .ok em) ∨ (∃ v, emitAppUint cfg v = .ok em) ∨ (∃ v, emitAppSint cfg v = .ok em)
        ∨ (∃ v, emitAppReal cfg v = .ok em) ∨ (∃ v, emitAppDbl cfg v = .ok em) ∨ (∃ v, emitAppEnum cfg v = .ok em)
        ∨ (∃ y m d w, emitAppDate cfg y m d w = .ok em) ∨ (∃ t n, emitAppOid cfg t n = .ok em) →
      decAny cfg (em.out ++ rest) base = .ok { res := em.res, n := em.out.length })
    ∧ (∀ data, data.length < 2 ^ 32 → emitAppStr cfg data = .ok em →
      decAny cfg (em.out ++ rest) base
        = .ok { res := { em.res with rv := BitVec.ofNat 64 (base + em.out.length - data.length) }, n := em.out.length })
    ∧ (∀ h m sec ms, emitAppTime cfg h m sec ms = .ok em →
      decAny cfg (em.out ++ rest) base
        = .ok { res := { em.res with rv := BitVec.ofNat 64 (h.toNat * 2 ^ 32 + m.toNat * 2 ^ 24 + sec.toNat * 2 ^ 16
                          + ms.toNat / 10 * 10) }, n := em.out.length })

/-- R197 on the block: the output of an `APP_` command on an empty `OBUF`, loaded as the input, is decoded by `DEC_ANY`
to the kind, the count and the value the command reported; null with NullValue, a time in whole centiseconds, a string as
the place of its octets. -/
def Obligations.RoundTripOnTheBlock : Prop :=
  ∀ (i : Instr) (k : Kind) (s t : State), appKind i = some k → EncReady s → s.wpos = 0 → Memory.wf s.ibuf = true →
    exec i s = .next t → t.st = 0 →
    ∃ bs u v, t.readOut = some bs ∧ exec (.iload bs) t = .next u
      ∧ exec .decAny u = .next v
      ∧ v.rk.toNat = k.code ∧ v.rn = t.rn ∧ v.rl = t.rl ∧ v.st = (if k = .null then 1 else 0)
      ∧ (k ≠ .time → k ≠ .characterString → v.rv = t.rv)
      ∧ (∀ h m sec ms, i = .appTime h m sec ms →
          v.rv = BitVec.ofNat 64 (h.toNat * 2 ^ 32 + m.toNat * 2 ^ 24 + sec.toNat * 2 ^ 16 + ms.toNat / 10 * 10))
      ∧ (∀ data, i = .appStr data → v.peekIn v.rv.toNat v.rl.toNat = some data)

/-! ## NPDU header, segmentation octet, pseudo-instructions -/

/-- R212, R213, R214: `ENC_NPDU` appends the six parts in order, with the control octet described bit by bit; a reserved
flag bit is refused. -/
def Obligations.EncNpduAppendsTheSixSteps : Prop :=
  (∀ flags hop mtype v1 v0 d1 d0 dlen dadr s1 s0 slen sadr rest,
    dadr.length = dlen.toNat → sadr.length = slen.toNat →
    decode (0x60 :: flags :: hop :: mtype :: v1 :: v0 :: d1 :: d0 :: dlen :: (dadr ++ s1 :: s0 :: slen :: (sadr ++ rest)))
      = .done (.encNpdu flags hop mtype (half v1 v0) (half d1 d0) dadr (half s1 s0) sadr) rest)
  ∧ (∀ flags hop mtype vendor dnet dadr snet sadr, cls (.encNpdu flags hop mtype vendor dnet dadr snet sadr) = .enc)
  ∧ ∀ (flags hop mtype control : Byte) (vendor dnet : Half) (dadr : List Byte) (snet : Half) (sadr : List Byte)
      (s : State), dadr.length < 256 → sadr.length < 256 → EncReady s →
    (flags.toNat / 8 % 16 ≠ 0 → Answers (.encNpdu flags hop mtype vendor dnet dadr snet sadr) s
      (RaisedEnc .unsupportedValueType s))
    ∧ (flags.toNat / 8 % 16 = 0 →
      control.getLsbD 7 = flags.getLsbD 7 → control.getLsbD 6 = false → control.getLsbD 5 = decide (dnet ≠ 0) →
      control.getLsbD 4 = false → control.getLsbD 3 = decide (snet ≠ 0 ∧ sadr ≠ []) →
      control.getLsbD 2 = flags.getLsbD 2 → control.getLsbD 1 = flags.getLsbD 1 →
      control.getLsbD 0 = flags.getLsbD 0 →
      ∀ out, out = [1, control] ++ be dnet.toNat 2 ++ [BitVec.ofNat 8 dadr.length] ++ dadr
          ++ be snet.toNat 2 ++ [BitVec.ofNat 8 sadr.length] ++ sadr
          ++ (if dnet ≠ 0 then [hop] else [])
          ++ (if flags.getLsbD 7 = true then
                (if mtype.toNat < 0x80 then [mtype] else mtype :: be vendor.toNat 2)
              else []) →
        Emits (.encNpdu flags hop mtype vendor dnet dadr snet sadr) s out
          { rl := BitVec.ofNat 32 out.length, rv := control.setWidth 64 })

/-- R213, R215, R216: the length of a header, from 8 to 522 octets, whatever the network numbers, and the routed header
of R215, octet for octet. -/
def Obligations.NpduHeaderLengthAndExample : Prop :=
  (∀ (flags hop mtype : Byte) (vendor dnet : Half) (dadr : List Byte) (snet : Half) (sadr : List Byte),
    dadr.length < 256 → sadr.length < 256 →
    (encNpdu hw flags hop mtype vendor dnet dadr snet sadr).length
        = 8 + dadr.length + sadr.length + (if 0 < dnet.toNat then 1 else 0)
          + (if flags.getLsbD 7 then 1 else 0) + (if flags.getLsbD 7 && decide (0x80 ≤ mtype.toNat) then 2 else 0)
    ∧ 8 ≤ (encNpdu hw flags hop mtype vendor dnet dadr snet sadr).length
    ∧ (encNpdu hw flags hop mtype vendor dnet dadr snet sadr).length ≤ 522)
  ∧ encNpdu hw 0x04 255 0 0 1234 [0x0A] 0 [] = [0x01, 0x24, 0x04, 0xD2, 0x01, 0x0A, 0x00, 0x00, 0x00, 0xFF]
  ∧ encNpdu hw 0x00 0 0 0 0 [0xAB] 7 [] = [0x01, 0x00, 0x00, 0x00, 0x01, 0xAB, 0x00, 0x07, 0x00]

/-- R225, R226: `ENC_SEG` answers the bucket octet in `RV`, whatever the sticky errors; above 1476 it reports
UnsupportedValueType; it touches nothing else and latches nothing. -/
def Obligations.EncSegAnswersTheOctet : Prop :=
  (∀ a b c d rest, decode (0x70 :: a :: b :: c :: d :: rest) = .done (.encSeg (half a b) (half c d)) rest)
  ∧ (∀ a b, cls (.encSeg a b) = .neutral)
  ∧ ∀ (maxsegs maxapdu : Half) (s : State), s.halt = false →
      (1476 < maxapdu.toNat → Answers (.encSeg maxsegs maxapdu) s (Reported 3 s))
      ∧ (∀ hi lo, SegHighBucket maxsegs.toNat hi → SegLowBucket maxapdu.toNat lo →
          Answers (.encSeg maxsegs maxapdu) s fun t =>
            results t = { rv := BitVec.ofNat 64 (hi * 16 + lo) } ∧ SameButResults s t)
      ∧ (∃ hi, SegHighBucket maxsegs.toNat hi) ∧ (maxapdu.toNat ≤ 1476 → ∃ lo, SegLowBucket maxapdu.toNat lo)

/-- R87: a context-tagged pseudo-instruction appends a context-specific header and the payload, one after the other;
`SKIP` and the raw readers are the commands they stand for. -/
def Obligations.PseudoInstructionsAppendTheirParts : Prop :=
  (∀ (tn : Byte) (s : State) (is : List Instr) (out : List Byte), EncReady s → tn ≠ 255 →
    ((∃ v, (is = ctxUint tn v ∨ is = ctxEnum tn v)
          ∧ out = encTag tn.toNat true (ulen v.toNat) ++ be v.toNat (ulen v.toNat))
      ∨ (∃ v, is = ctxSint tn v ∧ out = encTag tn.toNat true (slen v.toInt) ++ be v.toNat (slen v.toInt))
      ∨ (∃ v, is = ctxReal tn v ∧ out = encTag tn.toNat true 4 ++ be v.toNat 4)
      ∨ (∃ type inst, is = ctxOid tn type inst ∧ type.toNat ≤ 1023 ∧ inst.toNat ≤ 4194303
          ∧ out = encTag tn.toNat true 4 ++ be (type.toNat * 2 ^ 22 + inst.toNat) 4)
      ∨ (∃ data, is = ctxStr tn data ∧ data.length < 2 ^ 32 ∧ out = encTag tn.toNat true data.length ++ data)) →
    Fits out s → ∃ t, runCommands is s = some t ∧ AppendedByRun out s t)
  ∧ ∀ n, skip n = [.decStr n] ∧ rd8 = [.decUint 1] ∧ rd16 = [.decUint 2] ∧ rd32 = [.decUint 4]
end

