-- ==== Sys2Proof/Laws/Octets.lean ====
section
/-! SUPPORT. Octet strings and the numbers they stand for (R12). -/

namespace Sys2Proof.Machine

@[simp] theorem be_length (v n : Nat) : (be v n).length = n := by
  induction n with
  | zero => rfl
  | succ n ih => simp [be, ih]

@[simp] theorem be_zero (v : Nat) : be v 0 = [] := rfl

theorem be_succ (v n : Nat) : be v (n + 1) = BitVec.ofNat 8 (v / 256 ^ n) :: be v n := rfl

theorem beAcc_eq (acc : Nat) (bs : List Byte) : beAcc acc bs = acc * 256 ^ bs.length + beAcc 0 bs := by
  induction bs generalizing acc with
  | nil => simp [beAcc]
  | cons b bs ih => rw [beAcc, ih, beAcc, ih (0 * 256 + b.toNat), List.length_cons]; ring

@[simp] theorem beVal_nil : beVal [] = 0 := rfl

theorem beVal_cons (b : Byte) (bs : List Byte) : beVal (b :: bs) = b.toNat * 256 ^ bs.length + beVal bs := by
  rw [beVal, beAcc, beAcc_eq]; simp [beVal]

theorem beVal_append (as bs : List Byte) : beVal (as ++ bs) = beVal as * 256 ^ bs.length + beVal bs := by
  induction as with
  | nil => simp
  | cons a as ih => rw [List.cons_append, beVal_cons, beVal_cons, ih, List.length_append, pow_add]; ring

theorem beVal_lt (bs : List Byte) : beVal bs < 256 ^ bs.length := by
  induction bs with
  | nil => simp
  | cons b bs ih =>
    have hb : b.toNat ≤ 255 := by have := b.isLt; omega
    have : b.toNat * 256 ^ bs.length ≤ 255 * 256 ^ bs.length := Nat.mul_le_mul_right _ hb
    rw [beVal_cons, List.length_cons, pow_succ]
    omega

/-- Reading back what was written big-endian gives the number, as far as the octets reach. -/
theorem beVal_be (v n : Nat) : beVal (be v n) = v % 256 ^ n := by
  induction n with
  | zero => simp [Nat.mod_one]
  | succ n ih =>
    have h : v % 256 ^ (n + 1) = v % 256 ^ n + 256 ^ n * (v / 256 ^ n % 256) := by rw [pow_succ, Nat.mod_mul]
    rw [be_succ, beVal_cons, be_length, ih, h, Nat.add_comm, Nat.mul_comm]
    rfl

theorem beVal_be_of_lt {v n : Nat} (h : v < 256 ^ n) : beVal (be v n) = v := by
  rw [beVal_be, Nat.mod_eq_of_lt h]

theorem be_add_mul (v k n m : Nat) (h : n ≤ m) : be (k * 256 ^ m + v) n = be v n := by
  induction n with
  | zero => rfl
  | succ n ih =>
    obtain ⟨d, rfl⟩ : ∃ d, m = n + 1 + d := ⟨m - (n + 1), by omega⟩
    have hpos : 0 < 256 ^ n := by positivity
    rw [be_succ, be_succ, ih (by omega)]
    congr 1
    have : k * 256 ^ (n + 1 + d) + v = v + 256 ^ n * (256 * (k * 256 ^ d)) := by ring
    rw [this, Nat.add_mul_div_left _ _ hpos]
    apply BitVec.eq_of_toNat_eq
    simp [Nat.add_mod]

/-- Writing back what was read big-endian gives the octets. -/
theorem be_beVal (bs : List Byte) : be (beVal bs) bs.length = bs := by
  induction bs with
  | nil => rfl
  | cons b bs ih =>
    rw [List.length_cons, be_succ, beVal_cons]
    congr 1
    · rw [Nat.mul_comm, Nat.mul_add_div (by positivity), Nat.div_eq_of_lt (beVal_lt bs)]
      simp
    · rw [be_add_mul _ _ _ _ le_rfl, ih]

theorem be_mod (v n : Nat) : be (v % 256 ^ n) n = be v n := by
  conv_rhs => rw [← Nat.div_add_mod v (256 ^ n), Nat.mul_comm, be_add_mul _ _ _ _ le_rfl]

/-! ## Operands -/

@[simp] theorem half_octets (v : Half) (a b : Byte) (h : be v.toNat 2 = [a, b]) : half a b = v := by
  have := beVal_be_of_lt (v := v.toNat) (n := 2) (by have := v.isLt; simpa using this)
  rw [h] at this
  simp [half, this]

theorem word_octets (v : Word) (a b c d : Byte) (h : be v.toNat 4 = [a, b, c, d]) : word a b c d = v := by
  have := beVal_be_of_lt (v := v.toNat) (n := 4) (by have := v.isLt; simpa using this)
  rw [h] at this
  simp [word, this]

theorem long_octets (v : Long) (a b c d e f g k : Byte) (h : be v.toNat 8 = [a, b, c, d, e, f, g, k]) :
    long a b c d e f g k = v := by
  have := beVal_be_of_lt (v := v.toNat) (n := 8) (by have := v.isLt; simpa using this)
  rw [h] at this
  simp [long, this]

theorem be_half (a b : Byte) : be (half a b).toNat 2 = [a, b] := by
  have h : beVal [a, b] < 2 ^ 16 := by simpa using beVal_lt [a, b]
  have := be_beVal [a, b]
  rwa [half, BitVec.toNat_ofNat, Nat.mod_eq_of_lt h]

theorem be_word (a b c d : Byte) : be (word a b c d).toNat 4 = [a, b, c, d] := by
  have h : beVal [a, b, c, d] < 2 ^ 32 := by simpa using beVal_lt [a, b, c, d]
  have := be_beVal [a, b, c, d]
  rwa [word, BitVec.toNat_ofNat, Nat.mod_eq_of_lt h]

theorem be_long (a b c d e f g k : Byte) : be (long a b c d e f g k).toNat 8 = [a, b, c, d, e, f, g, k] := by
  have h : beVal [a, b, c, d, e, f, g, k] < 2 ^ 64 := by simpa using beVal_lt [a, b, c, d, e, f, g, k]
  have := be_beVal [a, b, c, d, e, f, g, k]
  rwa [long, BitVec.toNat_ofNat, Nat.mod_eq_of_lt h]

/-! ## The first octet of a tag header -/

/-- The three fields of a first octet come back from it. -/
theorem head_fields (n : Fin 16) (c : Bool) (lv : BitVec 3) :
    headNibble (headOctet n.val c lv.toNat) = n.val ∧ headClass (headOctet n.val c lv.toNat) = c
      ∧ headLv (headOctet n.val c lv.toNat) = lv := by
  revert n c lv; decide

/-- A first octet is made of its three fields. -/
theorem headOctet_fields (b : Byte) : headOctet (headNibble b) (headClass b) (headLv b).toNat = b := by
  revert b; decide

theorem headNibble_lt (b : Byte) : headNibble b < 16 := (b.extractLsb' 4 4).isLt

end Sys2Proof.Machine
end

