-- ==== Sys2Proof/Laws/State.lean ====
section
/-! SUPPORT. The register updates, field by field, and the equations of the shared operations that are plain
compositions of them. -/

namespace Sys2Proof.Machine

/-! ## `State.setResults` -/

@[simp] theorem State.setResults_ibuf (s : State) (r : Results) : (s.setResults r).ibuf = s.ibuf := rfl
@[simp] theorem State.setResults_ilen (s : State) (r : Results) : (s.setResults r).ilen = s.ilen := rfl
@[simp] theorem State.setResults_rpos (s : State) (r : Results) : (s.setResults r).rpos = s.rpos := rfl
@[simp] theorem State.setResults_rerr (s : State) (r : Results) : (s.setResults r).rerr = s.rerr := rfl
@[simp] theorem State.setResults_obuf (s : State) (r : Results) : (s.setResults r).obuf = s.obuf := rfl
@[simp] theorem State.setResults_wpos (s : State) (r : Results) : (s.setResults r).wpos = s.wpos := rfl
@[simp] theorem State.setResults_werr (s : State) (r : Results) : (s.setResults r).werr = s.werr := rfl
@[simp] theorem State.setResults_halt (s : State) (r : Results) : (s.setResults r).halt = s.halt := rfl
@[simp] theorem State.setResults_st (s : State) (r : Results) : (s.setResults r).st = r.st := rfl
@[simp] theorem State.setResults_rk (s : State) (r : Results) : (s.setResults r).rk = r.rk := rfl
@[simp] theorem State.setResults_rt (s : State) (r : Results) : (s.setResults r).rt = r.rt := rfl
@[simp] theorem State.setResults_rc (s : State) (r : Results) : (s.setResults r).rc = r.rc := rfl
@[simp] theorem State.setResults_rl (s : State) (r : Results) : (s.setResults r).rl = r.rl := rfl
@[simp] theorem State.setResults_rv (s : State) (r : Results) : (s.setResults r).rv = r.rv := rfl
@[simp] theorem State.setResults_rn (s : State) (r : Results) : (s.setResults r).rn = r.rn := rfl
@[simp] theorem State.setResults_stream (s : State) (r : Results) : (s.setResults r).stream = s.stream := rfl

/-! ## `State.setEnc` -/

@[simp] theorem State.setEnc_ibuf (s : State) (obuf : Memory) (wpos : Half) (werr : BitVec 4) : (s.setEnc obuf wpos werr).ibuf = s.ibuf := rfl
@[simp] theorem State.setEnc_ilen (s : State) (obuf : Memory) (wpos : Half) (werr : BitVec 4) : (s.setEnc obuf wpos werr).ilen = s.ilen := rfl
@[simp] theorem State.setEnc_rpos (s : State) (obuf : Memory) (wpos : Half) (werr : BitVec 4) : (s.setEnc obuf wpos werr).rpos = s.rpos := rfl
@[simp] theorem State.setEnc_rerr (s : State) (obuf : Memory) (wpos : Half) (werr : BitVec 4) : (s.setEnc obuf wpos werr).rerr = s.rerr := rfl
@[simp] theorem State.setEnc_obuf (s : State) (obuf : Memory) (wpos : Half) (werr : BitVec 4) : (s.setEnc obuf wpos werr).obuf = obuf := rfl
@[simp] theorem State.setEnc_wpos (s : State) (obuf : Memory) (wpos : Half) (werr : BitVec 4) : (s.setEnc obuf wpos werr).wpos = wpos := rfl
@[simp] theorem State.setEnc_werr (s : State) (obuf : Memory) (wpos : Half) (werr : BitVec 4) : (s.setEnc obuf wpos werr).werr = werr := rfl
@[simp] theorem State.setEnc_halt (s : State) (obuf : Memory) (wpos : Half) (werr : BitVec 4) : (s.setEnc obuf wpos werr).halt = s.halt := rfl
@[simp] theorem State.setEnc_st (s : State) (obuf : Memory) (wpos : Half) (werr : BitVec 4) : (s.setEnc obuf wpos werr).st = s.st := rfl
@[simp] theorem State.setEnc_rk (s : State) (obuf : Memory) (wpos : Half) (werr : BitVec 4) : (s.setEnc obuf wpos werr).rk = s.rk := rfl
@[simp] theorem State.setEnc_rt (s : State) (obuf : Memory) (wpos : Half) (werr : BitVec 4) : (s.setEnc obuf wpos werr).rt = s.rt := rfl
@[simp] theorem State.setEnc_rc (s : State) (obuf : Memory) (wpos : Half) (werr : BitVec 4) : (s.setEnc obuf wpos werr).rc = s.rc := rfl
@[simp] theorem State.setEnc_rl (s : State) (obuf : Memory) (wpos : Half) (werr : BitVec 4) : (s.setEnc obuf wpos werr).rl = s.rl := rfl
@[simp] theorem State.setEnc_rv (s : State) (obuf : Memory) (wpos : Half) (werr : BitVec 4) : (s.setEnc obuf wpos werr).rv = s.rv := rfl
@[simp] theorem State.setEnc_rn (s : State) (obuf : Memory) (wpos : Half) (werr : BitVec 4) : (s.setEnc obuf wpos werr).rn = s.rn := rfl
@[simp] theorem State.setEnc_stream (s : State) (obuf : Memory) (wpos : Half) (werr : BitVec 4) : (s.setEnc obuf wpos werr).stream = s.stream := rfl

/-! ## `State.setDec` -/

@[simp] theorem State.setDec_ibuf (s : State) (ibuf : Memory) (ilen rpos : Half) (rerr : BitVec 4) : (s.setDec ibuf ilen rpos rerr).ibuf = ibuf := rfl
@[simp] theorem State.setDec_ilen (s : State) (ibuf : Memory) (ilen rpos : Half) (rerr : BitVec 4) : (s.setDec ibuf ilen rpos rerr).ilen = ilen := rfl
@[simp] theorem State.setDec_rpos (s : State) (ibuf : Memory) (ilen rpos : Half) (rerr : BitVec 4) : (s.setDec ibuf ilen rpos rerr).rpos = rpos := rfl
@[simp] theorem State.setDec_rerr (s : State) (ibuf : Memory) (ilen rpos : Half) (rerr : BitVec 4) : (s.setDec ibuf ilen rpos rerr).rerr = rerr := rfl
@[simp] theorem State.setDec_obuf (s : State) (ibuf : Memory) (ilen rpos : Half) (rerr : BitVec 4) : (s.setDec ibuf ilen rpos rerr).obuf = s.obuf := rfl
@[simp] theorem State.setDec_wpos (s : State) (ibuf : Memory) (ilen rpos : Half) (rerr : BitVec 4) : (s.setDec ibuf ilen rpos rerr).wpos = s.wpos := rfl
@[simp] theorem State.setDec_werr (s : State) (ibuf : Memory) (ilen rpos : Half) (rerr : BitVec 4) : (s.setDec ibuf ilen rpos rerr).werr = s.werr := rfl
@[simp] theorem State.setDec_halt (s : State) (ibuf : Memory) (ilen rpos : Half) (rerr : BitVec 4) : (s.setDec ibuf ilen rpos rerr).halt = s.halt := rfl
@[simp] theorem State.setDec_st (s : State) (ibuf : Memory) (ilen rpos : Half) (rerr : BitVec 4) : (s.setDec ibuf ilen rpos rerr).st = s.st := rfl
@[simp] theorem State.setDec_rk (s : State) (ibuf : Memory) (ilen rpos : Half) (rerr : BitVec 4) : (s.setDec ibuf ilen rpos rerr).rk = s.rk := rfl
@[simp] theorem State.setDec_rt (s : State) (ibuf : Memory) (ilen rpos : Half) (rerr : BitVec 4) : (s.setDec ibuf ilen rpos rerr).rt = s.rt := rfl
@[simp] theorem State.setDec_rc (s : State) (ibuf : Memory) (ilen rpos : Half) (rerr : BitVec 4) : (s.setDec ibuf ilen rpos rerr).rc = s.rc := rfl
@[simp] theorem State.setDec_rl (s : State) (ibuf : Memory) (ilen rpos : Half) (rerr : BitVec 4) : (s.setDec ibuf ilen rpos rerr).rl = s.rl := rfl
@[simp] theorem State.setDec_rv (s : State) (ibuf : Memory) (ilen rpos : Half) (rerr : BitVec 4) : (s.setDec ibuf ilen rpos rerr).rv = s.rv := rfl
@[simp] theorem State.setDec_rn (s : State) (ibuf : Memory) (ilen rpos : Half) (rerr : BitVec 4) : (s.setDec ibuf ilen rpos rerr).rn = s.rn := rfl
@[simp] theorem State.setDec_stream (s : State) (ibuf : Memory) (ilen rpos : Half) (rerr : BitVec 4) : (s.setDec ibuf ilen rpos rerr).stream = s.stream := rfl

/-! ## `State.setHalt` -/

@[simp] theorem State.setHalt_ibuf (s : State) (h : Bool) : (s.setHalt h).ibuf = s.ibuf := rfl
@[simp] theorem State.setHalt_ilen (s : State) (h : Bool) : (s.setHalt h).ilen = s.ilen := rfl
@[simp] theorem State.setHalt_rpos (s : State) (h : Bool) : (s.setHalt h).rpos = s.rpos := rfl
@[simp] theorem State.setHalt_rerr (s : State) (h : Bool) : (s.setHalt h).rerr = s.rerr := rfl
@[simp] theorem State.setHalt_obuf (s : State) (h : Bool) : (s.setHalt h).obuf = s.obuf := rfl
@[simp] theorem State.setHalt_wpos (s : State) (h : Bool) : (s.setHalt h).wpos = s.wpos := rfl
@[simp] theorem State.setHalt_werr (s : State) (h : Bool) : (s.setHalt h).werr = s.werr := rfl
@[simp] theorem State.setHalt_halt (s : State) (h : Bool) : (s.setHalt h).halt = h := rfl
@[simp] theorem State.setHalt_st (s : State) (h : Bool) : (s.setHalt h).st = s.st := rfl
@[simp] theorem State.setHalt_rk (s : State) (h : Bool) : (s.setHalt h).rk = s.rk := rfl
@[simp] theorem State.setHalt_rt (s : State) (h : Bool) : (s.setHalt h).rt = s.rt := rfl
@[simp] theorem State.setHalt_rc (s : State) (h : Bool) : (s.setHalt h).rc = s.rc := rfl
@[simp] theorem State.setHalt_rl (s : State) (h : Bool) : (s.setHalt h).rl = s.rl := rfl
@[simp] theorem State.setHalt_rv (s : State) (h : Bool) : (s.setHalt h).rv = s.rv := rfl
@[simp] theorem State.setHalt_rn (s : State) (h : Bool) : (s.setHalt h).rn = s.rn := rfl
@[simp] theorem State.setHalt_stream (s : State) (h : Bool) : (s.setHalt h).stream = s.stream := rfl

/-! ## `State.setStream` -/

@[simp] theorem State.setStream_ibuf (s : State) (bs : List Byte) : (s.setStream bs).ibuf = s.ibuf := rfl
@[simp] theorem State.setStream_ilen (s : State) (bs : List Byte) : (s.setStream bs).ilen = s.ilen := rfl
@[simp] theorem State.setStream_rpos (s : State) (bs : List Byte) : (s.setStream bs).rpos = s.rpos := rfl
@[simp] theorem State.setStream_rerr (s : State) (bs : List Byte) : (s.setStream bs).rerr = s.rerr := rfl
@[simp] theorem State.setStream_obuf (s : State) (bs : List Byte) : (s.setStream bs).obuf = s.obuf := rfl
@[simp] theorem State.setStream_wpos (s : State) (bs : List Byte) : (s.setStream bs).wpos = s.wpos := rfl
@[simp] theorem State.setStream_werr (s : State) (bs : List Byte) : (s.setStream bs).werr = s.werr := rfl
@[simp] theorem State.setStream_halt (s : State) (bs : List Byte) : (s.setStream bs).halt = s.halt := rfl
@[simp] theorem State.setStream_st (s : State) (bs : List Byte) : (s.setStream bs).st = s.st := rfl
@[simp] theorem State.setStream_rk (s : State) (bs : List Byte) : (s.setStream bs).rk = s.rk := rfl
@[simp] theorem State.setStream_rt (s : State) (bs : List Byte) : (s.setStream bs).rt = s.rt := rfl
@[simp] theorem State.setStream_rc (s : State) (bs : List Byte) : (s.setStream bs).rc = s.rc := rfl
@[simp] theorem State.setStream_rl (s : State) (bs : List Byte) : (s.setStream bs).rl = s.rl := rfl
@[simp] theorem State.setStream_rv (s : State) (bs : List Byte) : (s.setStream bs).rv = s.rv := rfl
@[simp] theorem State.setStream_rn (s : State) (bs : List Byte) : (s.setStream bs).rn = s.rn := rfl
@[simp] theorem State.setStream_stream (s : State) (bs : List Byte) : (s.setStream bs).stream = bs := rfl

/-! ## `State.report` -/

@[simp] theorem State.report_ibuf (s : State) (code : BitVec 4) : (s.report code).ibuf = s.ibuf := rfl
@[simp] theorem State.report_ilen (s : State) (code : BitVec 4) : (s.report code).ilen = s.ilen := rfl
@[simp] theorem State.report_rpos (s : State) (code : BitVec 4) : (s.report code).rpos = s.rpos := rfl
@[simp] theorem State.report_rerr (s : State) (code : BitVec 4) : (s.report code).rerr = s.rerr := rfl
@[simp] theorem State.report_obuf (s : State) (code : BitVec 4) : (s.report code).obuf = s.obuf := rfl
@[simp] theorem State.report_wpos (s : State) (code : BitVec 4) : (s.report code).wpos = s.wpos := rfl
@[simp] theorem State.report_werr (s : State) (code : BitVec 4) : (s.report code).werr = s.werr := rfl
@[simp] theorem State.report_halt (s : State) (code : BitVec 4) : (s.report code).halt = s.halt := rfl
@[simp] theorem State.report_st (s : State) (code : BitVec 4) : (s.report code).st = code := rfl
@[simp] theorem State.report_rk (s : State) (code : BitVec 4) : (s.report code).rk = 0 := rfl
@[simp] theorem State.report_rt (s : State) (code : BitVec 4) : (s.report code).rt = 0 := rfl
@[simp] theorem State.report_rc (s : State) (code : BitVec 4) : (s.report code).rc = false := rfl
@[simp] theorem State.report_rl (s : State) (code : BitVec 4) : (s.report code).rl = 0 := rfl
@[simp] theorem State.report_rv (s : State) (code : BitVec 4) : (s.report code).rv = 0 := rfl
@[simp] theorem State.report_rn (s : State) (code : BitVec 4) : (s.report code).rn = 0 := rfl
@[simp] theorem State.report_stream (s : State) (code : BitVec 4) : (s.report code).stream = s.stream := rfl

/-! ## Faults -/

@[simp] theorem State.raise_enc (s : State) (e : Status) :
    s.raise .enc e = (s.report e.code).setEnc s.obuf s.wpos e.code := rfl
@[simp] theorem State.raise_dec (s : State) (e : Status) :
    s.raise .dec e = (s.report e.code).setDec s.ibuf s.ilen s.rpos e.code := rfl
@[simp] theorem State.raise_neutral (s : State) (e : Status) : s.raise .neutral e = s.report e.code := rfl
@[simp] theorem sticky_enc (s : State) : sticky .enc s = s.werr := rfl
@[simp] theorem sticky_dec (s : State) : sticky .dec s = s.rerr := rfl
@[simp] theorem sticky_neutral (s : State) : sticky .neutral s = 0 := rfl

/-! ## Status codes -/

@[simp] theorem Status.code_ok : Status.ok.code = 0 := rfl
@[simp] theorem Status.code_nullValue : Status.nullValue.code = 1 := rfl
@[simp] theorem Status.code_malformedTag : Status.malformedTag.code = 2 := rfl
@[simp] theorem Status.code_unsupportedValueType : Status.unsupportedValueType.code = 3 := rfl
@[simp] theorem Status.code_unsupportedTag : Status.unsupportedTag.code = 4 := rfl
@[simp] theorem Status.code_insufficientBytes : Status.insufficientBytes.code = 5 := rfl
@[simp] theorem Status.code_bufferOverflow : Status.bufferOverflow.code = 6 := rfl
@[simp] theorem Status.code_badCommand : Status.badCommand.code = 7 := rfl

/-! ## The parameters of this hardware -/

@[simp] theorem hw_tagMax : hw.tagMax = 254 := rfl
@[simp] theorem hw_valOctets : hw.valOctets = 4 := rfl
@[simp] theorem hw_ibufCap : hw.ibufCap = 2048 := rfl
@[simp] theorem hw_obufCap : hw.obufCap = 2048 := rfl
@[simp] theorem hw_yearBase : hw.yearBase = 1990 := rfl
@[simp] theorem hw_yearUnspec : hw.yearUnspec = 255 := rfl
@[simp] theorem hw_protocolVersion : hw.protocolVersion = 1 := rfl
@[simp] theorem hw_apptag (k : Kind) : hw.apptag k = k.code := rfl
@[simp] theorem hw_objTypeW : hw.objTypeW = 10 := rfl
@[simp] theorem hw_objInstW : hw.objInstW = 22 := rfl
@[simp] theorem hw_apduLimits : hw.apduLimits = [50, 128, 206, 480, 1024, 1476] := rfl

/-- The parameters of this hardware are among those R7 allows. -/
theorem hw_valid : hw.Valid where
  tagMax := rfl
  lvW := rfl
  valW := rfl
  ibufCap := by decide
  obufCap := by decide
  yearBase := by decide
  yearUnspec := rfl
  protocolVersion := rfl
  apptag_le := by intro k; cases k <;> decide
  apptag_injective := by intro a b h; cases a <;> cases b <;> first | rfl | (exact absurd h (by decide))
  apptag_real := rfl
  objTypeW := rfl
  objInstW := rfl
  apduLimits := rfl

end Sys2Proof.Machine
end

