-- ==== Sys2Proof/Laws/Codec.lean ====
section
/-! SUPPORT. What the pure functions of the codec can give: the faults they name, and that no decode helper consumes more
octets than there are (R53). -/

namespace Sys2Proof.Machine

/-- What every emission of an ENC command satisfies: its only operand fault is UnsupportedValueType (R241), and its kind
and tag number are legal values of `RK` and `RT` (R33). -/
def EmissionLegal : Except Status Emission → Prop
  | .error e => e = .unsupportedValueType
  | .ok em => em.res.rk.toNat ≤ 12 ∧ em.res.rt.toNat ≤ 254

/-- What a decode of `avail` octets may give: one of the faults of class DEC (R241), or no more octets consumed than there
are (R53) and a legal status, kind and tag number (R33). -/
def DecodedLegal (avail : Nat) : Except Status Decoded → Prop
  | .error e => e = .malformedTag ∨ e = .unsupportedTag ∨ e = .insufficientBytes
  | .ok d => d.n ≤ avail ∧ (d.res.st = 0 ∨ d.res.st = 1) ∧ d.res.rk.toNat ≤ 12 ∧ d.res.rt.toNat ≤ 254

/-- What every decode helper satisfies. -/
def HelperLegal (f : List Byte → Nat → Except Status Decoded) : Prop :=
  ∀ inp base, DecodedLegal inp.length (f inp base)

/-! ## Headers -/

/-- A length extension takes no more octets than follow the tag number, and its only fault is MalformedTag (R113). -/
theorem decLenExt_cases (lv : BitVec 3) (rest : List Byte) :
    decLenExt lv rest = .error .malformedTag ∨ ∃ L k, decLenExt lv rest = .ok (L, k) ∧ k ≤ rest.length := by
  unfold decLenExt
  split
  · split
    · exact .inl rfl
    · split
      · split
        · exact .inl rfl
        · exact .inr ⟨_, _, rfl, by simp; omega⟩
      · split
        · split
          · exact .inl rfl
          · exact .inr ⟨_, _, rfl, by simp; omega⟩
        · exact .inr ⟨_, _, rfl, by simp⟩
  · exact .inr ⟨_, _, rfl, by simp⟩

/-- What a decoded header is (R113): its tag number is legal, it took at least one octet and no more than there are. -/
theorem decTag_ok {cfg : Config} {inp : List Byte} {h : Header} (hd : decTag cfg inp = .ok h) :
    1 ≤ h.n ∧ h.n ≤ inp.length ∧ (h.t ≤ 14 ∨ h.t ≤ cfg.tagMax) := by
  cases inp with
  | nil => simp [decTag] at hd
  | cons b0 r =>
    simp only [decTag] at hd
    split at hd
    · cases r with
      | nil => simp at hd
      | cons t r =>
        simp only at hd
        split at hd
        · simp at hd
        · rcases decLenExt_cases (headLv b0) r with he | ⟨L, k, he, hk⟩
          · simp [he] at hd
          · simp only [he, Except.ok.injEq] at hd
            subst hd
            refine ⟨?_, ?_, ?_⟩ <;> simp <;> omega
    · rcases decLenExt_cases (headLv b0) r with he | ⟨L, k, he, hk⟩
      · simp [he] at hd
      · simp only [he, Except.ok.injEq] at hd
        subst hd
        have := headNibble_lt b0
        refine ⟨?_, ?_, ?_⟩ <;> simp <;> omega

/-- The faults of a header (R113). -/
theorem decTag_error {cfg : Config} {inp : List Byte} {e : Status} (hd : decTag cfg inp = .error e) :
    e = .malformedTag ∨ e = .insufficientBytes := by
  cases inp with
  | nil => simp [decTag] at hd; exact .inr hd.symm
  | cons b0 r =>
    left
    simp only [decTag] at hd
    split at hd
    · cases r with
      | nil => simpa using hd.symm
      | cons t r =>
        simp only at hd
        split at hd
        · simpa using hd.symm
        · rcases decLenExt_cases (headLv b0) r with he | ⟨L, k, he, hk⟩
          · simpa [he] using hd.symm
          · simp [he] at hd
    · rcases decLenExt_cases (headLv b0) r with he | ⟨L, k, he, hk⟩
      · simpa [he] using hd.symm
      · simp [he] at hd

/-! ## Payloads -/

theorem fixedValue_cases (k : Nat) (inp : List Byte) :
    (inp.length < k ∧ fixedValue k inp = .error .insufficientBytes)
    ∨ (k ≤ inp.length ∧ fixedValue k inp = .ok (BitVec.ofNat 64 (beVal (inp.take k)))) := by
  unfold fixedValue
  split
  · exact .inl ⟨‹_›, rfl⟩
  · exact .inr ⟨by omega, rfl⟩

theorem dateValue_cases (cfg : Config) (inp : List Byte) :
    (inp.length < 4 ∧ dateValue cfg inp = .error .insufficientBytes)
    ∨ (4 ≤ inp.length ∧ ∃ rv, dateValue cfg inp = .ok rv) := by
  match inp with
  | [] => exact .inl ⟨by simp, rfl⟩
  | [_] => exact .inl ⟨by simp, rfl⟩
  | [_, _] => exact .inl ⟨by simp, rfl⟩
  | [_, _, _] => exact .inl ⟨by simp, rfl⟩
  | _ :: _ :: _ :: _ :: _ => exact .inr ⟨by simp, _, rfl⟩

theorem timeValue_cases (inp : List Byte) :
    (inp.length < 4 ∧ timeValue inp = .error .insufficientBytes)
    ∨ (4 ≤ inp.length ∧ ∃ rv, timeValue inp = .ok rv) := by
  match inp with
  | [] => exact .inl ⟨by simp, rfl⟩
  | [_] => exact .inl ⟨by simp, rfl⟩
  | [_, _] => exact .inl ⟨by simp, rfl⟩
  | [_, _, _] => exact .inl ⟨by simp, rfl⟩
  | _ :: _ :: _ :: _ :: _ => exact .inr ⟨by simp, _, rfl⟩

theorem stringValue_cases (n : Nat) (inp : List Byte) (base : Nat) :
    (inp.length < n ∧ stringValue n inp base = .error .insufficientBytes)
    ∨ (n ≤ inp.length ∧ stringValue n inp base = .ok (BitVec.ofNat 64 base)) := by
  unfold stringValue
  split
  · exact .inl ⟨by omega, rfl⟩
  · exact .inr ⟨by omega, rfl⟩

theorem decUint_cases (cfg : Config) (inp : List Byte) (n : Nat) :
    (cfg.valOctets < n ∧ decUint cfg inp n = .error .malformedTag)
    ∨ (n ≤ cfg.valOctets ∧ inp.length < n ∧ decUint cfg inp n = .error .insufficientBytes)
    ∨ (n ≤ cfg.valOctets ∧ n ≤ inp.length ∧ decUint cfg inp n = .ok (beVal (inp.take n))) := by
  unfold decUint
  split
  · exact .inl ⟨by omega, rfl⟩
  · split
    · exact .inr (.inl ⟨by omega, by omega, rfl⟩)
    · exact .inr (.inr ⟨by omega, by omega, rfl⟩)

theorem decSint_cases (cfg : Config) (inp : List Byte) (n : Nat) :
    (cfg.valOctets < n ∧ decSint cfg inp n = .error .malformedTag)
    ∨ (n ≤ cfg.valOctets ∧ inp.length < n ∧ decSint cfg inp n = .error .insufficientBytes)
    ∨ (n ≤ cfg.valOctets ∧ n ≤ inp.length ∧ decSint cfg inp n = .ok (signedOctets (beVal (inp.take n)) n)) := by
  unfold decSint
  split
  · exact .inl ⟨by omega, rfl⟩
  · split
    · exact .inr (.inl ⟨by omega, by omega, rfl⟩)
    · exact .inr (.inr ⟨by omega, by omega, rfl⟩)

/-- A payload takes no more octets than there are after the header (R195). -/
theorem decPayload_ok {cfg : Config} {k : Kind} {L : Nat} {rest : List Byte} {index : Nat} {rv : Long} {m : Nat}
    (h : decPayload cfg k L rest index = .ok (rv, m)) : m ≤ rest.length := by
  cases k <;> simp only [decPayload, uintPayload, sintPayload, withCount] at h
  case null => simp at h; omega
  case boolean => simp at h; omega
  case unsigned => rcases decUint_cases cfg rest L with ⟨_, e⟩ | ⟨_, _, e⟩ | ⟨_, hl, e⟩ <;> simp [e] at h; omega
  case enumerated => rcases decUint_cases cfg rest L with ⟨_, e⟩ | ⟨_, _, e⟩ | ⟨_, hl, e⟩ <;> simp [e] at h; omega
  case signed => rcases decSint_cases cfg rest L with ⟨_, e⟩ | ⟨_, _, e⟩ | ⟨_, hl, e⟩ <;> simp [e] at h; omega
  case real => rcases fixedValue_cases 4 rest with ⟨_, e⟩ | ⟨hl, e⟩ <;> simp [e] at h; omega
  case double => rcases fixedValue_cases 8 rest with ⟨_, e⟩ | ⟨hl, e⟩ <;> simp [e] at h; omega
  case octetString => simp at h
  case bitString => simp at h
  case characterString => rcases stringValue_cases L rest index with ⟨_, e⟩ | ⟨hl, e⟩ <;> simp [e] at h; omega
  case date => rcases dateValue_cases cfg rest with ⟨_, e⟩ | ⟨hl, v, e⟩ <;> simp [e] at h; omega
  case time => rcases timeValue_cases rest with ⟨_, e⟩ | ⟨hl, v, e⟩ <;> simp [e] at h; omega
  case objectIdentifier => rcases fixedValue_cases 4 rest with ⟨_, e⟩ | ⟨hl, e⟩ <;> simp [e] at h; omega

/-- The faults of a payload (R195). -/
theorem decPayload_error {cfg : Config} {k : Kind} {L : Nat} {rest : List Byte} {index : Nat} {e : Status}
    (h : decPayload cfg k L rest index = .error e) :
    e = .malformedTag ∨ e = .unsupportedTag ∨ e = .insufficientBytes := by
  cases k <;> simp only [decPayload, uintPayload, sintPayload, withCount] at h
  case null => simp at h
  case boolean => simp at h
  case unsigned => rcases decUint_cases cfg rest L with ⟨_, e⟩ | ⟨_, _, e⟩ | ⟨_, hl, e⟩ <;> simp [e] at h <;> simp [← h]
  case enumerated => rcases decUint_cases cfg rest L with ⟨_, e⟩ | ⟨_, _, e⟩ | ⟨_, hl, e⟩ <;> simp [e] at h <;> simp [← h]
  case signed => rcases decSint_cases cfg rest L with ⟨_, e⟩ | ⟨_, _, e⟩ | ⟨_, hl, e⟩ <;> simp [e] at h <;> simp [← h]
  case real => rcases fixedValue_cases 4 rest with ⟨_, e⟩ | ⟨hl, e⟩ <;> simp [e] at h; simp [← h]
  case double => rcases fixedValue_cases 8 rest with ⟨_, e⟩ | ⟨hl, e⟩ <;> simp [e] at h; simp [← h]
  case octetString => simp at h; simp [← h]
  case bitString => simp at h; simp [← h]
  case characterString => rcases stringValue_cases L rest index with ⟨_, e⟩ | ⟨hl, e⟩ <;> simp [e] at h; simp [← h]
  case date => rcases dateValue_cases cfg rest with ⟨_, e⟩ | ⟨hl, v, e⟩ <;> simp [e] at h; simp [← h]
  case time => rcases timeValue_cases rest with ⟨_, e⟩ | ⟨hl, v, e⟩ <;> simp [e] at h; simp [← h]
  case objectIdentifier => rcases fixedValue_cases 4 rest with ⟨_, e⟩ | ⟨hl, e⟩ <;> simp [e] at h; simp [← h]

/-! ## The helpers of the commands -/

theorem valueStatus_code (k : Kind) : (valueStatus k).code = 0 ∨ (valueStatus k).code = 1 := by
  cases k <;> decide

theorem Kind.code_le (k : Kind) : (BitVec.ofNat 4 k.code).toNat ≤ 12 := by
  cases k <;> decide

theorem tagOctet_le {t : Nat} (h : t ≤ 14 ∨ t ≤ hw.tagMax) : (BitVec.ofNat 8 t).toNat ≤ 254 := by
  simp only [hw_tagMax] at h
  simp only [BitVec.toNat_ofNat]
  omega

theorem decodedValue_legal {k : Kind} {h : Header} {rv : Long} {m avail : Nat} (hn : h.n + m ≤ avail)
    (ht : h.t ≤ 14 ∨ h.t ≤ hw.tagMax) : DecodedLegal avail (.ok (decodedValue k h rv m)) :=
  ⟨hn, valueStatus_code k, Kind.code_le k, tagOctet_le ht⟩

theorem readTag_legal : HelperLegal fun inp _ => readTag hw inp := by
  intro inp base
  simp only [readTag]
  split
  · rcases decTag_error ‹_› with h | h <;> simp [DecodedLegal, h]
  · have h := decTag_ok ‹_›
    exact ⟨h.2.1, .inl rfl, by simp, tagOctet_le h.2.2⟩

theorem readUint_legal (n : Byte) : HelperLegal fun inp _ => readUint hw n inp := by
  intro inp base
  rcases decUint_cases hw inp n.toNat with ⟨_, e⟩ | ⟨_, _, e⟩ | ⟨_, hl, e⟩ <;> simp_all [readUint, DecodedLegal]

theorem readSint_legal (n : Byte) : HelperLegal fun inp _ => readSint hw n inp := by
  intro inp base
  rcases decSint_cases hw inp n.toNat with ⟨_, e⟩ | ⟨_, _, e⟩ | ⟨_, hl, e⟩ <;> simp_all [readSint, DecodedLegal]

/-- A body decode of `k` octets is legal where its value needs `k` octets and its one fault is InsufficientBytes. -/
theorem readBody_legal {k : Nat} {v : List Byte → Nat → Except Status Long}
    (hv : ∀ inp base, (inp.length < k ∧ v inp base = .error .insufficientBytes)
      ∨ (k ≤ inp.length ∧ ∃ rv, v inp base = .ok rv)) :
    HelperLegal fun inp base => readBody k (v inp base) := by
  intro inp base
  rcases hv inp base with ⟨_, e⟩ | ⟨hl, rv, e⟩ <;> simp_all [readBody, DecodedLegal]

theorem decAny_legal : HelperLegal (decAny hw) := by
  intro inp base
  simp only [decAny]
  split
  · rcases decTag_error ‹_› with h | h <;> simp [DecodedLegal, h]
  · have hd := decTag_ok ‹_›
    split
    · simp [DecodedLegal]
    · split
      · exact decPayload_error ‹_›
      · have hp := decPayload_ok ‹_›
        simp only [List.length_drop] at hp
        exact decodedValue_legal (by omega) hd.2.2

/-! ## The wire-tag rows -/

/-- A wire-tag row, as the helper of a DEC command, is legal where it is legal on the octets after its own. -/
theorem wireHelper_legal {f : List Byte → Nat → Except Status Decoded}
    (hf : ∀ rest index, DecodedLegal (rest.length + 1) (f rest index)) :
    HelperLegal fun inp base => match inp with
      | [] => .error .insufficientBytes
      | _ :: rest => f rest (base + 1) := by
  intro inp base
  cases inp with
  | nil => simp [DecodedLegal]
  | cons b rest => exact hf rest (base + 1)

theorem wireUnsupported_legal (lv : BitVec 3) (rest : List Byte) :
    DecodedLegal (rest.length + 1) (wireUnsupported lv rest) := by
  rcases decLenExt_cases lv rest with e | ⟨L, k, e, hk⟩ <;> simp [wireUnsupported, e, DecodedLegal]

/-- A row of a supported kind is legal where its payload takes no more octets than there are and names a fault of class
DEC. -/
theorem wireRow_legal {k : Kind} {t : Nat} (c : Bool) (lv : BitVec 3)
    {payload : Nat → List Byte → Nat → Except Status (Long × Nat)} (ht : t ≤ 14)
    (hp : ∀ L rest i, payload L rest i = decPayload hw k L rest i) (rest : List Byte) (index : Nat) :
    DecodedLegal (rest.length + 1) (wireRow k t c lv payload rest index) := by
  rcases decLenExt_cases lv rest with e | ⟨L, n, e, hn⟩
  · simp [wireRow, e, DecodedLegal]
  · simp only [wireRow, e, hp]
    split
    · exact decPayload_error ‹_›
    · have h := decPayload_ok ‹_›
      simp only [List.length_drop] at h
      exact decodedValue_legal (by simp only; omega) (.inl ht)

theorem wireExt_legal (c : Bool) (lv : BitVec 3) (rest : List Byte) (index : Nat) :
    DecodedLegal (rest.length + 1) (wireExt hw c lv rest index) := by
  cases rest with
  | nil => simp [wireExt, DecodedLegal]
  | cons t r =>
    simp only [wireExt]
    split
    · simp [DecodedLegal]
    · rcases decLenExt_cases lv r with e | ⟨L, n, e, hn⟩
      · simp [e, DecodedLegal]
      · simp only [e]
        split
        · simp [DecodedLegal]
        · split
          · exact decPayload_error ‹_›
          · have h := decPayload_ok ‹_›
            simp only [List.length_drop] at h
            exact decodedValue_legal (by simp only [List.length_cons]; omega) (.inr (by simp_all))

/-! ## The emissions of the commands -/

theorem emitTag_legal (tn flags : Byte) (lv : Word) : EmissionLegal (emitTag hw tn flags lv) := by
  simp only [emitTag]
  split
  · rfl
  · rename_i h
    simp only [hw_tagMax, not_or] at h
    exact ⟨by simp, by simp only; omega⟩

theorem emitBody_legal {p : Except Status (List Byte)} (rv : Long)
    (hp : ∀ e, p = .error e → e = .unsupportedValueType) : EmissionLegal (emitBody p rv) := by
  cases p with
  | error e => exact hp e rfl
  | ok out => exact ⟨by simp, by simp⟩

theorem datePayload_error {cfg : Config} {year : Half} {month day dow : Byte} {e : Status}
    (h : datePayload cfg year month day dow = .error e) : e = .unsupportedValueType := by
  unfold datePayload wireYear at h
  split_ifs at h
  all_goals simp_all

theorem timePayload_error {hour minute second : Byte} {ms : Half} {e : Status}
    (h : timePayload hour minute second ms = .error e) : e = .unsupportedValueType := by
  unfold timePayload centiseconds at h
  split_ifs at h
  all_goals simp_all

theorem oidPayload_error {cfg : Config} {type : Half} {inst : Word} {e : Status}
    (h : oidPayload cfg type inst = .error e) : e = .unsupportedValueType := by
  unfold oidPayload oidWord at h
  split_ifs at h
  all_goals simp_all

theorem emitApp_legal (k : Kind) (lv : Nat) (rv : Long) (p : List Byte) :
    EmissionLegal (.ok (emitApp hw k lv rv p)) :=
  ⟨Kind.code_le k, tagOctet_le (.inl (hw_valid.apptag_le k))⟩

theorem emitAppDate_legal (year : Half) (month day dow : Byte) :
    EmissionLegal (emitAppDate hw year month day dow) := by
  unfold emitAppDate
  split
  · exact datePayload_error ‹_›
  · exact emitApp_legal _ _ _ _

theorem emitAppTime_legal (hour minute second : Byte) (ms : Half) :
    EmissionLegal (emitAppTime hw hour minute second ms) := by
  unfold emitAppTime
  split
  · exact timePayload_error ‹_›
  · exact emitApp_legal _ _ _ _

theorem emitAppOid_legal (type : Half) (inst : Word) : EmissionLegal (emitAppOid hw type inst) := by
  unfold emitAppOid
  split
  · exact oidPayload_error ‹_›
  · exact emitApp_legal _ _ _ _

theorem emitAppBool_legal (b : Byte) : EmissionLegal (emitAppBool hw b) := by
  simp only [emitAppBool]
  split
  · rfl
  · exact emitApp_legal _ _ _ _

theorem emitNpdu_legal (flags hop mtype : Byte) (vendor dnet : Half) (dadr : List Byte) (snet : Half)
    (sadr : List Byte) : EmissionLegal (emitNpdu hw flags hop mtype vendor dnet dadr snet sadr) := by
  simp only [emitNpdu]
  split
  · rfl
  · exact ⟨by simp, by simp⟩

end Sys2Proof.Machine
end

