-- ==== Sys2Proof/Laws/Memory.lean ====
section
/-! SUPPORT. Octet memories: what a read gives after a write, that every operation keeps the canonical form, and that
memories in canonical form which read alike are equal. -/

namespace Sys2Proof.Machine

/-- Every listed index of a memory is at least `a`. -/
def Memory.listedFrom (a : Nat) (m : Memory) : Prop := ∀ p ∈ m, a ≤ p.1

theorem Memory.wf_cons (a : Nat) (v : Byte) (m : Memory) :
    Memory.wf ((a, v) :: m) = true ↔ v ≠ unwritten ∧ Memory.listedFrom (a + 1) m ∧ Memory.wf m = true := by
  induction m generalizing a v with
  | nil => simp [Memory.wf, Memory.listedFrom]
  | cons p m ih =>
    obtain ⟨b, w⟩ := p
    have h := ih b w
    constructor
    · intro hw
      simp only [Memory.wf, Bool.and_eq_true, decide_eq_true_eq, bne_iff_ne] at hw
      obtain ⟨⟨hab, hv⟩, hm⟩ := hw
      refine ⟨hv, ?_, hm⟩
      intro q hq
      rcases List.mem_cons.1 hq with rfl | hq
      · exact hab
      · have := (h.1 hm).2.1 q hq
        omega
    · rintro ⟨hv, hf, hm⟩
      simp only [Memory.wf, Bool.and_eq_true, decide_eq_true_eq, bne_iff_ne]
      exact ⟨⟨hf (b, w) (by simp), hv⟩, hm⟩

theorem Memory.read_below {m : Memory} {a k : Nat} (h : Memory.listedFrom k m) (ha : a < k) :
    Memory.read m a = unwritten := by
  induction m with
  | nil => rfl
  | cons p m ih =>
    obtain ⟨b, w⟩ := p
    have hb : k ≤ b := h (b, w) (by simp)
    rw [Memory.read, if_neg (by omega), ih fun q hq => h q (by simp [hq])]

theorem Memory.write_listedFrom {m : Memory} {a k : Nat} (v : Byte) (h : Memory.listedFrom k m) (ha : k ≤ a) :
    Memory.listedFrom k (Memory.write m a v) := by
  induction m with
  | nil =>
    intro q hq
    simp only [Memory.write] at hq
    split at hq
    · simp at hq
    · simp at hq; subst hq; exact ha
  | cons p m ih =>
    obtain ⟨b, w⟩ := p
    have hm : Memory.listedFrom k m := fun q hq => h q (by simp [hq])
    have hb : k ≤ b := h (b, w) (by simp)
    intro q hq
    simp only [Memory.write] at hq
    split at hq
    · split at hq
      · exact h q hq
      · rcases List.mem_cons.1 hq with rfl | hq
        · exact ha
        · exact h q hq
    · split at hq
      · split at hq
        · exact hm q hq
        · rcases List.mem_cons.1 hq with rfl | hq
          · exact ha
          · exact hm q hq
      · rcases List.mem_cons.1 hq with rfl | hq
        · exact hb
        · exact ih hm q hq

/-- A write keeps the canonical form. -/
theorem Memory.write_wf {m : Memory} (a : Nat) (v : Byte) (h : Memory.wf m = true) :
    Memory.wf (Memory.write m a v) = true := by
  induction m with
  | nil => simp only [Memory.write]; split <;> simp_all [Memory.wf]
  | cons p m ih =>
    obtain ⟨b, w⟩ := p
    obtain ⟨hw, hf, hm⟩ := (Memory.wf_cons b w m).1 h
    simp only [Memory.write]
    split
    · rename_i hab
      split
      · exact h
      · refine (Memory.wf_cons _ _ _).2 ⟨‹_›, ?_, h⟩
        intro q hq
        rcases List.mem_cons.1 hq with rfl | hq
        · exact hab
        · have := hf q hq; omega
    · split
      · rename_i hab; subst hab
        split
        · exact hm
        · exact (Memory.wf_cons _ _ _).2 ⟨‹_›, hf, hm⟩
      · exact (Memory.wf_cons _ _ _).2 ⟨hw, Memory.write_listedFrom v hf (by omega), ih hm⟩

/-- Reading the index just written gives the octet written. -/
theorem Memory.read_write_same {m : Memory} (a : Nat) (v : Byte) (h : Memory.wf m = true) :
    Memory.read (Memory.write m a v) a = v := by
  induction m with
  | nil => simp only [Memory.write]; split <;> simp_all [Memory.read]
  | cons p m ih =>
    obtain ⟨b, w⟩ := p
    obtain ⟨-, hf, hm⟩ := (Memory.wf_cons b w m).1 h
    simp only [Memory.write]
    split
    · rename_i hab
      split
      · rename_i hv
        rw [hv, Memory.read, if_neg (by omega), Memory.read_below hf (by omega)]
      · simp [Memory.read]
    · split
      · rename_i hab; subst hab
        split
        · rename_i hv; rw [hv, Memory.read_below hf (by omega)]
        · simp [Memory.read]
      · rw [Memory.read, if_neg (by omega), ih hm]

/-- Reading any other index gives what it gave before. -/
theorem Memory.read_write_other (m : Memory) {a c : Nat} (v : Byte) (hc : c ≠ a) :
    Memory.read (Memory.write m a v) c = Memory.read m c := by
  induction m with
  | nil => simp only [Memory.write]; split <;> simp [Memory.read, hc.symm]
  | cons p m ih =>
    obtain ⟨b, w⟩ := p
    simp only [Memory.write]
    split
    · split
      · rfl
      · rw [Memory.read, if_neg (Ne.symm hc)]
    · split
      · rename_i hab; subst hab
        split
        · rw [Memory.read, if_neg (Ne.symm hc)]
        · rw [Memory.read, Memory.read, if_neg (Ne.symm hc), if_neg (Ne.symm hc)]
      · rw [Memory.read, Memory.read, ih]

/-- Writing a string keeps the canonical form. -/
theorem Memory.writeAll_wf {m : Memory} (a : Nat) (bs : List Byte) (h : Memory.wf m = true) :
    Memory.wf (Memory.writeAll m a bs) = true := by
  induction bs generalizing m a with
  | nil => exact h
  | cons b bs ih => exact ih _ (Memory.write_wf a b h)

/-- Outside the octets written, a string write changes nothing. -/
theorem Memory.read_writeAll_other (m : Memory) {a c : Nat} (bs : List Byte) (h : c < a ∨ a + bs.length ≤ c) :
    Memory.read (Memory.writeAll m a bs) c = Memory.read m c := by
  induction bs generalizing m a with
  | nil => rfl
  | cons b bs ih =>
    rw [List.length_cons] at h
    rw [Memory.writeAll, ih _ (by omega), Memory.read_write_other _ _ (by omega)]

/-- The octets written are read back, in a memory of canonical form. -/
theorem Memory.read_writeAll_same {m : Memory} (a : Nat) (bs : List Byte) (h : Memory.wf m = true) (k : Nat)
    (hk : k < bs.length) : Memory.read (Memory.writeAll m a bs) (a + k) = bs[k] := by
  induction bs generalizing m a k with
  | nil => simp at hk
  | cons b bs ih =>
    cases k with
    | zero =>
      rw [Memory.writeAll, Memory.read_writeAll_other _ _ (by omega)]
      simpa using Memory.read_write_same a b h
    | succ k =>
      have := ih (a + 1) (Memory.write_wf a b h) k (by simpa using hk)
      rw [Memory.writeAll, show a + (k + 1) = a + 1 + k by omega, this]
      rfl

@[simp] theorem Memory.readAll_length (m : Memory) (a n : Nat) : (Memory.readAll m a n).length = n := by
  induction n generalizing a with
  | zero => rfl
  | succ n ih => simp [Memory.readAll, ih]

/-- Octet `k` of a string read is the octet at its index. -/
theorem Memory.readAll_getElem (m : Memory) (a n k : Nat) (hk : k < (Memory.readAll m a n).length) :
    (Memory.readAll m a n)[k] = Memory.read m (a + k) := by
  induction n generalizing a k with
  | zero => simp [Memory.readAll] at hk
  | succ n ih =>
    cases k with
    | zero => simp [Memory.readAll]
    | succ k =>
      simp only [Memory.readAll, List.getElem_cons_succ]
      rw [ih (a + 1) k (by simpa [Memory.readAll] using hk)]
      congr 1
      omega

/-- Two string reads are equal where the octets read are. -/
theorem Memory.readAll_congr {m m' : Memory} {a n : Nat}
    (h : ∀ c, a ≤ c → c < a + n → Memory.read m c = Memory.read m' c) :
    Memory.readAll m a n = Memory.readAll m' a n := by
  induction n generalizing a with
  | zero => rfl
  | succ n ih =>
    rw [Memory.readAll, Memory.readAll, h a (by omega) (by omega), ih fun c h1 h2 => h c (by omega) (by omega)]

theorem Memory.readAll_add (m : Memory) (a n k : Nat) :
    Memory.readAll m a (n + k) = Memory.readAll m a n ++ Memory.readAll m (a + n) k := by
  induction n generalizing a with
  | zero => simp [Memory.readAll]
  | succ n ih =>
    rw [show n + 1 + k = n + k + 1 by omega, Memory.readAll, Memory.readAll, ih, List.cons_append]
    congr 3
    omega

theorem Memory.readAll_take (m : Memory) (a n k : Nat) (h : k ≤ n) :
    (Memory.readAll m a n).take k = Memory.readAll m a k := by
  obtain ⟨d, rfl⟩ := Nat.exists_eq_add_of_le h
  rw [Memory.readAll_add, List.take_left' (by simp)]

theorem Memory.readAll_drop (m : Memory) (a n k : Nat) (h : k ≤ n) :
    (Memory.readAll m a n).drop k = Memory.readAll m (a + k) (n - k) := by
  obtain ⟨d, rfl⟩ := Nat.exists_eq_add_of_le h
  rw [Memory.readAll_add, List.drop_left' (by simp)]
  congr 1
  omega

/-- The string just written is read back, in a memory of canonical form. -/
theorem Memory.readAll_writeAll {m : Memory} (a : Nat) (bs : List Byte) (h : Memory.wf m = true) :
    Memory.readAll (Memory.writeAll m a bs) a bs.length = bs := by
  apply List.ext_getElem (by simp)
  intro k h1 h2
  rw [Memory.readAll_getElem, Memory.read_writeAll_same a bs h k h2]

/-- A listed entry of a canonical memory is not the unwritten octet. -/
theorem Memory.read_head {a : Nat} {v : Byte} {m : Memory} : Memory.read ((a, v) :: m) a = v := by
  simp [Memory.read]

/-- Memories in canonical form that read alike are equal. -/
theorem Memory.ext_of_wf {m m' : Memory} (h : Memory.wf m = true) (h' : Memory.wf m' = true)
    (hr : ∀ a, Memory.read m a = Memory.read m' a) : m = m' := by
  induction m generalizing m' with
  | nil =>
    cases m' with
    | nil => rfl
    | cons p m' =>
      obtain ⟨b, w⟩ := p
      have := hr b
      rw [Memory.read_head] at this
      exact absurd this.symm ((Memory.wf_cons _ _ _).1 h').1
  | cons p m ih =>
    obtain ⟨a, v⟩ := p
    obtain ⟨hv, hf, hm⟩ := (Memory.wf_cons _ _ _).1 h
    cases m' with
    | nil =>
      have := hr a
      rw [Memory.read_head] at this
      exact absurd this hv
    | cons p m' =>
      obtain ⟨b, w⟩ := p
      obtain ⟨hw, hf', hm'⟩ := (Memory.wf_cons _ _ _).1 h'
      have hab : a = b := by
        rcases Nat.lt_trichotomy a b with hlt | heq | hgt
        · have h1 := hr a
          rw [Memory.read_head, Memory.read, if_neg (by omega), Memory.read_below hf' (by omega)] at h1
          exact absurd h1 hv
        · exact heq
        · have h1 := hr b
          rw [Memory.read_head, Memory.read, if_neg (by omega), Memory.read_below hf (by omega)] at h1
          exact absurd h1.symm hw
      subst hab
      have hvw : v = w := by simpa [Memory.read] using hr a
      subst hvw
      congr 1
      refine ih hm hm' fun c => ?_
      by_cases hc : c = a
      · subst hc
        rw [Memory.read_below hf (by omega), Memory.read_below hf' (by omega)]
      · have h1 := hr c
        rwa [Memory.read, Memory.read, if_neg (Ne.symm hc), if_neg (Ne.symm hc)] at h1

/-- A write lists no index but the one it writes. -/
theorem Memory.write_mem {m : Memory} {a : Nat} {v : Byte} {p : Host.Cell} (h : p ∈ Memory.write m a v) :
    p ∈ m ∨ p.1 = a := by
  induction m with
  | nil =>
    simp only [Memory.write] at h
    split at h <;> simp_all
  | cons q m ih =>
    obtain ⟨b, w⟩ := q
    simp only [Memory.write] at h
    split at h
    · split at h
      · exact .inl h
      · rcases List.mem_cons.1 h with rfl | h
        · exact .inr rfl
        · exact .inl h
    · split at h
      · split at h
        · exact .inl (by simp [h])
        · rcases List.mem_cons.1 h with rfl | h
          · exact .inr rfl
          · exact .inl (by simp [h])
      · rcases List.mem_cons.1 h with rfl | h
        · exact .inl (by simp)
        · rcases ih h with h | h
          · exact .inl (by simp [h])
          · exact .inr h

/-- A string write lists no index but those it writes. -/
theorem Memory.writeAll_mem {m : Memory} {a : Nat} {bs : List Byte} {p : Host.Cell}
    (h : p ∈ Memory.writeAll m a bs) : p ∈ m ∨ (a ≤ p.1 ∧ p.1 < a + bs.length) := by
  induction bs generalizing m a with
  | nil => exact .inl h
  | cons b bs ih =>
    rcases ih h with h | h
    · rcases Memory.write_mem h with h | h
      · exact .inl h
      · exact .inr (by simp; omega)
    · exact .inr (by simp; omega)

end Sys2Proof.Machine
end

