-- ==== Sys2Proof/Laws/Ops.lean ====
section
/-! SUPPORT. What each shared operation can do, said once: the prologue, a command of class ENC, a command of class DEC,
`ILOAD`, and the step. -/

namespace Sys2Proof.Machine

/-! ## The prologue -/

@[simp] theorem State.prologue_halted {s : State} (h : s.halt = true) (c : Cls) (body : State → State) :
    s.prologue c body = s := by
  simp [State.prologue, h]

@[simp] theorem State.prologue_run {s : State} {c : Cls} (h : s.halt = false) (hs : sticky c s = 0)
    (body : State → State) : s.prologue c body = body s := by
  simp [State.prologue, h, hs]

@[simp] theorem State.prologue_sticky {s : State} {c : Cls} (h : s.halt = false) (hs : sticky c s ≠ 0)
    (body : State → State) : s.prologue c body = s.report (sticky c s) := by
  rw [State.prologue, if_neg (by simp [h]), if_neg hs]

/-- A NEUTRAL command runs unless the block is halted. -/
theorem State.prologue_neutral {s : State} (h : s.halt = false) (body : State → State) :
    s.prologue .neutral body = body s := State.prologue_run h rfl body

/-! ## The writer -/

/-- The state after an emission that fits is appended (R54). -/
def State.appended (s : State) (em : Emission) : State :=
  (s.setResults { em.res with st := Status.ok.code, rn := BitVec.ofNat 32 em.out.length }).setEnc
    (Memory.writeAll s.obuf s.wpos.toNat em.out) (s.wpos + BitVec.ofNat 16 em.out.length) s.werr

theorem State.append_fits {cfg : Config} {s : State} {em : Emission}
    (h : s.wpos.toNat + em.out.length ≤ cfg.obufCap) : s.append cfg em = s.appended em := by
  rw [State.append, if_neg (by omega)]; rfl

theorem State.append_overflow {cfg : Config} {s : State} {em : Emission}
    (h : cfg.obufCap < s.wpos.toNat + em.out.length) : s.append cfg em = s.raise .enc .bufferOverflow := by
  rw [State.append, if_pos (by omega)]

theorem State.encCommand_halted {cfg : Config} {s : State} (h : s.halt = true) (r : Except Status Emission) :
    s.encCommand cfg r = s := State.prologue_halted h _ _

theorem State.encCommand_sticky {cfg : Config} {s : State} (h : s.halt = false) (hw : s.werr ≠ 0)
    (r : Except Status Emission) : s.encCommand cfg r = s.report s.werr :=
  State.prologue_sticky (c := .enc) h hw _

theorem State.encCommand_error {cfg : Config} {s : State} (h : s.halt = false) (hw : s.werr = 0) (e : Status) :
    s.encCommand cfg (.error e) = s.raise .enc e :=
  State.prologue_run (c := .enc) h hw _

theorem State.encCommand_ok {cfg : Config} {s : State} (h : s.halt = false) (hw : s.werr = 0) (em : Emission) :
    s.encCommand cfg (.ok em) = s.append cfg em :=
  State.prologue_run (c := .enc) h hw _

/-- Everything a command of class ENC can do (R243, R244, R54). -/
theorem State.encCommand_cases (cfg : Config) (s : State) (r : Except Status Emission) :
    (s.halt = true ∧ s.encCommand cfg r = s)
    ∨ (s.halt = false ∧ s.werr ≠ 0 ∧ s.encCommand cfg r = s.report s.werr)
    ∨ (s.halt = false ∧ s.werr = 0 ∧ ∃ e, r = .error e ∧ s.encCommand cfg r = s.raise .enc e)
    ∨ (s.halt = false ∧ s.werr = 0 ∧ ∃ em, r = .ok em ∧ cfg.obufCap < s.wpos.toNat + em.out.length
        ∧ s.encCommand cfg r = s.raise .enc .bufferOverflow)
    ∨ (s.halt = false ∧ s.werr = 0 ∧ ∃ em, r = .ok em ∧ s.wpos.toNat + em.out.length ≤ cfg.obufCap
        ∧ s.encCommand cfg r = s.appended em) := by
  rcases Bool.eq_false_or_eq_true s.halt with h | h
  · exact .inl ⟨h, State.encCommand_halted h r⟩
  · by_cases hw : s.werr = 0
    · right; right
      cases r with
      | error e => exact .inl ⟨h, hw, e, rfl, State.encCommand_error h hw e⟩
      | ok em =>
        rw [State.encCommand_ok h hw]
        rcases Nat.lt_or_ge cfg.obufCap (s.wpos.toNat + em.out.length) with hc | hc
        · exact .inr (.inl ⟨h, hw, em, rfl, hc, State.append_overflow hc⟩)
        · exact .inr (.inr ⟨h, hw, em, rfl, hc, State.append_fits hc⟩)
    · exact .inr (.inl ⟨h, hw, State.encCommand_sticky h hw r⟩)

/-! ## The reader -/

@[simp] theorem State.unread_length (s : State) : s.unread.length = s.ilen.toNat - s.rpos.toNat := by
  simp [State.unread]

theorem State.decCommand_halted {s : State} (h : s.halt = true) (f : List Byte → Nat → Except Status Decoded) :
    s.decCommand f = s := State.prologue_halted h _ _

theorem State.decCommand_sticky {s : State} (h : s.halt = false) (hr : s.rerr ≠ 0)
    (f : List Byte → Nat → Except Status Decoded) : s.decCommand f = s.report s.rerr :=
  State.prologue_sticky (c := .dec) h hr _

theorem State.decCommand_error {s : State} (h : s.halt = false) (hr : s.rerr = 0)
    {f : List Byte → Nat → Except Status Decoded} {e : Status} (hf : f s.unread s.rpos.toNat = .error e) :
    s.decCommand f = s.raise .dec e := by
  rw [State.decCommand, State.prologue_run (c := .dec) h hr, hf]

theorem State.decCommand_ok {s : State} (h : s.halt = false) (hr : s.rerr = 0)
    {f : List Byte → Nat → Except Status Decoded} {d : Decoded} (hf : f s.unread s.rpos.toNat = .ok d) :
    s.decCommand f = s.consume d := by
  rw [State.decCommand, State.prologue_run (c := .dec) h hr, hf]

/-- Everything a command of class DEC can do (R243, R244, R53). -/
theorem State.decCommand_cases (s : State) (f : List Byte → Nat → Except Status Decoded) :
    (s.halt = true ∧ s.decCommand f = s)
    ∨ (s.halt = false ∧ s.rerr ≠ 0 ∧ s.decCommand f = s.report s.rerr)
    ∨ (s.halt = false ∧ s.rerr = 0 ∧ ∃ e, f s.unread s.rpos.toNat = .error e ∧ s.decCommand f = s.raise .dec e)
    ∨ (s.halt = false ∧ s.rerr = 0 ∧ ∃ d, f s.unread s.rpos.toNat = .ok d ∧ s.decCommand f = s.consume d) := by
  rcases Bool.eq_false_or_eq_true s.halt with h | h
  · exact .inl ⟨h, State.decCommand_halted h f⟩
  · by_cases hr : s.rerr = 0
    · cases hf : f s.unread s.rpos.toNat with
      | error e => exact .inr (.inr (.inl ⟨h, hr, e, rfl, State.decCommand_error h hr hf⟩))
      | ok d => exact .inr (.inr (.inr ⟨h, hr, d, rfl, State.decCommand_ok h hr hf⟩))
    · exact .inr (.inl ⟨h, hr, State.decCommand_sticky h hr f⟩)

/-- A DEC command depends on the decode half only through the unread input, the cursor and the sticky error. -/
theorem State.wireCommand_eq {s : State} {b : Byte} {rest : List Byte} (h : s.unread = b :: rest)
    (f : List Byte → Nat → Except Status Decoded) (g : List Byte → Nat → Except Status Decoded)
    (hfg : g (b :: rest) s.rpos.toNat = f rest (s.rpos.toNat + 1)) : s.decCommand g = s.wireCommand f := by
  simp only [State.wireCommand, State.decCommand, State.prologue, h, hfg]

/-! ## The input buffer -/

/-- Everything `ILOAD`'s pseudocode can do (R103). -/
theorem State.loadIn_cases (cfg : Config) (s : State) (data : List Byte) :
    (cfg.ibufCap < data.length
      ∧ s.loadIn cfg data = (s.report 6).setDec s.ibuf 0 0 6)
    ∨ (data.length ≤ cfg.ibufCap
      ∧ s.loadIn cfg data = (s.setResults { rn := BitVec.ofNat 32 data.length }).setDec
          (Memory.writeAll s.ibuf 0 data) (BitVec.ofNat 16 data.length) 0 0) := by
  unfold State.loadIn
  split
  · exact .inl ⟨by omega, rfl⟩
  · exact .inr ⟨by omega, rfl⟩

/-! ## The step -/

/-- Everything a step can do (R240, R243). -/
theorem step_cases (s : State) :
    (s.halt = true ∧ step s = .next (s.setStream []))
    ∨ (s.halt = false ∧ decode s.stream = .wait ∧ step s = .next s)
    ∨ (s.halt = false ∧ (∃ op, decode s.stream = .reserved op) ∧ step s = .next s.badCommand)
    ∨ (s.halt = false ∧ ∃ i rest, decode s.stream = .done i rest ∧ step s = exec i (s.setStream rest)) := by
  rcases Bool.eq_false_or_eq_true s.halt with h | h
  · exact .inl ⟨h, by simp [step, h, State.discardStream]⟩
  · cases hd : decode s.stream with
    | wait => exact .inr (.inl ⟨h, rfl, by simp [step, h, State.fetch, hd, State.waitForHost]⟩)
    | reserved op => exact .inr (.inr (.inl ⟨h, ⟨op, rfl⟩, by simp [step, h, State.fetch, hd]⟩))
    | done i rest => exact .inr (.inr (.inr ⟨h, i, rest, rfl, by simp [step, h, State.fetch, hd]⟩))

end Sys2Proof.Machine
end

