-- ==== Sys2Proof/Laws/Exec.lean ====
section
/-! SUPPORT. The shape of every meaning, said once: an instruction of class ENC is the writer on an emission its operands
fix, one of class DEC is the reader on a helper its operands fix, and the NEUTRAL ones are five. -/

namespace Sys2Proof.Machine

theorem payload_wire {k : Kind} (f : Nat → List Byte → Nat → Except Status (Long × Nat))
    (h : ∀ L rest i, f L rest i = decPayload hw k L rest i) {t : Nat} (ht : t ≤ 14) (c : Bool) (lv : BitVec 3) :
    HelperLegal fun inp base => match inp with
      | [] => .error .insufficientBytes
      | _ :: rest => wireRow k t c lv f rest (base + 1) :=
  wireHelper_legal (wireRow_legal c lv ht h)

/-- An instruction of class ENC: the operands fix a legal emission, and the state enters only through the shared
operation. -/
theorem exec_enc {i : Instr} (h : cls i = .enc) :
    ∃ r, EmissionLegal r ∧ ∀ s, exec i s = .next (s.encCommand hw r) := by
  cases i <;> simp only [cls, reduceCtorEq] at h
  case encTag tn flags lv => exact ⟨_, emitTag_legal tn flags lv, fun _ => rfl⟩
  case encUint v => exact ⟨emitUint v, ⟨by simp, by simp⟩, fun _ => rfl⟩
  case encSint v => exact ⟨emitSint v, ⟨by simp, by simp⟩, fun _ => rfl⟩
  case encReal v => exact ⟨emitReal v, emitBody_legal _ (by simp), fun _ => rfl⟩
  case encDbl v => exact ⟨emitDbl v, emitBody_legal _ (by simp), fun _ => rfl⟩
  case encStr d => exact ⟨emitStr d, emitBody_legal _ (by simp), fun _ => rfl⟩
  case encDate y m d w => exact ⟨emitDate hw y m d w, emitBody_legal _ fun _ => datePayload_error, fun _ => rfl⟩
  case encTime a b c d => exact ⟨emitTime a b c d, emitBody_legal _ fun _ => timePayload_error, fun _ => rfl⟩
  case encOid t n => exact ⟨emitOid hw t n, emitBody_legal _ fun _ => oidPayload_error, fun _ => rfl⟩
  case appNull => exact ⟨emitAppNull hw, emitApp_legal _ _ _ _, fun _ => rfl⟩
  case appBool b => exact ⟨emitAppBool hw b, emitAppBool_legal b, fun _ => rfl⟩
  case appUint v => exact ⟨emitAppUint hw v, emitApp_legal _ _ _ _, fun _ => rfl⟩
  case appSint v => exact ⟨emitAppSint hw v, emitApp_legal _ _ _ _, fun _ => rfl⟩
  case appReal v => exact ⟨emitAppReal hw v, emitApp_legal _ _ _ _, fun _ => rfl⟩
  case appDbl v => exact ⟨emitAppDbl hw v, emitApp_legal _ _ _ _, fun _ => rfl⟩
  case appOctstr d => exact ⟨emitAppOctstr d, rfl, fun _ => rfl⟩
  case appStr d => exact ⟨emitAppStr hw d, emitApp_legal _ _ _ _, fun _ => rfl⟩
  case appBitstr d => exact ⟨emitAppBitstr d, rfl, fun _ => rfl⟩
  case appEnum v => exact ⟨emitAppEnum hw v, emitApp_legal _ _ _ _, fun _ => rfl⟩
  case appDate y m d w => exact ⟨emitAppDate hw y m d w, emitAppDate_legal y m d w, fun _ => rfl⟩
  case appTime a b c d => exact ⟨emitAppTime hw a b c d, emitAppTime_legal a b c d, fun _ => rfl⟩
  case appOid t n => exact ⟨emitAppOid hw t n, emitAppOid_legal t n, fun _ => rfl⟩
  case encNpdu a b c d e f g k => exact ⟨emitNpdu hw a b c d e f g k, emitNpdu_legal a b c d e f g k, fun _ => rfl⟩

/-- An instruction of class DEC: the operands fix a legal decode helper, and the state enters only through the shared
operation. -/
theorem exec_dec {i : Instr} (h : cls i = .dec) :
    ∃ f, HelperLegal f ∧ ∀ s, exec i s = .next (s.decCommand f) := by
  cases i <;> simp only [cls, reduceCtorEq] at h
  case decTag => exact ⟨_, readTag_legal, fun _ => rfl⟩
  case decUint n => exact ⟨_, readUint_legal n, fun _ => rfl⟩
  case decSint n => exact ⟨_, readSint_legal n, fun _ => rfl⟩
  case decReal => exact ⟨_, readBody_legal (v := fun inp _ => fixedValue 4 inp)
    (fun inp _ => (fixedValue_cases 4 inp).imp id fun h => ⟨h.1, _, h.2⟩), fun _ => rfl⟩
  case decDbl => exact ⟨_, readBody_legal (v := fun inp _ => fixedValue 8 inp)
    (fun inp _ => (fixedValue_cases 8 inp).imp id fun h => ⟨h.1, _, h.2⟩), fun _ => rfl⟩
  case decStr n => exact ⟨_, readBody_legal
    (fun inp base => (stringValue_cases n.toNat inp base).imp id fun h => ⟨h.1, _, h.2⟩), fun _ => rfl⟩
  case decDate => exact ⟨_, readBody_legal (v := fun inp _ => dateValue hw inp) (fun inp _ => dateValue_cases hw inp),
    fun _ => rfl⟩
  case decTime => exact ⟨_, readBody_legal (v := fun inp _ => timeValue inp) (fun inp _ => timeValue_cases inp),
    fun _ => rfl⟩
  case decOid => exact ⟨_, readBody_legal (v := fun inp _ => fixedValue 4 inp)
    (fun inp _ => (fixedValue_cases 4 inp).imp id fun h => ⟨h.1, _, h.2⟩), fun _ => rfl⟩
  case decAny => exact ⟨_, decAny_legal, fun _ => rfl⟩
  case tagNull c lv => exact ⟨_, payload_wire _ (fun _ _ _ => rfl) (by decide) c lv, fun _ => rfl⟩
  case tagBool c lv => exact ⟨_, payload_wire _ (fun _ _ _ => rfl) (by decide) c lv, fun _ => rfl⟩
  case tagUint c lv => exact ⟨_, payload_wire _ (fun _ _ _ => rfl) (by decide) c lv, fun _ => rfl⟩
  case tagSint c lv => exact ⟨_, payload_wire _ (fun _ _ _ => rfl) (by decide) c lv, fun _ => rfl⟩
  case tagReal c lv => exact ⟨_, payload_wire _ (fun _ _ _ => rfl) (by decide) c lv, fun _ => rfl⟩
  case tagDbl c lv => exact ⟨_, payload_wire _ (fun _ _ _ => rfl) (by decide) c lv, fun _ => rfl⟩
  case tagStr c lv => exact ⟨_, payload_wire _ (fun _ _ _ => rfl) (by decide) c lv, fun _ => rfl⟩
  case tagEnum c lv => exact ⟨_, payload_wire _ (fun _ _ _ => rfl) (by decide) c lv, fun _ => rfl⟩
  case tagDate c lv => exact ⟨_, payload_wire _ (fun _ _ _ => rfl) (by decide) c lv, fun _ => rfl⟩
  case tagTime c lv => exact ⟨_, payload_wire _ (fun _ _ _ => rfl) (by decide) c lv, fun _ => rfl⟩
  case tagOid c lv => exact ⟨_, payload_wire _ (fun _ _ _ => rfl) (by decide) c lv, fun _ => rfl⟩
  case tagOctstr c lv => exact ⟨_, wireHelper_legal fun rest _ => wireUnsupported_legal lv rest, fun _ => rfl⟩
  case tagBitstr c lv => exact ⟨_, wireHelper_legal fun rest _ => wireUnsupported_legal lv rest, fun _ => rfl⟩
  case tagRsvd13 c lv => exact ⟨_, wireHelper_legal fun rest _ => wireUnsupported_legal lv rest, fun _ => rfl⟩
  case tagRsvd14 c lv => exact ⟨_, wireHelper_legal fun rest _ => wireUnsupported_legal lv rest, fun _ => rfl⟩
  case tagExt c lv => exact ⟨_, wireHelper_legal fun rest index => wireExt_legal c lv rest index, fun _ => rfl⟩

/-- The NEUTRAL instructions (R242) are five, each a prologue that consults no sticky error around its pseudocode. -/
theorem exec_neutral {i : Instr} (h : cls i = .neutral) (s : State) :
    (i = .nop ∧ exec i s = .next (s.prologue .neutral fun s => s))
    ∨ (i = .oclr ∧ exec i s = .next (s.prologue .neutral State.clearOut))
    ∨ (i = .iclr ∧ exec i s = .next (s.prologue .neutral State.clearIn))
    ∨ (∃ data, i = .iload data ∧ exec i s = .next (s.prologue .neutral fun s => s.loadIn hw data))
    ∨ (∃ a b, i = .encSeg a b ∧ exec i s = .next (s.prologue .neutral fun s => s.segCommand hw a b)) := by
  cases i <;> simp only [cls, reduceCtorEq] at h
  case nop => exact .inl ⟨rfl, rfl⟩
  case oclr => exact .inr (.inl ⟨rfl, rfl⟩)
  case iclr => exact .inr (.inr (.inl ⟨rfl, rfl⟩))
  case iload d => exact .inr (.inr (.inr (.inl ⟨d, rfl, rfl⟩)))
  case encSeg a b => exact .inr (.inr (.inr (.inr ⟨a, b, rfl, rfl⟩)))

/-- Everything the pseudocode of `ENC_SEG` can do (R226). -/
theorem segCommand_cases (s : State) (a b : Half) :
    (segOctet hw a.toNat b.toNat = .error .unsupportedValueType ∧ s.segCommand hw a b = s.report 3)
    ∨ ∃ r, segOctet hw a.toNat b.toNat = .ok r ∧ s.segCommand hw a b = s.setResults { rv := r.setWidth 64 } := by
  cases h : segOctet hw a.toNat b.toNat with
  | error e =>
    have he : e = .unsupportedValueType := by
      unfold segOctet at h
      split at h <;> simp at h
      exact h.symm
    subst he
    exact .inl ⟨rfl, by simp [State.segCommand, h]⟩
  | ok r => exact .inr ⟨r, rfl, by simp [State.segCommand, h]⟩

end Sys2Proof.Machine
end

