-- ==== Sys2Proof/Laws/PerInstr.lean ====
section
/-! SUPPORT. Statements about every instruction as syntax, one lemma per constructor. -/

namespace Sys2Proof.Laws.EncodedLength

open Sys2Proof Machine

/-- The total octets of each row's format (R81). -/
def total : Instr → Nat
  | .nop => 1
  | .oclr => 1
  | .iclr => 1
  | .iload data => 3 + data.length
  | .encTag _ _ _ => 7
  | .decTag => 1
  | .encUint _ => 5
  | .encSint _ => 5
  | .encReal _ => 5
  | .encDbl _ => 9
  | .encStr data => 5 + data.length
  | .encDate _ _ _ _ => 6
  | .encTime _ _ _ _ => 6
  | .encOid _ _ => 7
  | .decUint _ => 2
  | .decSint _ => 2
  | .decReal => 1
  | .decDbl => 1
  | .decStr _ => 5
  | .decDate => 1
  | .decTime => 1
  | .decOid => 1
  | .appNull => 1
  | .appBool _ => 2
  | .appUint _ => 5
  | .appSint _ => 5
  | .appReal _ => 5
  | .appDbl _ => 9
  | .appOctstr data => 5 + data.length
  | .appStr data => 5 + data.length
  | .appBitstr data => 5 + data.length
  | .appEnum _ => 5
  | .appDate _ _ _ _ => 6
  | .appTime _ _ _ _ => 6
  | .appOid _ _ => 7
  | .decAny => 1
  | .encNpdu _ _ _ _ _ dadr _ sadr => 12 + dadr.length + sadr.length
  | .encSeg _ _ => 5
  | .tagNull _ _ => 1
  | .tagBool _ _ => 1
  | .tagUint _ _ => 1
  | .tagSint _ _ => 1
  | .tagReal _ _ => 1
  | .tagDbl _ _ => 1
  | .tagOctstr _ _ => 1
  | .tagStr _ _ => 1
  | .tagBitstr _ _ => 1
  | .tagEnum _ _ => 1
  | .tagDate _ _ => 1
  | .tagTime _ _ => 1
  | .tagOid _ _ => 1
  | .tagRsvd13 _ _ => 1
  | .tagRsvd14 _ _ => 1
  | .tagExt _ _ => 1

/-- An instruction's encoding is as long as its format says. -/
def Statement (i : Instr) : Prop := (encode i).length = total i

theorem nop : Statement .nop := rfl
theorem oclr : Statement .oclr := rfl
theorem iclr : Statement .iclr := rfl
theorem iload : ∀ data, Statement (.iload data) := by
  intro data; simp [Statement, encode, total]; omega
theorem encTag : ∀ tn flags lv, Statement (.encTag tn flags lv) := fun _ _ _ => rfl
theorem decTag : Statement .decTag := rfl
theorem encUint : ∀ v, Statement (.encUint v) := fun _ => rfl
theorem encSint : ∀ v, Statement (.encSint v) := fun _ => rfl
theorem encReal : ∀ v, Statement (.encReal v) := fun _ => rfl
theorem encDbl : ∀ v, Statement (.encDbl v) := fun _ => rfl
theorem encStr : ∀ data, Statement (.encStr data) := by
  intro data; simp [Statement, encode, total]; omega
theorem encDate : ∀ year month day dow, Statement (.encDate year month day dow) := fun _ _ _ _ => rfl
theorem encTime : ∀ hour minute second ms, Statement (.encTime hour minute second ms) := fun _ _ _ _ => rfl
theorem encOid : ∀ type inst, Statement (.encOid type inst) := fun _ _ => rfl
theorem decUint : ∀ n, Statement (.decUint n) := fun _ => rfl
theorem decSint : ∀ n, Statement (.decSint n) := fun _ => rfl
theorem decReal : Statement .decReal := rfl
theorem decDbl : Statement .decDbl := rfl
theorem decStr : ∀ n, Statement (.decStr n) := fun _ => rfl
theorem decDate : Statement .decDate := rfl
theorem decTime : Statement .decTime := rfl
theorem decOid : Statement .decOid := rfl
theorem appNull : Statement .appNull := rfl
theorem appBool : ∀ b, Statement (.appBool b) := fun _ => rfl
theorem appUint : ∀ v, Statement (.appUint v) := fun _ => rfl
theorem appSint : ∀ v, Statement (.appSint v) := fun _ => rfl
theorem appReal : ∀ v, Statement (.appReal v) := fun _ => rfl
theorem appDbl : ∀ v, Statement (.appDbl v) := fun _ => rfl
theorem appOctstr : ∀ data, Statement (.appOctstr data) := by
  intro data; simp [Statement, encode, total]; omega
theorem appStr : ∀ data, Statement (.appStr data) := by
  intro data; simp [Statement, encode, total]; omega
theorem appBitstr : ∀ data, Statement (.appBitstr data) := by
  intro data; simp [Statement, encode, total]; omega
theorem appEnum : ∀ v, Statement (.appEnum v) := fun _ => rfl
theorem appDate : ∀ year month day dow, Statement (.appDate year month day dow) := fun _ _ _ _ => rfl
theorem appTime : ∀ hour minute second ms, Statement (.appTime hour minute second ms) := fun _ _ _ _ => rfl
theorem appOid : ∀ type inst, Statement (.appOid type inst) := fun _ _ => rfl
theorem decAny : Statement .decAny := rfl
theorem encNpdu : ∀ flags hop mtype vendor dnet dadr snet sadr, Statement (.encNpdu flags hop mtype vendor dnet dadr snet sadr) := by
  intros; simp [Statement, encode, total, octets2]; omega
theorem encSeg : ∀ maxsegs maxapdu, Statement (.encSeg maxsegs maxapdu) := fun _ _ => rfl
theorem tagNull : ∀ c lv, Statement (.tagNull c lv) := fun _ _ => rfl
theorem tagBool : ∀ c lv, Statement (.tagBool c lv) := fun _ _ => rfl
theorem tagUint : ∀ c lv, Statement (.tagUint c lv) := fun _ _ => rfl
theorem tagSint : ∀ c lv, Statement (.tagSint c lv) := fun _ _ => rfl
theorem tagReal : ∀ c lv, Statement (.tagReal c lv) := fun _ _ => rfl
theorem tagDbl : ∀ c lv, Statement (.tagDbl c lv) := fun _ _ => rfl
theorem tagOctstr : ∀ c lv, Statement (.tagOctstr c lv) := fun _ _ => rfl
theorem tagStr : ∀ c lv, Statement (.tagStr c lv) := fun _ _ => rfl
theorem tagBitstr : ∀ c lv, Statement (.tagBitstr c lv) := fun _ _ => rfl
theorem tagEnum : ∀ c lv, Statement (.tagEnum c lv) := fun _ _ => rfl
theorem tagDate : ∀ c lv, Statement (.tagDate c lv) := fun _ _ => rfl
theorem tagTime : ∀ c lv, Statement (.tagTime c lv) := fun _ _ => rfl
theorem tagOid : ∀ c lv, Statement (.tagOid c lv) := fun _ _ => rfl
theorem tagRsvd13 : ∀ c lv, Statement (.tagRsvd13 c lv) := fun _ _ => rfl
theorem tagRsvd14 : ∀ c lv, Statement (.tagRsvd14 c lv) := fun _ _ => rfl
theorem tagExt : ∀ c lv, Statement (.tagExt c lv) := fun _ _ => rfl

end Sys2Proof.Laws.EncodedLength
end

