-- ==== Sys2Proof/Machine/Assembler.lean ====
section
/-! DEFINITION. The assembler syntax of R86: a way to write commands down, one a line. The block sees only the octets.
What R86 does not fix about the text is a choice of the model (log 14). -/

namespace Sys2Proof.Machine

/-- An operand as a line writes it (R86): a number, a negated decimal number, or an octet string. -/
inductive AsmOperand where
  | num (n : Nat)
  | neg (n : Nat)
  | data (bs : List Byte)
deriving DecidableEq, Repr

/-- A token of a line. -/
inductive AsmToken where
  | word (cs : List Char)
  | comma
  | data (bs : List Byte)
deriving DecidableEq, Repr

/-- Where the reading of a line stands: in a word or between words, in a quoted string, or in a brace list with the hex
digits of an octet not yet ended. What was read is kept last first. -/
inductive AsmMode where
  | plain (word : List Char)
  | quoted (octets : List Byte)
  | braced (octets : List Byte) (digits : List Nat)
deriving DecidableEq, Repr

/-- The value of a hexadecimal digit. -/
def hexDigit (c : Char) : Option Nat :=
  if '0' ≤ c ∧ c ≤ '9' then some (c.toNat - 48)
  else if 'a' ≤ c ∧ c ≤ 'f' then some (c.toNat - 87)
  else if 'A' ≤ c ∧ c ≤ 'F' then some (c.toNat - 55)
  else none

/-- The value of a decimal digit. -/
def decDigit (c : Char) : Option Nat := if '0' ≤ c ∧ c ≤ '9' then some (c.toNat - 48) else none

/-- A number from its digits in a base, the first digit first; none where a character is no digit. -/
def asmDigits (digit : Char → Option Nat) (base acc : Nat) : List Char → Option Nat
  | [] => some acc
  | c :: cs =>
    match digit c with
    | none => none
    | some d => asmDigits digit base (acc * base + d) cs

/-- A numeric operand: decimal, `0x` hexadecimal, or a negated decimal (R86). -/
def asmNumber : List Char → Option AsmOperand
  | [] => none
  | '0' :: 'x' :: c :: cs => (asmDigits hexDigit 16 0 (c :: cs)).map .num
  | '-' :: c :: cs => (asmDigits decDigit 10 0 (c :: cs)).map .neg
  | c :: cs => (asmDigits decDigit 10 0 (c :: cs)).map .num

/-- The word read so far, as a token, if there is one. -/
def asmFlush : List Char → List AsmToken
  | [] => []
  | c :: cs => [.word (c :: cs).reverse]

/-- The octet whose hex digits were read so far, if there are one or two. -/
def asmOctet : List Nat → Option (List Byte)
  | [] => some []
  | [lo] => some [BitVec.ofNat 8 lo]
  | [lo, hi] => some [BitVec.ofNat 8 (hi * 16 + lo)]
  | _ => none

/-- The character that opens a brace list. -/
def braceOpen : Char := Char.ofNat 123

/-- The character that closes a brace list. -/
def braceClose : Char := Char.ofNat 125

/-- The tokens of a line (R86); none where a string or brace list is malformed or not ended. A semicolon outside a
string ends the line. -/
def asmTokens : AsmMode → List Char → Option (List AsmToken)
  | .plain w, [] => some (asmFlush w)
  | .quoted _, [] => none
  | .braced _ _, [] => none
  | .plain w, c :: cs =>
    if c = ';' then some (asmFlush w)
    else if c = ' ' ∨ c = '\t' then (asmTokens (.plain []) cs).map (asmFlush w ++ ·)
    else if c = ',' then (asmTokens (.plain []) cs).map (asmFlush w ++ [.comma] ++ ·)
    else if c = '"' then (asmTokens (.quoted []) cs).map (asmFlush w ++ ·)
    else if c = braceOpen then (asmTokens (.braced [] []) cs).map (asmFlush w ++ ·)
    else asmTokens (.plain (c :: w)) cs
  | .quoted bs, c :: cs =>
    if c = '"' then (asmTokens (.plain []) cs).map (.data bs.reverse :: ·)
    else if c.toNat < 128 then asmTokens (.quoted (BitVec.ofNat 8 c.toNat :: bs)) cs
    else none
  | .braced bs ds, c :: cs =>
    if c = braceClose then
      match asmOctet ds with
      | none => none
      | some o => (asmTokens (.plain []) cs).map (.data (bs.reverse ++ o) :: ·)
    else if c = ' ' ∨ c = '\t' then
      match asmOctet ds with
      | none => none
      | some o => asmTokens (.braced (o ++ bs) []) cs
    else
      match hexDigit c with
      | none => none
      | some d => asmTokens (.braced bs (d :: ds)) cs

/-- One operand from its token. -/
def asmOperand : AsmToken → Option AsmOperand
  | .word cs => asmNumber cs
  | .comma => none
  | .data bs => some (.data bs)

/-- The operands after a mnemonic, separated by commas (R86). -/
def asmOperands : List AsmToken → Option (List AsmOperand)
  | [] => some []
  | [t] => (asmOperand t).map ([·])
  | t :: .comma :: u :: ts =>
    match asmOperand t, asmOperands (u :: ts) with
    | some o, some os => some (o :: os)
    | _, _ => none
  | _ => none

/-- A number that fits a field of `bits` bits. -/
def asmFit (bits n : Nat) : Option (BitVec bits) := if n < 2 ^ bits then some (BitVec.ofNat bits n) else none

/-- The 32-bit operand of `ENC_SINT` and `APP_SINT`: a negative number is assembled as its two's complement (R86). -/
def asmSigned : AsmOperand → Option Word
  | .num n => asmFit 32 n
  | .neg n => if n ≤ 2 ^ 31 then some (BitVec.ofInt 32 (-(n : Int))) else none
  | .data _ => none

/-- The commands of one line, from its mnemonic (R83) or pseudo-instruction (R87) and its operands in the order of the
format; none where they do not fit. -/
def asmCommand (mnemonic : String) (ops : List AsmOperand) : Option (List Instr) :=
  match mnemonic, ops with
  | "NOP", [] => some [.nop]
  | "OCLR", [] => some [.oclr]
  | "ICLR", [] => some [.iclr]
  | "ILOAD", [.data d] => some [.iload d]
  | "ENC_TAG", [.num tn, .num flags, .num lv] => do
    return [.encTag (← asmFit 8 tn) (← asmFit 8 flags) (← asmFit 32 lv)]
  | "DEC_TAG", [] => some [.decTag]
  | "ENC_UINT", [.num v] => do return [.encUint (← asmFit 32 v)]
  | "ENC_SINT", [v] => do return [.encSint (← asmSigned v)]
  | "ENC_REAL", [.num v] => do return [.encReal (← asmFit 32 v)]
  | "ENC_DBL", [.num v] => do return [.encDbl (← asmFit 64 v)]
  | "ENC_STR", [.data d] => some [.encStr d]
  | "ENC_DATE", [.num y, .num m, .num d, .num w] => do
    return [.encDate (← asmFit 16 y) (← asmFit 8 m) (← asmFit 8 d) (← asmFit 8 w)]
  | "ENC_TIME", [.num h, .num m, .num s, .num ms] => do
    return [.encTime (← asmFit 8 h) (← asmFit 8 m) (← asmFit 8 s) (← asmFit 16 ms)]
  | "ENC_OID", [.num t, .num i] => do return [.encOid (← asmFit 16 t) (← asmFit 32 i)]
  | "DEC_UINT", [.num n] => do return [.decUint (← asmFit 8 n)]
  | "DEC_SINT", [.num n] => do return [.decSint (← asmFit 8 n)]
  | "DEC_REAL", [] => some [.decReal]
  | "DEC_DBL", [] => some [.decDbl]
  | "DEC_STR", [.num n] => do return [.decStr (← asmFit 32 n)]
  | "DEC_DATE", [] => some [.decDate]
  | "DEC_TIME", [] => some [.decTime]
  | "DEC_OID", [] => some [.decOid]
  | "APP_NULL", [] => some [.appNull]
  | "APP_BOOL", [.num b] => do return [.appBool (← asmFit 8 b)]
  | "APP_UINT", [.num v] => do return [.appUint (← asmFit 32 v)]
  | "APP_SINT", [v] => do return [.appSint (← asmSigned v)]
  | "APP_REAL", [.num v] => do return [.appReal (← asmFit 32 v)]
  | "APP_DBL", [.num v] => do return [.appDbl (← asmFit 64 v)]
  | "APP_OCTSTR", [.data d] => some [.appOctstr d]
  | "APP_STR", [.data d] => some [.appStr d]
  | "APP_BITSTR", [.data d] => some [.appBitstr d]
  | "APP_ENUM", [.num v] => do return [.appEnum (← asmFit 32 v)]
  | "APP_DATE", [.num y, .num m, .num d, .num w] => do
    return [.appDate (← asmFit 16 y) (← asmFit 8 m) (← asmFit 8 d) (← asmFit 8 w)]
  | "APP_TIME", [.num h, .num m, .num s, .num ms] => do
    return [.appTime (← asmFit 8 h) (← asmFit 8 m) (← asmFit 8 s) (← asmFit 16 ms)]
  | "APP_OID", [.num t, .num i] => do return [.appOid (← asmFit 16 t) (← asmFit 32 i)]
  | "DEC_ANY", [] => some [.decAny]
  | "ENC_NPDU", [.num flags, .num hop, .num mtype, .num vendor, .num dnet, .data dadr, .num snet, .data sadr] => do
    return [.encNpdu (← asmFit 8 flags) (← asmFit 8 hop) (← asmFit 8 mtype) (← asmFit 16 vendor) (← asmFit 16 dnet)
      dadr (← asmFit 16 snet) sadr]
  | "ENC_SEG", [.num segs, .num apdu] => do return [.encSeg (← asmFit 16 segs) (← asmFit 16 apdu)]
  | "CTX_UINT", [.num tn, .num v] => do return ctxUint (← asmFit 8 tn) (← asmFit 32 v)
  | "CTX_ENUM", [.num tn, .num v] => do return ctxEnum (← asmFit 8 tn) (← asmFit 32 v)
  | "CTX_SINT", [.num tn, v] => do return ctxSint (← asmFit 8 tn) (← asmSigned v)
  | "CTX_REAL", [.num tn, .num v] => do return ctxReal (← asmFit 8 tn) (← asmFit 32 v)
  | "CTX_OID", [.num tn, .num t, .num i] => do return ctxOid (← asmFit 8 tn) (← asmFit 16 t) (← asmFit 32 i)
  | "CTX_STR", [.num tn, .data d] => do return ctxStr (← asmFit 8 tn) d
  | "SKIP", [.num n] => do return skip (← asmFit 32 n)
  | "RD8", [] => some rd8
  | "RD16", [] => some rd16
  | "RD32", [] => some rd32
  | _, _ => none

/-- The commands a line assembles to (R86): none of them for an empty or comment line; no answer for a line that is not
of the syntax or whose commands have no encoding. -/
def assembleLine (line : String) : Option (List Instr) :=
  match asmTokens (.plain []) line.toList with
  | none => none
  | some [] => some []
  | some (.word m :: ts) =>
    match asmOperands ts with
    | none => none
    | some ops =>
      match asmCommand (String.ofList m) ops with
      | none => none
      | some is => if is.all Instr.wellFormed then some is else none
  | some _ => none

/-- The octets a line assembles to: what the host pushes. -/
def assembleOctets (line : String) : Option (List Byte) := (assembleLine line).map (·.flatMap encode)

end Sys2Proof.Machine
end

