-- ==== Sys2Proof/Tests/Slice0.lean ====
section
/-! SUPPORT. The author's own tests: a refusal for each well-formedness check, a word for each constructor, one step for
each instruction, and a witness for the hypotheses of each obligation. Expected values are the spec's own examples and
tables, or worked out by hand from its rules; each test names its source. -/

set_option Elab.async false

namespace Sys2Proof.Tests

open Sys2Proof.Machine Sys2Proof.Safety

/-- A state with the octets loaded as the input. -/
def loaded (bs : List Byte) : State :=
  { State.reset with ibuf := Memory.writeAll [] 0 bs, ilen := BitVec.ofNat 16 bs.length }

/-- The state after a command; the state itself where there is none. -/
def after (i : Instr) (s : State) : State :=
  match exec i s with
  | .next t => t
  | .fault _ => s
  | .refused _ => s

/-- The state after a step; the state itself where there is none. -/
def stepped (s : State) : State :=
  match step s with
  | .next t => t
  | .fault _ => s
  | .refused _ => s

/-- Whether a command answers a next state. -/
def completes (i : Instr) (s : State) : Bool :=
  match exec i s with
  | .next _ => true
  | .fault _ => false
  | .refused _ => false

/-- Whether a step answers a next state. -/
def steps (s : State) : Bool :=
  match step s with
  | .next _ => true
  | .fault _ => false
  | .refused _ => false

theorem ran {i : Instr} {s : State} (h : completes i s = true) : exec i s = .next (after i s) := by
  unfold completes at h; unfold after; split at h <;> simp_all

theorem took {s : State} (h : steps s = true) : step s = .next (stepped s) := by
  unfold steps at h; unfold stepped; split at h <;> simp_all

/-- Status and value of a decode command on an input. -/
def decodes (i : Instr) (bs : List Byte) : BitVec 4 × Long × Word :=
  ((after i (loaded bs)).st, (after i (loaded bs)).rv, (after i (loaded bs)).rn)

/-- Status and output of an encode command after reset. -/
def encodes (i : Instr) : BitVec 4 × List Byte := ((after i State.reset).st, output (after i State.reset))

/-! ## Ill-formed terms are refused (R81) -/

theorem test_wf_iload_refuses_2_pow_16 (data : List Byte) (h : data.length = 2 ^ 16) :
    (Instr.iload data).wellFormed = false := by
  simp only [Instr.wellFormed, fitsLen16, h]; decide

theorem test_wf_encStr_refuses_2_pow_32 (data : List Byte) (h : data.length = 2 ^ 32) :
    (Instr.encStr data).wellFormed = false := by
  simp only [Instr.wellFormed, fitsLen32, h]; decide

theorem test_wf_appOctstr_refuses_2_pow_32 (data : List Byte) (h : data.length = 2 ^ 32) :
    (Instr.appOctstr data).wellFormed = false := by
  simp only [Instr.wellFormed, fitsLen32, h]; decide

theorem test_wf_appStr_refuses_2_pow_32 (data : List Byte) (h : data.length = 2 ^ 32) :
    (Instr.appStr data).wellFormed = false := by
  simp only [Instr.wellFormed, fitsLen32, h]; decide

theorem test_wf_appBitstr_refuses_2_pow_32 (data : List Byte) (h : data.length = 2 ^ 32) :
    (Instr.appBitstr data).wellFormed = false := by
  simp only [Instr.wellFormed, fitsLen32, h]; decide

theorem test_wf_encNpdu_refuses_dlen_256 (dadr : List Byte) (h : dadr.length = 2 ^ 8) :
    (Instr.encNpdu 0 0 0 0 0 dadr 0 []).wellFormed = false := by
  simp only [Instr.wellFormed, fitsLen8, h]; decide

theorem test_wf_encNpdu_refuses_slen_256 (sadr : List Byte) (h : sadr.length = 2 ^ 8) :
    (Instr.encNpdu 0 0 0 0 0 [] 0 sadr).wellFormed = false := by
  simp only [Instr.wellFormed, fitsLen8, h]; decide

theorem test_wf_encNpdu_takes_255 (data : List Byte) (h : data.length = 255) :
    (Instr.encNpdu 0 0 0 0 0 data 0 data).wellFormed = true := by
  simp only [Instr.wellFormed, fitsLen8, h]; decide

/-! ## A word for each command, written out from R81 and R83 -/

theorem test_decode_nop : decode [0x00] = .done .nop [] := by decide

theorem test_decode_oclr : decode [0x01] = .done (.oclr) [] := by decide

theorem test_decode_iclr : decode [0x02] = .done (.iclr) [] := by decide

theorem test_decode_iload : decode [0x03, 0x00, 0x02, 0x21, 0x7F] = .done (.iload [0x21, 0x7F]) [] := by decide

theorem test_decode_encTag :
    decode [0x10, 0x64, 0x01, 0x00, 0x00, 0x00, 0xFE] = .done (.encTag 100 1 254) [] := by decide

theorem test_decode_decTag : decode [0x11] = .done (.decTag) [] := by decide

theorem test_decode_encUint : decode [0x20, 0x00, 0x00, 0x01, 0x00] = .done (.encUint 256) [] := by decide

theorem test_decode_encSint : decode [0x21, 0xFF, 0xFF, 0xFF, 0x7F] = .done (.encSint 0xFFFFFF7F) [] := by decide

theorem test_decode_encReal : decode [0x22, 0x42, 0x91, 0x00, 0x00] = .done (.encReal 0x42910000) [] := by decide

theorem test_decode_encDbl :
    decode [0x23, 0x40, 0x52, 0x20, 0x00, 0x00, 0x00, 0x00, 0x01] = .done (.encDbl 0x4052200000000001) [] := by decide

theorem test_decode_encStr :
    decode [0x24, 0x00, 0x00, 0x00, 0x03, 0x61, 0x62, 0x63] = .done (.encStr [0x61, 0x62, 0x63]) [] := by decide

theorem test_decode_encDate :
    decode [0x25, 0x07, 0xE8, 0x01, 0x18, 0x03] = .done (.encDate 2024 1 24 3) [] := by decide

theorem test_decode_encTime :
    decode [0x26, 0x0C, 0x22, 0x38, 0x03, 0x15] = .done (.encTime 12 34 56 789) [] := by decide

theorem test_decode_encOid : decode [0x27, 0x00, 0x08, 0x00, 0x00, 0x00, 0x0C] = .done (.encOid 8 12) [] := by decide

theorem test_decode_decUint : decode [0x30, 0x02] = .done (.decUint 2) [] := by decide

theorem test_decode_decSint : decode [0x31, 0x03] = .done (.decSint 3) [] := by decide

theorem test_decode_decReal : decode [0x32] = .done (.decReal) [] := by decide

theorem test_decode_decDbl : decode [0x33] = .done (.decDbl) [] := by decide

theorem test_decode_decStr : decode [0x34, 0x00, 0x00, 0x01, 0x03] = .done (.decStr 259) [] := by decide

theorem test_decode_decDate : decode [0x35] = .done (.decDate) [] := by decide

theorem test_decode_decTime : decode [0x36] = .done (.decTime) [] := by decide

theorem test_decode_decOid : decode [0x37] = .done (.decOid) [] := by decide

theorem test_decode_appNull : decode [0x40] = .done (.appNull) [] := by decide

theorem test_decode_appBool : decode [0x41, 0x01] = .done (.appBool 1) [] := by decide

theorem test_decode_appUint : decode [0x42, 0x00, 0x00, 0x01, 0x00] = .done (.appUint 256) [] := by decide

theorem test_decode_appSint : decode [0x43, 0xFF, 0xFF, 0xFF, 0x7F] = .done (.appSint 0xFFFFFF7F) [] := by decide

theorem test_decode_appReal : decode [0x44, 0x42, 0x91, 0x00, 0x00] = .done (.appReal 0x42910000) [] := by decide

theorem test_decode_appDbl :
    decode [0x45, 0x40, 0x52, 0x20, 0x00, 0x00, 0x00, 0x00, 0x00] = .done (.appDbl 0x4052200000000000) [] := by decide

theorem test_decode_appOctstr : decode [0x46, 0x00, 0x00, 0x00, 0x01, 0x01] = .done (.appOctstr [0x01]) [] := by decide

theorem test_decode_appStr :
    decode [0x47, 0x00, 0x00, 0x00, 0x03, 0x61, 0x62, 0x63] = .done (.appStr [0x61, 0x62, 0x63]) [] := by decide

theorem test_decode_appBitstr : decode [0x48, 0x00, 0x00, 0x00, 0x00] = .done (.appBitstr []) [] := by decide

theorem test_decode_appEnum : decode [0x49, 0x00, 0x00, 0x00, 0x03] = .done (.appEnum 3) [] := by decide

theorem test_decode_appDate :
    decode [0x4A, 0x07, 0xE8, 0x01, 0x18, 0x03] = .done (.appDate 2024 1 24 3) [] := by decide

theorem test_decode_appTime :
    decode [0x4B, 0x0C, 0x22, 0x38, 0x03, 0x15] = .done (.appTime 12 34 56 789) [] := by decide

theorem test_decode_appOid : decode [0x4C, 0x00, 0x08, 0x00, 0x00, 0x00, 0x0C] = .done (.appOid 8 12) [] := by decide

theorem test_decode_decAny : decode [0x50] = .done (.decAny) [] := by decide

theorem test_decode_encNpdu :
    decode [0x60, 0x84, 0x07, 0x80, 0x01, 0x02, 0x04, 0xD2, 0x01, 0x0A, 0x00, 0x05, 0x02, 0x0B, 0x0C] = .done (.encNpdu 0x84 7 0x80 0x0102 1234 [0x0A] 5 [0x0B, 0x0C]) [] := by
  decide

theorem test_decode_encSeg : decode [0x70, 0x00, 0x40, 0x05, 0xC4] = .done (.encSeg 64 1476) [] := by decide

theorem test_decode_leaves_the_rest : decode [0x30, 0x02, 0x50, 0x11] = .done (.decUint 2) [0x50, 0x11] := by decide

theorem test_decode_waits_for_the_last_octet : decode [0x03, 0x00, 0x02, 0x21] = .wait := by decide

theorem test_decode_rejects_reserved :
    [0x04, 0x0F, 0x12, 0x1F, 0x28, 0x2F, 0x38, 0x3F, 0x4D, 0x4F, 0x51, 0x5F, 0x61, 0x6F, 0x71, 0xFF].all
      (fun op => decode [op] == .reserved op) = true := by decide

/-! ## An octet for each wire-tag row (R70, R90) -/

theorem test_decode_tagNull : decodeWireTag 0x02 = .tagNull false 2 := by decide

theorem test_decode_tagBool : decodeWireTag 0x1D = .tagBool true 5 := by decide

theorem test_decode_tagUint : decodeWireTag 0x20 = .tagUint false 0 := by decide

theorem test_decode_tagSint : decodeWireTag 0x3B = .tagSint true 3 := by decide

theorem test_decode_tagReal : decodeWireTag 0x46 = .tagReal false 6 := by decide

theorem test_decode_tagDbl : decodeWireTag 0x59 = .tagDbl true 1 := by decide

theorem test_decode_tagOctstr : decodeWireTag 0x64 = .tagOctstr false 4 := by decide

theorem test_decode_tagStr : decodeWireTag 0x7F = .tagStr true 7 := by decide

theorem test_decode_tagBitstr : decodeWireTag 0x82 = .tagBitstr false 2 := by decide

theorem test_decode_tagEnum : decodeWireTag 0x9D = .tagEnum true 5 := by decide

theorem test_decode_tagDate : decodeWireTag 0xA0 = .tagDate false 0 := by decide

theorem test_decode_tagTime : decodeWireTag 0xBB = .tagTime true 3 := by decide

theorem test_decode_tagOid : decodeWireTag 0xC6 = .tagOid false 6 := by decide

theorem test_decode_tagRsvd13 : decodeWireTag 0xD9 = .tagRsvd13 true 1 := by decide

theorem test_decode_tagRsvd14 : decodeWireTag 0xE4 = .tagRsvd14 false 4 := by decide

theorem test_decode_tagExt : decodeWireTag 0xFF = .tagExt true 7 := by decide

/-! ## Table words and the next instruction (log 7) -/

theorem test_table_first_octet_is_the_opcode : decodeTableWord 40 0x0001000020 = some (.encUint 256) := by decide

theorem test_table_words_of_one_octet :
    decodeTableWord 8 0x47 = some (.appStr []) ∧ decodeTableWord 8 0x93 = some (.tagEnum false 3) := by decide

theorem test_fetchWord_runs_a_command :
    output (stepped (State.reset.withFetchWord 40 0x0001000020)) = [0x01, 0x00] := by decide

theorem test_fetchWord_runs_a_wire_row :
    (stepped (State.reset.withFetchWord 24 0x7F0092)).rv = 0x7F ∧ (stepped (State.reset.withFetchWord 24 0x7F0092)).rn = 3 := by
  decide

/-! ## One step of each command -/

/-- R112. -/
theorem test_exec_encTag :
    encodes (.encTag 100 0 254) = (0, [0xF5, 0x64, 0xFE, 0x00, 0xFE])
    ∧ encodes (.encTag 254 1 0xFFFFFFFF) = (0, [0xFD, 0xFE, 0xFF, 0xFF, 0xFF, 0xFF, 0xFF]) := by decide

/-- R136. -/
theorem test_exec_encUint : encodes (.encUint 65536) = (0, [0x01, 0x00, 0x00]) := by decide

/-- R136. -/
theorem test_exec_encUint_zero : encodes (.encUint 0) = (0, [0x00]) := by decide

/-- R137. -/
theorem test_exec_encSint : encodes (.encSint 0xFFFFFF7F) = (0, [0xFF, 0x7F]) := by decide

/-- R137. -/
theorem test_exec_encSint_128 : encodes (.encSint 128) = (0, [0x00, 0x80]) := by decide

/-- R150. -/
theorem test_exec_encReal : encodes (.encReal 0x42910000) = (0, [0x42, 0x91, 0x00, 0x00]) := by decide

/-- R152. -/
theorem test_exec_encDbl :
    encodes (.encDbl 0x4052200000000000) = (0, [0x40, 0x52, 0x20, 0x00, 0x00, 0x00, 0x00, 0x00]) := by decide

/-- R155. -/
theorem test_exec_encStr : encodes (.encStr [0x61, 0x62, 0x63]) = (0, [0x61, 0x62, 0x63]) := by decide

/-- R158. -/
theorem test_exec_encDate :
    encodes (.encDate 2024 1 24 3) = (0, [0x22, 0x01, 0x18, 0x03])
    ∧ encodes (.encDate 255 14 33 0) = (0, [0xFF, 0x0E, 0x21, 0x00]) := by decide

/-- R161. -/
theorem test_exec_encTime : encodes (.encTime 12 34 56 789) = (0, [0x0C, 0x22, 0x38, 0x4E]) := by decide

/-- R164. -/
theorem test_exec_encOid : encodes (.encOid 8 4194303) = (0, [0x02, 0x3F, 0xFF, 0xFF]) := by decide

/-- R182. -/
theorem test_exec_appNull : encodes .appNull = (0, [0x00]) := by decide

/-- R183. -/
theorem test_exec_appBool : encodes (.appBool 1) = (0, [0x11]) := by decide

/-- R184. -/
theorem test_exec_appUint : encodes (.appUint 256) = (0, [0x22, 0x01, 0x00]) := by decide

/-- R185. -/
theorem test_exec_appSint : encodes (.appSint 0xFFFFFF7F) = (0, [0x32, 0xFF, 0x7F]) := by decide

/-- R186. -/
theorem test_exec_appReal : encodes (.appReal 0x42910000) = (0, [0x44, 0x42, 0x91, 0x00, 0x00]) := by decide

/-- R187. -/
theorem test_exec_appDbl :
    encodes (.appDbl 0x4052200000000000) = (0, [0x55, 0x08, 0x40, 0x52, 0x20, 0x00, 0x00, 0x00, 0x00, 0x00]) := by
  decide

/-- R189. -/
theorem test_exec_appStr :
    encodes (.appStr [0x68, 0x65, 0x6C, 0x6C, 0x6F]) = (0, [0x75, 0x05, 0x68, 0x65, 0x6C, 0x6C, 0x6F]) := by decide

/-- R191. -/
theorem test_exec_appEnum : encodes (.appEnum 3) = (0, [0x91, 0x03]) := by decide

/-- R192. -/
theorem test_exec_appDate : encodes (.appDate 255 13 32 1) = (0, [0xA4, 0xFF, 0x0D, 0x20, 0x01]) := by decide

/-- R193. -/
theorem test_exec_appTime : encodes (.appTime 12 34 56 789) = (0, [0xB4, 0x0C, 0x22, 0x38, 0x4E]) := by decide

/-- R194. -/
theorem test_exec_appOid : encodes (.appOid 8 12) = (0, [0xC4, 0x02, 0x00, 0x00, 0x0C]) := by decide

/-- R215. -/
theorem test_exec_encNpdu :
    encodes (.encNpdu 0x04 255 0 0 1234 [0x0A] 0 []) = (0, [0x01, 0x24, 0x04, 0xD2, 0x01, 0x0A, 0x00, 0x00, 0x00, 0xFF])
    ∧ encodes (.encNpdu 0x83 0 0x80 0x0102 0 [] 7 [0x0B]) = (0, [0x01, 0x8B, 0x00, 0x00, 0x00, 0x00, 0x07, 0x01, 0x0B, 0x80, 0x01, 0x02]) := by
  decide

/-- R112. -/
theorem test_exec_encTag_reserved_raises :
    encodes (.encTag 255 0 0) = (3, []) ∧ (after (.encTag 255 0 0) State.reset).werr = 3 := by decide

/-- R158. -/
theorem test_exec_encDate_2245_raises :
    encodes (.encDate 2245 1 1 1) = (3, []) ∧ (after (.encDate 2245 1 1 1) State.reset).werr = 3 := by decide

/-- R161. -/
theorem test_exec_encTime_1000_raises :
    encodes (.encTime 0 0 0 1000) = (3, []) ∧ (after (.encTime 0 0 0 1000) State.reset).werr = 3 := by decide

/-- R164. -/
theorem test_exec_encOid_1024_raises :
    encodes (.encOid 1024 0) = (3, []) ∧ (after (.encOid 1024 0) State.reset).werr = 3 := by decide

/-- R183. -/
theorem test_exec_appBool_2_raises :
    encodes (.appBool 2) = (3, []) ∧ (after (.appBool 2) State.reset).werr = 3 := by decide

/-- R188. -/
theorem test_exec_appOctstr_raises :
    encodes (.appOctstr [0x01]) = (3, []) ∧ (after (.appOctstr [0x01]) State.reset).werr = 3 := by decide

/-- R190. -/
theorem test_exec_appBitstr_raises :
    encodes (.appBitstr []) = (3, []) ∧ (after (.appBitstr []) State.reset).werr = 3 := by decide

/-- R192. -/
theorem test_exec_appDate_1989_raises :
    encodes (.appDate 1989 1 1 1) = (3, []) ∧ (after (.appDate 1989 1 1 1) State.reset).werr = 3 := by decide

/-- R193. -/
theorem test_exec_appTime_1000_raises :
    encodes (.appTime 0 0 0 1000) = (3, []) ∧ (after (.appTime 0 0 0 1000) State.reset).werr = 3 := by decide

/-- R194. -/
theorem test_exec_appOid_inst_raises :
    encodes (.appOid 8 4194304) = (3, []) ∧ (after (.appOid 8 4194304) State.reset).werr = 3 := by decide

/-- R214. -/
theorem test_exec_encNpdu_reserved_raises :
    encodes (.encNpdu 0x08 0 0 0 0 [] 0 []) = (3, []) ∧ (after (.encNpdu 0x08 0 0 0 0 [] 0 []) State.reset).werr = 3 := by
  decide

/-- R114. -/
theorem test_exec_decTag : decodes .decTag [0xF5, 0x64, 0xFE, 0x00, 0xFE] = (0, 0, 5) := by decide

/-- R114. -/
theorem test_exec_decTag_truncated : decodes .decTag [0x25, 0xFE, 0x01] = (2, 0, 0) := by decide

/-- R138. -/
theorem test_exec_decUint : decodes (.decUint 2) [0x01, 0x00] = (0, 256, 2) := by decide

/-- R134. -/
theorem test_exec_decUint_9 : decodes (.decUint 9) [0x01, 0x00] = (2, 0, 0) := by decide

/-- R139. -/
theorem test_exec_decSint : decodes (.decSint 2) [0xFF, 0x7F] = (0, 0xFFFFFFFFFFFFFF7F, 2) := by decide

/-- R151. -/
theorem test_exec_decReal : decodes .decReal [0x42, 0x91, 0x00, 0x00] = (0, 0x42910000, 4) := by decide

/-- R153. -/
theorem test_exec_decDbl :
    decodes (.decDbl) [0x40, 0x52, 0x20, 0x00, 0x00, 0x00, 0x00, 0x00] = (0, 0x4052200000000000, 8) := by decide

/-- R156. -/
theorem test_exec_decStr : decodes (.decStr 3) [0x61, 0x62, 0x63, 0x10] = (0, 0, 3) := by decide

/-- R156. -/
theorem test_exec_decStr_short : decodes (.decStr 5) [0x61, 0x62, 0x63, 0x10] = (5, 0, 0) := by decide

/-- R159. -/
theorem test_exec_decDate : decodes (.decDate) [0x22, 0x01, 0x18, 0x03] = (0, 0x00000007E8011803, 4) := by decide

/-- R159. -/
theorem test_exec_decDate_sentinel :
    decodes (.decDate) [0xFF, 0x01, 0x18, 0x03] = (0, 0x00000000FF011803, 4) := by decide

/-- R162. -/
theorem test_exec_decTime : decodes (.decTime) [0x0C, 0x22, 0x38, 0x4E] = (0, 0x0000000C2238030C, 4) := by decide

/-- R165. -/
theorem test_exec_decOid : decodes (.decOid) [0x02, 0x00, 0x00, 0x0C] = (0, 0x0200000C, 4) := by decide

/-- R196. -/
theorem test_exec_decAny : decodes (.decAny) [0x75, 0x05, 0x68, 0x65, 0x6C, 0x6C, 0x6F] = (0, 2, 7) := by decide

/-- R195. -/
theorem test_exec_decAny_dispatch :
    decodes (.decAny) [0x63] = (4, 0, 0)
    ∧ (after .decAny (loaded [0x99, 0x03])).rk = 9 ∧ (after .decAny (loaded [0x99, 0x03])).rc = true
    ∧ (after .decAny (loaded [0x42, 0x42, 0x91, 0x00, 0x00])).rl = 2 := by decide

/-- R100. -/
theorem test_exec_nop : after .nop (loaded [0x21]) = loaded [0x21] := by decide

/-- R101. -/
theorem test_exec_oclr :
    (after .oclr (after (.encTag 255 0 0) (after (.encStr [1]) State.reset))).werr = 0
    ∧ (after .oclr (after (.encStr [1]) State.reset)).wpos = 0 := by decide

/-- R102. -/
theorem test_exec_iclr :
    (after .iclr (after (.decUint 9) (loaded [1]))).rerr = 0 ∧ (after .iclr (loaded [1])).ilen = 0 := by decide

/-- R103. -/
theorem test_exec_iload :
    (after (.iload [0x21, 0x7F]) State.reset).peekIn 0 2 = some [0x21, 0x7F]
    ∧ (after (.iload [0x21, 0x7F]) State.reset).rn = 2 := by decide

/-- R226. -/
theorem test_exec_encSeg :
    (after (.encSeg 64 1476) State.reset).rv = 0x65 ∧ (after (.encSeg 1 50) State.reset).rv = 0x00 := by decide

/-- R226. -/
theorem test_exec_encSeg_1477 :
    (after (.encSeg 1 1477) State.reset).st = 3 ∧ (after (.encSeg 1 1477) State.reset).werr = 0 := by decide

/-- R84. -/
theorem test_step_halts_on_a_reserved_opcode :
    (stepped (State.reset.pushCmd [0xFF, 0x00])).halt = true
    ∧ (stepped (State.reset.pushCmd [0xFF, 0x00])).st = 7 ∧ (stepped (State.reset.pushCmd [0xFF, 0x00])).stream = [] := by
  decide

/-! ## One step of each wire-tag row, on a value whose first octet is the row's (R90, R195) -/

theorem test_exec_tagNull : decodes (.tagNull false 0) [0x00] = (1, 0, 1) := by decide

theorem test_exec_tagBool : decodes (.tagBool false 7) [0x17] = (0, 1, 1) := by decide

theorem test_exec_tagUint : decodes (.tagUint false 2) [0x22, 0x01, 0x00] = (0, 256, 3) := by decide

theorem test_exec_tagSint : decodes (.tagSint false 2) [0x32, 0xFF, 0x7F] = (0, 0xFFFFFFFFFFFFFF7F, 3) := by decide

theorem test_exec_tagReal : decodes (.tagReal false 2) [0x42, 0x42, 0x91, 0x00, 0x00] = (0, 0x42910000, 5) := by decide

theorem test_exec_tagDbl :
    decodes (.tagDbl false 5) [0x55, 0x08, 0x40, 0x52, 0x20, 0x00, 0x00, 0x00, 0x00, 0x00] = (0, 0x4052200000000000, 10) := by
  decide

theorem test_exec_tagOctstr : decodes (.tagOctstr false 3) [0x63] = (4, 0, 0) := by decide

theorem test_exec_tagStr :
    decodes (.tagStr false 5) [0x75, 0x05, 0x68, 0x65, 0x6C, 0x6C, 0x6F] = (0, 2, 7) := by decide

theorem test_exec_tagBitstr : decodes (.tagBitstr false 5) [0x85] = (2, 0, 0) := by decide

theorem test_exec_tagEnum : decodes (.tagEnum true 1) [0x99, 0x03] = (0, 3, 2) := by decide

theorem test_exec_tagDate :
    decodes (.tagDate false 4) [0xA4, 0x22, 0x01, 0x18, 0x03] = (0, 0x00000007E8011803, 5) := by decide

theorem test_exec_tagTime :
    decodes (.tagTime false 4) [0xB4, 0x0C, 0x22, 0x38, 0x4E] = (0, 0x0000000C2238030C, 5) := by decide

theorem test_exec_tagOid : decodes (.tagOid false 2) [0xC2, 0x02, 0x00, 0x00, 0x0C] = (0, 0x0200000C, 5) := by decide

theorem test_exec_tagRsvd13 : decodes (.tagRsvd13 false 0) [0xD0] = (4, 0, 0) := by decide

theorem test_exec_tagRsvd14 : decodes (.tagRsvd14 true 0) [0xE8] = (4, 0, 0) := by decide

theorem test_exec_tagExt : decodes (.tagExt false 1) [0xF1, 0x02, 0x7F] = (0, 0x7F, 3) := by decide

theorem test_exec_tagExt_255 : decodes (.tagExt false 1) [0xF1, 0xFF, 0x7F] = (2, 0, 0) := by decide

/-! ## The assembler (R86) -/

/-- R86's own example. -/
theorem test_assemble_encTag : assembleOctets "ENC_TAG 3, 1, 2" = some [0x10, 3, 1, 0, 0, 0, 2] := by decide

/-- R86's own example. -/
theorem test_assemble_appStr :
    assembleOctets "APP_STR \"abc\"" = some [0x47, 0, 0, 0, 3, 0x61, 0x62, 0x63] := by decide

/-- R86: a negative decimal is assembled as its two's complement. -/
theorem test_assemble_encSint : assembleOctets "ENC_SINT -129 ; two octets" = some [0x21, 0xFF, 0xFF, 0xFF, 0x7F] := by
  decide

/-- R87: `CTX_UINT` is a header with the minimal length, then the value. -/
theorem test_assemble_ctxUint :
    assembleOctets "CTX_UINT 3, 0x100" = some [0x10, 3, 1, 0, 0, 0, 2, 0x20, 0, 0, 1, 0] := by decide

theorem test_assemble_refuses_a_wide_operand : assembleOctets "DEC_UINT 256" = none := by decide

/-! ## Witnesses: states and operands that meet the hypotheses of each obligation -/

/-- A state whose output buffer has no room left. -/
def full : State := { State.reset with wpos := 2048 }

/-- A halted state. -/
def halted : State := { State.reset with halt := true, st := 7 }

/-- Both premises of `Emits` are met for `out`: by a ready state with room, and by a ready state without. -/
def RoomAndNone (out : List Byte) : Prop :=
  (EncReady State.reset ∧ Fits out State.reset) ∧ (EncReady full ∧ ¬ Fits out full)

theorem roomAndNone {out : List Byte} (h0 : 0 < out.length) (h1 : out.length ≤ 2048) : RoomAndNone out := by
  refine ⟨⟨⟨rfl, rfl, rfl⟩, ?_⟩, ⟨rfl, rfl, rfl⟩, ?_⟩
  · show 0 + out.length ≤ 2048; omega
  · show ¬ 2048 + out.length ≤ 2048; omega

/-- Both premises of `Reads` are met for `n` octets: by a ready state that holds them, and by a ready state that does
not. -/
def EnoughAndShort (bs : List Byte) (n : Nat) : Prop :=
  (DecReady (loaded bs) ∧ n ≤ unreadCount (loaded bs)) ∧ (DecReady (loaded []) ∧ unreadCount (loaded []) < n)

theorem loaded_ready (bs : List Byte) : DecReady (loaded bs) := ⟨rfl, rfl⟩

theorem enoughAndShort {bs :
    List Byte} {n : Nat} (h : n ≤ unreadCount (loaded bs)) (h0 : 0 < n) : EnoughAndShort bs n :=
  ⟨⟨loaded_ready _, h⟩, loaded_ready _, h0⟩

theorem test_witness_DecodeReadsBackEveryEncodedCommand :
    (Instr.appStr [0x61]).isWireTag = false ∧ (Instr.appStr [0x61]).wellFormed = true := by decide

theorem test_witness_EncodeWritesBackEveryDecodedCommand :
    decode [0x47, 0, 0, 0, 1, 0x61, 0x50] = .done (.appStr [0x61]) [0x50] := by decide

theorem test_witness_CommandLengthGovernsTheParser :
    (commandLength [0x30, 0x02] = some 2 ∧ commandLength [0x03, 0, 1, 0x21, 0x00] = some 4)
    ∧ commandLength [0x03, 0, 1] = some 4
    ∧ (commandLength [0x03, 0] = none ∧ commandLength [] = none ∧ commandLength [0x71] = none) := by decide

theorem test_witness_ReservedOpcodeHaltsTheBlock :
    (State.reset.pushCmd [0x04, 0x00]).halt = false ∧ ReservedOpcode 0x04 ∧ ReservedOpcode 0xFF
    ∧ (State.reset.pushCmd [0x04, 0x00]).stream = [0x04, 0x00] := by unfold ReservedOpcode; decide

theorem test_witness_WireTagOctetsRoundTrip : (Instr.tagExt true 7).isWireTag = true := by decide

theorem test_witness_StepRunsTheDecodedCommand :
    (State.reset.pushCmd [0x30, 0x02]).halt = false
    ∧ decode (State.reset.pushCmd [0x30, 0x02]).stream = .done (.decUint 2) [] := by decide

theorem test_witness_PushedPiecesFormACommand :
    State.reset.halt = false ∧ halted.halt = true
    ∧ (Instr.decUint 2).isWireTag = false ∧ (Instr.decUint 2).wellFormed = true
    ∧ encode (.decUint 2) = [0x30] ++ [0x02] ∧ (State.reset.pushCmd [0x30]).halt = false
    ∧ (State.reset.pushCmd [0x30]).stream = [0x30] := by decide

theorem test_witness_HaltedBlockStaysAsItIs : halted.halt = true ∧ halted.werr = 0 := by decide

theorem test_witness_ResetStateIsTheOneTheSpecGives :
    State.reset = State.reset ∧ ((loaded [7]).hostReset = State.reset ∨ (loaded [7]).hostReset = (loaded [7]).hostReset) :=
  ⟨rfl, .inr rfl⟩

theorem test_witness_NumberedRegistersAreTheHostsView : 12 < 13 := by decide

theorem test_witness_HostReadsAnswerTheDefinedRegions :
    (after (.encTag 255 0 0) State.reset).werr ≠ 0 ∧ State.reset.werr = 0
    ∧ (loaded [0x21]).ilen.toNat < 0 + 2 ∧ 0 + 1 ≤ (loaded [0x21]).ilen.toNat := by decide

theorem loaded_inv : Inv (loaded [0x22, 0x01, 0x00]) :=
  ⟨by decide, by decide, by decide, .inl rfl, .inl rfl, by decide, by decide, by decide⟩

theorem test_witness_EveryStepKeepsTheRegisterInvariant :
    Inv (loaded [0x22, 0x01, 0x00])
    ∧ step (loaded [0x22, 0x01, 0x00]) = .next (stepped (loaded [0x22, 0x01, 0x00]))
    ∧ exec (.decUint 1) (loaded [0x22, 0x01, 0x00]) = .next (after (.decUint 1) (loaded [0x22, 0x01, 0x00])) :=
  ⟨loaded_inv, took (by decide), ran (by decide)⟩

theorem loaded_memoryInv : MemoryInv (loaded [0x22, 0x01, 0x00]) :=
  ⟨by decide, by decide, by decide, by decide⟩

theorem test_witness_EveryStepKeepsTheMemoryCanonical :
    MemoryInv ((loaded [0x22, 0x01, 0x00]).pushCmd [0x20, 0, 0, 1, 0])
    ∧ step ((loaded [0x22, 0x01, 0x00]).pushCmd [0x20, 0, 0, 1, 0])
        = .next (stepped ((loaded [0x22, 0x01, 0x00]).pushCmd [0x20, 0, 0, 1, 0])) :=
  ⟨⟨by decide, by decide, by decide, by decide⟩, took (by decide)⟩

/-- The result registers at the ends of their ranges, and a command waiting. -/
def ranged : State := { State.reset with rt := 254, rn := 65535, stream := [0x50] }

theorem test_witness_EveryStepKeepsTheResultRanges : ResultRanges ranged ∧ step ranged = .next (stepped ranged) :=
  ⟨⟨by decide, by decide⟩, took (by decide)⟩

theorem test_witness_EachClassKeepsToItsHalf :
    (exec (.encUint 5) State.reset = .next (after (.encUint 5) State.reset)
      ∧ exec (.encUint 5) (loaded [7]) = .next (after (.encUint 5) (loaded [7])) ∧ cls (.encUint 5) = .enc
      ∧ (loaded [7]).halt = State.reset.halt ∧ (loaded [7]).obuf = State.reset.obuf
      ∧ (loaded [7]).wpos = State.reset.wpos ∧ (loaded [7]).werr = State.reset.werr)
    ∧ (exec (.decUint 1) State.reset = .next (after (.decUint 1) State.reset)
      ∧ exec (.decUint 1) full = .next (after (.decUint 1) full) ∧ cls (.decUint 1) = .dec
      ∧ full.halt = State.reset.halt ∧ full.ibuf = State.reset.ibuf ∧ full.ilen = State.reset.ilen
      ∧ full.rpos = State.reset.rpos ∧ full.rerr = State.reset.rerr) :=
  ⟨⟨ran (by decide), ran (by decide), by decide⟩, ran (by decide), ran (by decide), by decide⟩

theorem test_witness_EncodeAndDecodeCommandsCommute :
    cls (.encUint 5) = .enc ∧ cls (.decUint 1) = .dec
    ∧ exec (.encUint 5) (loaded [7]) = .next (after (.encUint 5) (loaded [7]))
    ∧ exec (.decUint 1) (after (.encUint 5) (loaded [7]))
        = .next (after (.decUint 1) (after (.encUint 5) (loaded [7]))) :=
  ⟨by decide, by decide, ran (by decide), ran (by decide)⟩

theorem test_witness_NoCommandReadsResultsOrTheStream :
    (exec (.decUint 1) (loaded [7]) = .next (after (.decUint 1) (loaded [7])) ∧ (loaded [7]).halt = false
      ∧ Instr.decUint 1 ≠ .nop)
    ∧ (exec (.decUint 1) halted = .next (after (.decUint 1) halted) ∧ halted.halt = true)
    ∧ exec .nop State.reset = .next (after .nop State.reset) :=
  ⟨⟨ran (by decide), by decide⟩, ⟨ran (by decide), by decide⟩, ran (by decide)⟩

theorem test_witness_UnspecifiedOctetsAreUnobservable :
    MemoryInv (loaded [0x22, 0x01, 0x00]) ∧ MemoryInv { loaded [0x22, 0x01, 0x00] with ibuf := [(0, 0x22), (1, 1), (3, 9)] }
    ∧ SameObservable (loaded [0x22, 0x01, 0x00]) { loaded [0x22, 0x01, 0x00] with ibuf := [(0, 0x22), (1, 1), (3, 9)] }
    ∧ { loaded [0x22, 0x01, 0x00] with ibuf := [(0, 0x22), (1, 1), (3, 9)] } ≠ loaded [0x22, 0x01, 0x00] :=
  ⟨loaded_memoryInv, ⟨by decide, by decide, by decide, by decide⟩,
    ⟨by decide, rfl, rfl, rfl, rfl, rfl, ⟨rfl, rfl⟩, by decide, by decide⟩, by decide⟩

theorem test_witness_CursorsMoveOnlyAsReported :
    (exec .decAny (loaded [0x00]) = .next (after .decAny (loaded [0x00])) ∧ (loaded [0x00]).halt = false
      ∧ cls .decAny = .dec ∧ (after .decAny (loaded [0x00])).st.toNat = 1)
    ∧ (exec .decAny State.reset = .next (after .decAny State.reset) ∧ State.reset.halt = false
      ∧ 2 ≤ (after .decAny State.reset).st.toNat)
    ∧ (exec (.encUint 5) State.reset = .next (after (.encUint 5) State.reset) ∧ cls (.encUint 5) = .enc
      ∧ (after (.encUint 5) State.reset).st = 0)
    ∧ (exec (.encUint 5) full = .next (after (.encUint 5) full) ∧ full.halt = false ∧ (after (.encUint 5) full).st ≠ 0)
    ∧ exec .iclr (loaded [0x00]) = .next (after .iclr (loaded [0x00])) ∧ cls .iclr = .neutral :=
  ⟨⟨ran (by decide), by decide⟩, ⟨ran (by decide), by decide⟩, ⟨ran (by decide), by decide⟩,
    ⟨ran (by decide), by decide⟩, ran (by decide), by decide⟩

theorem test_witness_RunsOnlyExtendTheOutput :
    Memory.wf State.reset.obuf = true ∧ State.reset.wpos.toNat ≤ hw.obufCap
    ∧ Instr.oclr ∉ [Instr.encUint 5, .appNull]
    ∧ runCommands [.encUint 5, .appNull] State.reset = some (after .appNull (after (.encUint 5) State.reset)) := by
  decide

/-- A state with both sticky errors set. -/
def faulted : State := { State.reset with werr := 3, rerr := 2 }

theorem test_witness_StickyErrorShortCircuits :
    faulted.halt = false ∧ sticky (cls (.encUint 5)) faulted ≠ 0 ∧ sticky (cls .decAny) faulted ≠ 0 := by decide

theorem test_witness_FaultLeavesBuffersAndCursors :
    (exec (.encUint 5) full = .next (after (.encUint 5) full) ∧ full.halt = false ∧ sticky (cls (.encUint 5)) full = 0
      ∧ (after (.encUint 5) full).st.toNat = 6)
    ∧ (exec (.decUint 5) (loaded [7]) = .next (after (.decUint 5) (loaded [7])) ∧ (loaded [7]).halt = false
      ∧ sticky (cls (.decUint 5)) (loaded [7]) = 0 ∧ (after (.decUint 5) (loaded [7])).st.toNat = 2) :=
  ⟨⟨ran (by decide), by decide⟩, ran (by decide), by decide⟩

theorem test_witness_StatusesOfEachCommand :
    (exec .decAny (loaded [0x63]) = .next (after .decAny (loaded [0x63])) ∧ (loaded [0x63]).halt = false
      ∧ sticky (cls .decAny) (loaded [0x63]) = 0)
    ∧ exec .nop (loaded [0x63]) = .next (after .nop (loaded [0x63])) :=
  ⟨⟨ran (by decide), by decide⟩, ran (by decide)⟩

theorem test_witness_OnlyClearingLeavesAFault :
    (exec .oclr faulted = .next (after .oclr faulted) ∧ faulted.werr ≠ 0)
    ∧ exec .iclr faulted = .next (after .iclr faulted) ∧ faulted.rerr ≠ 0 :=
  ⟨⟨ran (by decide), by decide⟩, ran (by decide), by decide⟩

theorem test_witness_NopAndClearCommandsAnswer : (loaded [7]).halt = false ∧ (loaded [7]).ilen ≠ 0 := by decide

theorem test_witness_IloadReplacesTheInput :
    [0x21, 0x7F].length = beVal [0, 2] ∧ (loaded [7]).halt = false ∧ Memory.wf (loaded [7]).ibuf = true
    ∧ (List.replicate 2048 (7 : Byte)).length ≤ hw.ibufCap ∧ hw.ibufCap < (List.replicate 2049 (7 : Byte)).length := by
  simp only [List.length_replicate]; decide

theorem test_witness_BufferCommandsKeepTheOldOctets :
    exec .iclr (loaded [7]) = .next (after .iclr (loaded [7]))
    ∧ exec (.iload [9]) (loaded [7, 8]) = .next (after (.iload [9]) (loaded [7, 8]))
    ∧ [(9 : Byte)].length ≤ 1 ∧ hw.ibufCap < (List.replicate 2049 (7 : Byte)).length :=
  ⟨ran (by decide), ran (by decide), by decide, by simp only [List.length_replicate]; decide⟩

theorem test_witness_EncTagAppendsAHeader :
    EncReady State.reset ∧ (1 < (2 : Byte).toNat) ∧ ((254 : Byte) ≠ 255 ∧ (1 : Byte).toNat ≤ 1)
    ∧ RoomAndNone (encTag 254 true 0xFFFFFFFF) := ⟨⟨rfl, rfl, rfl⟩, by decide, by decide, roomAndNone (by decide) (by decide)⟩

theorem test_witness_HeaderOctetsFollowTheEightShapes :
    (14 ≤ 254 ∧ 4 < 2 ^ 32 ∧ 14 ≤ 14 ∧ 4 ≤ 4) ∧ (5 ≤ 5 ∧ 253 ≤ 253) ∧ (254 ≤ 254 ∧ 65535 ≤ 65535)
    ∧ (65536 ≤ 65536 ∧ 65536 < 2 ^ 32) ∧ (15 ≤ 15 ∧ 15 ≤ 254) := by decide

theorem test_witness_TagHeadersRoundTrip :
    hw.Valid ∧ 254 ≤ 254 ∧ 2 ^ 32 - 1 < 2 ^ 32 := ⟨hw_valid, by decide, by decide⟩

theorem test_witness_DecTagReportsTheHeader :
    (DecReady (loaded []) ∧ unreadCount (loaded []) = 0)
    ∧ (DecReady (loaded [0x25, 0xFE, 0x01]) ∧ HeaderCut (loaded [0x25, 0xFE, 0x01]))
    ∧ HeaderCut (loaded [0xF5, 0xFF])
    ∧ HeaderAt (loaded [0x21, 0x07]) 2 false 1 1
    ∧ HeaderAt (loaded [0xFD, 0x64, 0xFE, 0x01, 0x00]) 100 true 256 5 := by
  refine ⟨⟨loaded_ready _, rfl⟩, ⟨loaded_ready _, by decide, .inl ⟨by decide, by decide, .inr (.inl (by decide))⟩⟩,
    ⟨by decide, .inr ⟨by decide, .inr (.inl (by decide))⟩⟩,
    ⟨by decide, by decide, 0, .inl ⟨by decide, by decide, by decide, by decide, .inl (by decide)⟩⟩,
    ⟨by decide, by decide, 3, .inr ⟨by decide, by decide, by decide, by decide, by decide,
      .inr (.inr (.inl (by decide)))⟩⟩⟩

theorem test_witness_MinimalLengthsAreLeast :
    (0 < 2 ^ 32 - 1 ∧ 2 ^ 32 - 1 < 2 ^ 32) ∧ ((-2 ^ 31 : Int) ≤ -2 ^ 31 ∧ (-2 ^ 31 : Int) < 2 ^ 31) := by decide

theorem test_witness_IntegersRoundTrip :
    hw.Valid ∧ 256 < 2 ^ 32 ∧ ((-2 ^ 31 : Int) ≤ -129 ∧ (-129 : Int) < 2 ^ 31) ∧ 14 < 15 :=
  ⟨hw_valid, by decide, by decide, by decide⟩

theorem test_witness_EncIntegersAppendTheMinimalPayload : RoomAndNone (be 256 (ulen 256)) :=
  roomAndNone (by decide) (by decide)

theorem test_witness_DecIntegersReadExactlyTheCount :
    (DecReady (loaded []) ∧ 4 < (5 : Byte).toNat) ∧ EnoughAndShort [1, 2, 3, 4] (4 : Byte).toNat :=
  ⟨⟨loaded_ready _, by decide⟩, enoughAndShort (by decide) (by decide)⟩

theorem test_witness_RawPayloadsAreAppendedUnchanged :
    RoomAndNone (be 0x42910000 4) ∧ RoomAndNone (be 0x4052200000000000 8) ∧ RoomAndNone [0x61]
    ∧ [(0x61 : Byte)].length = beVal [0, 0, 0, 1] ∧ [(0x61 : Byte)].length < 2 ^ 32 :=
  ⟨roomAndNone (by decide) (by decide), roomAndNone (by decide) (by decide), roomAndNone (by decide) (by decide),
    by decide, by decide⟩

theorem test_witness_FixedPayloadsAreReadBigEndian :
    EnoughAndShort [1, 2, 3, 4] 4 ∧ EnoughAndShort [1, 2, 3, 4, 5, 6, 7, 8] 8 :=
  ⟨enoughAndShort (by decide) (by decide), enoughAndShort (by decide) (by decide)⟩

theorem test_witness_DecStrStepsOverThePayload : EnoughAndShort [1, 2, 3] (3 : Word).toNat :=
  enoughAndShort (by decide) (by decide)

theorem test_witness_EncDateAppendsTheOffsetYear :
    RoomAndNone [254, 14, 33, 0] ∧ ((2244 : Half) ≠ 255 ∧ (254 : Byte) ≠ 255 ∧ (2244 : Half).toNat = (254 : Byte).toNat + 1990)
    ∧ ((255 : Half) = 255 ∧ (255 : Byte) = 255)
    ∧ (EncReady State.reset ∧ (1989 : Half) ≠ 255 ∧ (1989 : Half).toNat < 1990) ∧ 2244 < (2245 : Half).toNat :=
  ⟨roomAndNone (by decide) (by decide), by decide, by decide, ⟨⟨rfl, rfl, rfl⟩, by decide, by decide⟩, by decide⟩

theorem test_witness_EncTimeAppendsCentiseconds :
    RoomAndNone [12, 34, 56, 99] ∧ (999 : Half).toNat ≤ 999 ∧ EncReady State.reset ∧ 999 < (1000 : Half).toNat :=
  ⟨roomAndNone (by decide) (by decide), by decide, ⟨rfl, rfl, rfl⟩, by decide⟩

theorem test_witness_EncOidAppendsThePackedWord :
    RoomAndNone (be (1023 * 2 ^ 22 + 4194303) 4) ∧ ((1023 : Half).toNat ≤ 1023 ∧ (4194303 : Word).toNat ≤ 4194303)
    ∧ EncReady State.reset ∧ 1023 < (1024 : Half).toNat ∧ 4194303 < (4194304 : Word).toNat :=
  ⟨roomAndNone (by decide) (by decide), by decide, ⟨rfl, rfl, rfl⟩, by decide, by decide⟩

theorem test_witness_DecDateReadsTheOctetThenTheSentinel : EnoughAndShort [0xFF, 14, 33, 0] 4 :=
  enoughAndShort (by decide) (by decide)

theorem test_witness_DecTimeReadsCentiseconds : EnoughAndShort [12, 34, 56, 99] 4 :=
  enoughAndShort (by decide) (by decide)

theorem test_witness_AppNullAndBoolAreHeadersAlone :
    RoomAndNone (encTag 0 false 0) ∧ RoomAndNone (encTag 1 false 1)
    ∧ (1 : Byte).toNat ≤ 1 ∧ EncReady State.reset ∧ 1 < (2 : Byte).toNat :=
  ⟨roomAndNone (by decide) (by decide), roomAndNone (by decide) (by decide), by decide, ⟨rfl, rfl, rfl⟩, by decide⟩

theorem test_witness_AppIntegersTagTheMinimalPayload : RoomAndNone (encTag 2 false 2 ++ be 256 2) :=
  roomAndNone (by decide) (by decide)

theorem test_witness_AppRealAndDoubleTagTheBitPattern : RoomAndNone (encTag 5 false 8 ++ be 0x4052200000000000 8) :=
  roomAndNone (by decide) (by decide)

theorem test_witness_AppStringsTagTheOctetsOrRaise :
    [(0x61 : Byte)].length = beVal [0, 0, 0, 1] ∧ [(0x61 : Byte)].length < 2 ^ 32
    ∧ RoomAndNone (encTag 7 false 1 ++ [0x61]) := ⟨by decide, by decide, roomAndNone (by decide) (by decide)⟩

theorem test_witness_AppDateTimeAndOidTagTheFixedPayload :
    RoomAndNone (encTag 10 false 4 ++ [254, 14, 33, 0])
    ∧ ((1990 : Half) ≠ 255 ∧ (0 : Byte) ≠ 255 ∧ (1990 : Half).toNat = (0 : Byte).toNat + 1990)
    ∧ (EncReady State.reset ∧ (254 : Half) ≠ 255 ∧ (254 : Half).toNat < 1990)
    ∧ (999 < (1000 : Half).toNat ∧ (999 : Half).toNat ≤ 999)
    ∧ (1023 < (1024 : Half).toNat ∧ (1023 : Half).toNat ≤ 1023 ∧ (4194303 : Word).toNat ≤ 4194303) :=
  ⟨roomAndNone (by decide) (by decide), by decide, ⟨⟨rfl, rfl, rfl⟩, by decide, by decide⟩, by decide, by decide⟩

theorem test_witness_DecAnyDecodesOneValue :
    (DecReady (loaded []) ∧ unreadCount (loaded []) = 0)
    ∧ (DecReady (loaded [0xF1]) ∧ HeaderCut (loaded [0xF1]))
    ∧ (HeaderAt (loaded [0x22, 0x01, 0x00]) 2 false 2 1 ∧ hw.apptag .unsigned = 2
      ∧ 1 + 2 ≤ unreadCount (loaded [0x22, 0x01, 0x00]))
    ∧ (HeaderAt (loaded [0x22, 0x01]) 2 false 2 1 ∧ unreadCount (loaded [0x22, 0x01]) < 1 + 2)
    ∧ (HeaderAt (loaded [0xD0]) 13 false 0 1 ∧ ∀ k, hw.apptag k ≠ 13) := by
  refine ⟨⟨loaded_ready _, rfl⟩, ⟨loaded_ready _, by decide, .inr ⟨by decide, .inl (by decide)⟩⟩,
    ⟨⟨by decide, by decide, 0, .inl ⟨by decide, by decide, by decide, by decide, .inl (by decide)⟩⟩, by decide, by decide⟩,
    ⟨⟨by decide, by decide, 0, .inl ⟨by decide, by decide, by decide, by decide, .inl (by decide)⟩⟩, by decide⟩,
    ⟨by decide, by decide, 0, .inl ⟨by decide, by decide, by decide, by decide, .inl (by decide)⟩⟩,
    fun k => by cases k <;> decide⟩

theorem test_witness_WireRowsDecodeTheirPayload :
    (rowParts (.tagUint false 2) = some (2, false, 2) ∧ DecReady (loaded []) ∧ unreadCount (loaded []) = 0)
    ∧ (1 ≤ unreadCount (loaded [0x25]) ∧ LengthCut (loaded [0x25]) 1 5 ∧ rowParts (.tagUint false 5) = some (2, false, 5))
    ∧ (1 ≤ unreadCount (loaded [0x22, 1, 0]) ∧ LengthField (loaded [0x22, 1, 0]) 1 2 2 0 ∧ hw.apptag .unsigned = 2)
    ∧ (rowParts (.tagRsvd13 false 0) = some (13, false, 0) ∧ LengthField (loaded [0xD0]) 1 0 0 0 ∧ ∀ k, hw.apptag k ≠ 13)
    ∧ (rowParts (.tagExt false 1) = some (15, false, 1) ∧ unreadCount (loaded [0xF1]) = 1
      ∧ octetAt (loaded [0xF1, 0xFF]) 1 = 255 ∧ LengthCut (loaded [0xF5, 0x02]) 2 5)
    ∧ (2 ≤ unreadCount (loaded [0xF1, 0x02, 7]) ∧ octetAt (loaded [0xF1, 0x02, 7]) 1 ≠ 255
      ∧ LengthField (loaded [0xF1, 0x02, 7]) 2 1 1 0 ∧ hw.apptag .unsigned = (octetAt (loaded [0xF1, 0x02, 7]) 1).toNat)
    ∧ ∀ k, hw.apptag k ≠ (octetAt (loaded [0xF1, 0x64, 7]) 1).toNat := by
  refine ⟨⟨by decide, loaded_ready _, rfl⟩, ⟨by decide, ⟨rfl, .inl (by decide)⟩, by decide⟩,
    ⟨by decide, ⟨by decide, .inl (by decide)⟩, by decide⟩,
    ⟨by decide, ⟨by decide, .inl (by decide)⟩, fun k => by cases k <;> decide⟩,
    ⟨by decide, by decide, by decide, ⟨rfl, .inl (by decide)⟩⟩,
    ⟨by decide, by decide, ⟨by decide, .inl (by decide)⟩, by decide⟩, fun k => by cases k <;> decide⟩

theorem test_witness_DecAnyRunsTheWireRowOfItsFirstOctet :
    1 ≤ unreadCount (loaded [0x22, 1, 0]) ∧ (0x22 : Byte).toNat / 16 = (0x2D : Byte).toNat / 16 := by decide

theorem test_witness_ApplicationValuesRoundTrip :
    hw.Valid
    ∧ (∃ em, emitAppNull hw = .ok em)
    ∧ (∃ em, emitAppBool hw 1 = .ok em) ∧ (∃ em, emitAppUint hw 256 = .ok em) ∧ (∃ em, emitAppSint hw 0xFFFFFF7F = .ok em)
    ∧ (∃ em, emitAppReal hw 0x42910000 = .ok em) ∧ (∃ em, emitAppDbl hw 0x4052200000000000 = .ok em)
    ∧ (∃ em, emitAppEnum hw 3 = .ok em) ∧ (∃ em, emitAppDate hw 2024 1 24 3 = .ok em) ∧ (∃ em, emitAppOid hw 8 12 = .ok em)
    ∧ ([(0x61 : Byte)].length < 2 ^ 32 ∧ ∃ em, emitAppStr hw [0x61] = .ok em)
    ∧ ∃ em, emitAppTime hw 12 34 56 789 = .ok em :=
  ⟨hw_valid, ⟨_, rfl⟩, ⟨_, rfl⟩, ⟨_, rfl⟩, ⟨_, rfl⟩, ⟨_, rfl⟩, ⟨_, rfl⟩, ⟨_, rfl⟩, ⟨_, rfl⟩, ⟨_, rfl⟩,
    ⟨by decide, _, rfl⟩, ⟨_, rfl⟩⟩

theorem test_witness_RoundTripOnTheBlock :
    appKind (.appStr [0x61]) = some .characterString ∧ appKind (.appTime 12 34 56 789) = some .time
    ∧ EncReady State.reset ∧ State.reset.wpos = 0 ∧ Memory.wf State.reset.ibuf = true
    ∧ exec (.appStr [0x61]) State.reset = .next (after (.appStr [0x61]) State.reset)
    ∧ (after (.appStr [0x61]) State.reset).st = 0
    ∧ exec (.appTime 12 34 56 789) State.reset = .next (after (.appTime 12 34 56 789) State.reset)
    ∧ (after (.appTime 12 34 56 789) State.reset).st = 0 :=
  ⟨by decide, by decide, ⟨rfl, rfl, rfl⟩, rfl, rfl, ran (by decide), by decide, ran (by decide), by decide⟩

theorem test_witness_EncNpduAppendsTheSixSteps :
    ([(0x0A : Byte)].length = (1 : Byte).toNat ∧ ([] : List Byte).length = (0 : Byte).toNat)
    ∧ (EncReady State.reset ∧ (0x08 : Byte).toNat / 8 % 16 ≠ 0)
    ∧ ((0x04 : Byte).toNat / 8 % 16 = 0
      ∧ (0x24 : Byte).getLsbD 7 = (0x04 : Byte).getLsbD 7 ∧ (0x24 : Byte).getLsbD 6 = false
      ∧ (0x24 : Byte).getLsbD 5 = decide ((1234 : Half) ≠ 0) ∧ (0x24 : Byte).getLsbD 4 = false
      ∧ (0x24 : Byte).getLsbD 3 = decide ((0 : Half) ≠ 0 ∧ ([] : List Byte) ≠ [])
      ∧ (0x24 : Byte).getLsbD 2 = (0x04 : Byte).getLsbD 2 ∧ (0x24 : Byte).getLsbD 1 = (0x04 : Byte).getLsbD 1
      ∧ (0x24 : Byte).getLsbD 0 = (0x04 : Byte).getLsbD 0)
    ∧ RoomAndNone [0x01, 0x24, 0x04, 0xD2, 0x01, 0x0A, 0x00, 0x00, 0x00, 0xFF] :=
  ⟨by decide, ⟨⟨rfl, rfl, rfl⟩, by decide⟩, by decide, roomAndNone (by decide) (by decide)⟩

theorem test_witness_NpduHeaderLengthAndExample :
    (List.replicate 255 (7 : Byte)).length < 256 ∧ ([] : List Byte).length < 256 := by
  simp only [List.length_replicate]; decide

theorem test_witness_EncSegAnswersTheOctet :
    (State.reset.halt = false ∧ 1476 < (1477 : Half).toNat)
    ∧ (SegHighBucket (64 : Half).toNat 6 ∧ SegHighBucket (0 : Half).toNat 0 ∧ SegHighBucket (63 : Half).toNat 5
      ∧ SegHighBucket (65535 : Half).toNat 7)
    ∧ SegLowBucket (1476 : Half).toNat 5 ∧ SegLowBucket (50 : Half).toNat 0 ∧ SegLowBucket (51 : Half).toNat 1 := by
  refine ⟨by decide, ⟨?_, ?_, ?_, ?_⟩, ?_, ?_, ?_⟩ <;> simp [SegHighBucket, SegLowBucket]

theorem test_witness_PseudoInstructionsAppendTheirParts :
    EncReady State.reset ∧ (254 : Byte) ≠ 255 ∧ (1023 : Half).toNat ≤ 1023 ∧ (4194303 : Word).toNat ≤ 4194303
    ∧ [(0x61 : Byte)].length < 2 ^ 32
    ∧ Fits (encTag (254 : Byte).toNat true (ulen (256 : Word).toNat) ++ be (256 : Word).toNat (ulen (256 : Word).toNat))
        State.reset :=
  ⟨⟨rfl, rfl, rfl⟩, by decide, by decide, by decide, by decide, by unfold Fits; decide⟩

end Sys2Proof.Tests
end

section
/-! PROOFS. The family of spec/00_scope.md: every command in every state has one successor (R10, R240), and no command
reads a result register or the command stream (R5, R29, R59).

Both rest on one fact: every instruction is the prologue of R243 around pseudocode that its operands fix. The
pseudocode of every command but `NOP` is blind to the result registers and the stream, and so is the prologue around it
while the block is not halted. -/

namespace Sys2Proof.Machine

/-! ## Replacing the result registers and the stream -/

/-- The state with other result registers and another command stream. -/
def State.replace (s : State) (r : Results) (bs : List Byte) : State := (s.setResults r).setStream bs

@[simp] theorem State.replace_ibuf (s : State) (r : Results) (bs : List Byte) : (s.replace r bs).ibuf = s.ibuf := rfl
@[simp] theorem State.replace_ilen (s : State) (r : Results) (bs : List Byte) : (s.replace r bs).ilen = s.ilen := rfl
@[simp] theorem State.replace_rpos (s : State) (r : Results) (bs : List Byte) : (s.replace r bs).rpos = s.rpos := rfl
@[simp] theorem State.replace_rerr (s : State) (r : Results) (bs : List Byte) : (s.replace r bs).rerr = s.rerr := rfl
@[simp] theorem State.replace_obuf (s : State) (r : Results) (bs : List Byte) : (s.replace r bs).obuf = s.obuf := rfl
@[simp] theorem State.replace_wpos (s : State) (r : Results) (bs : List Byte) : (s.replace r bs).wpos = s.wpos := rfl
@[simp] theorem State.replace_werr (s : State) (r : Results) (bs : List Byte) : (s.replace r bs).werr = s.werr := rfl
@[simp] theorem State.replace_halt (s : State) (r : Results) (bs : List Byte) : (s.replace r bs).halt = s.halt := rfl

@[simp] theorem State.replace_unread (s : State) (r : Results) (bs : List Byte) : (s.replace r bs).unread = s.unread := rfl

@[simp] theorem sticky_replace (c : Cls) (s : State) (r : Results) (bs : List Byte) :
    sticky c (s.replace r bs) = sticky c s := by
  cases c <;> rfl

/-! ## The register updates pass the stream through, and writing the results forgets the old ones -/

@[simp] theorem State.setResults_replace (s : State) (r r' : Results) (bs : List Byte) :
    (s.replace r bs).setResults r' = (s.setResults r').setStream bs := rfl

@[simp] theorem State.report_replace (s : State) (r : Results) (bs : List Byte) (code : BitVec 4) :
    (s.replace r bs).report code = (s.report code).setStream bs := rfl

@[simp] theorem State.setEnc_setStream (s : State) (bs : List Byte) (obuf : Memory) (wpos : Half) (werr : BitVec 4) :
    (s.setStream bs).setEnc obuf wpos werr = (s.setEnc obuf wpos werr).setStream bs := rfl

@[simp] theorem State.setDec_setStream (s : State) (bs : List Byte) (ibuf : Memory) (ilen rpos : Half)
    (rerr : BitVec 4) :
    (s.setStream bs).setDec ibuf ilen rpos rerr = (s.setDec ibuf ilen rpos rerr).setStream bs := rfl

/-! ## Pseudocode that is blind to the results and the stream -/

/-- The state a piece of pseudocode gives does not depend on the result registers it starts with, all of which it
overwrites, nor on the stream, which it passes through. -/
def BlindToResultsAndStream (body : State → State) : Prop :=
  ∀ (s : State) (r : Results) (bs : List Byte), body (s.replace r bs) = (body s).setStream bs

theorem raise_blind (c : Cls) (e : Status) : BlindToResultsAndStream (State.raise · c e) := by
  intro s r bs
  cases c <;> simp

theorem append_blind (cfg : Config) (em : Emission) : BlindToResultsAndStream (State.append cfg · em) := by
  intro s r bs
  beta_reduce
  rcases Nat.lt_or_ge cfg.obufCap (s.wpos.toNat + em.out.length) with hover | hfits
  · rw [State.append_overflow hover, State.append_overflow (by simpa using hover)]
    exact raise_blind .enc .bufferOverflow s r bs
  · rw [State.append_fits hfits, State.append_fits (by simpa using hfits)]
    simp [State.appended]

theorem consume_blind (d : Decoded) : BlindToResultsAndStream (State.consume · d) := by
  intro s r bs
  simp [State.consume]

theorem clearOut_blind : BlindToResultsAndStream State.clearOut := by
  intro s r bs
  simp [State.clearOut]

theorem clearIn_blind : BlindToResultsAndStream State.clearIn := by
  intro s r bs
  simp [State.clearIn]

theorem loadIn_blind (cfg : Config) (data : List Byte) : BlindToResultsAndStream (State.loadIn cfg · data) := by
  intro s r bs
  by_cases hover : data.length > cfg.ibufCap <;> simp [State.loadIn, hover]

theorem segCommand_blind (cfg : Config) (maxsegs maxapdu : Half) :
    BlindToResultsAndStream (State.segCommand cfg · maxsegs maxapdu) := by
  intro s r bs
  cases hoctet : segOctet cfg maxsegs.toNat maxapdu.toNat <;> simp [State.segCommand, hoctet]

/-- The prologue consults `HALT` and a sticky error, neither of them a result register, so it is as blind as the
pseudocode it runs; a halted block keeps its results, which is why it is left out. -/
theorem State.prologue_blind {s : State} (h : s.halt = false) (c : Cls) {body : State → State}
    (hbody : BlindToResultsAndStream body) (r : Results) (bs : List Byte) :
    (s.replace r bs).prologue c body = (s.prologue c body).setStream bs := by
  by_cases hs : sticky c s = 0
  · rw [State.prologue_run h hs, State.prologue_run (by simpa using h) (by simpa using hs)]
    exact hbody s r bs
  · rw [State.prologue_sticky h hs, State.prologue_sticky (by simpa using h) (by simpa using hs)]
    simp

/-! ## Every instruction is a prologue around its pseudocode -/

/-- The pseudocode of a command of class ENC: its emission appended or its fault raised (R54). -/
theorem encCommand_eq_prologue (cfg : Config) (e : Except Status Emission) :
    ∃ body, BlindToResultsAndStream body ∧ ∀ s : State, s.encCommand cfg e = s.prologue .enc body := by
  cases e with
  | error e => exact ⟨_, raise_blind .enc e, fun _ => rfl⟩
  | ok em => exact ⟨_, append_blind cfg em, fun _ => rfl⟩

/-- The pseudocode of a command of class DEC: what its helper gives is consumed or its fault raised (R53). The helper
sees the unread input and the cursor, and nothing of the results or the stream. -/
theorem decCommand_eq_prologue (f : List Byte → Nat → Except Status Decoded) :
    ∃ body, BlindToResultsAndStream body ∧ ∀ s : State, s.decCommand f = s.prologue .dec body := by
  refine ⟨_, fun s r bs => ?_, fun _ => rfl⟩
  simp only [State.replace_unread, State.replace_rpos]
  cases f s.unread s.rpos.toNat with
  | error e => exact raise_blind .dec e s r bs
  | ok d => exact consume_blind d s r bs

/-- Every instruction is the prologue of its class around pseudocode that its operands fix (R243); that of every command
but `NOP` is blind to the results and the stream. -/
theorem exec_eq_prologue (i : Instr) :
    ∃ body, (i ≠ .nop → BlindToResultsAndStream body) ∧ ∀ s, exec i s = .next (s.prologue (cls i) body) := by
  cases hc : cls i with
  | enc =>
    obtain ⟨e, -, hexec⟩ := exec_enc hc
    obtain ⟨body, hbody, heq⟩ := encCommand_eq_prologue hw e
    exact ⟨body, fun _ => hbody, fun s => by rw [hexec, heq]⟩
  | dec =>
    obtain ⟨f, -, hexec⟩ := exec_dec hc
    obtain ⟨body, hbody, heq⟩ := decCommand_eq_prologue f
    exact ⟨body, fun _ => hbody, fun s => by rw [hexec, heq]⟩
  | neutral =>
    obtain ⟨rfl, -⟩ | ⟨rfl, -⟩ | ⟨rfl, -⟩ | ⟨data, rfl, -⟩ | ⟨a, b, rfl, -⟩ := exec_neutral hc State.reset
    · exact ⟨_, fun h => absurd rfl h, fun _ => rfl⟩
    · exact ⟨_, fun _ => clearOut_blind, fun _ => rfl⟩
    · exact ⟨_, fun _ => clearIn_blind, fun _ => rfl⟩
    · exact ⟨_, fun _ => loadIn_blind hw data, fun _ => rfl⟩
    · exact ⟨_, fun _ => segCommand_blind hw a b, fun _ => rfl⟩

/-! ## What every command does -/

/-- A halted block discards every command (R28, R243 step 1). -/
theorem exec_halted (i : Instr) {s : State} (h : s.halt = true) : exec i s = .next s := by
  obtain ⟨body, -, hexec⟩ := exec_eq_prologue i
  rw [hexec, State.prologue_halted h]

/-- `NOP` leaves every state as it is (R100). -/
theorem exec_nop (s : State) : exec .nop s = .next s := by
  obtain h | h := Bool.eq_false_or_eq_true s.halt
  · exact exec_halted .nop h
  · exact congrArg Host.Outcome.next (State.prologue_neutral h _)

/-- A command other than `NOP`, in a block that is not halted, takes nothing from the results and the stream. -/
theorem exec_replace {i : Instr} (hi : i ≠ .nop) {s t : State} (h : s.halt = false) (hst : exec i s = .next t)
    (r : Results) (bs : List Byte) : exec i (s.replace r bs) = .next (t.setStream bs) := by
  obtain ⟨body, hbody, hexec⟩ := exec_eq_prologue i
  rw [hexec] at hst
  obtain rfl := Host.Outcome.next.inj hst
  rw [hexec, State.prologue_blind h (cls i) (hbody hi)]

/-- No command faults and none is refused (R10). -/
theorem exec_total (i : Instr) (s : State) : ∃ t, exec i s = .next t := by
  obtain ⟨body, -, hexec⟩ := exec_eq_prologue i
  exact ⟨_, hexec s⟩

/-- No step faults and none is refused: a block that is halted or waits answers a state too (R240, log 3). -/
theorem step_total (s : State) : ∃ t, step s = .next t := by
  obtain ⟨-, hstep⟩ | ⟨-, -, hstep⟩ | ⟨-, -, hstep⟩ | ⟨-, i, rest, -, hstep⟩ := step_cases s
  · exact ⟨_, hstep⟩
  · exact ⟨_, hstep⟩
  · exact ⟨_, hstep⟩
  · rw [hstep]
    exact exec_total i (s.setStream rest)

/-! ## The obligations -/

/-- Settles O20: the prologue and the pseudocode of every command but `NOP` are blind to the results and the stream;
`NOP` and a halted block leave any state as it is. -/
theorem noCommandReadsResultsOrTheStream : Obligations.NoCommandReadsResultsOrTheStream := by
  intro i s t r bs hst
  refine ⟨fun h hi => exec_replace hi h hst r bs, ?_⟩
  rintro (h | rfl)
  · exact exec_halted i h
  · exact exec_nop _

/-- Settles O10: every instruction answers what its prologue does, and a step runs an instruction, halts, waits or
discards. -/
theorem everyCommandInEveryStateHasOneSuccessor : Obligations.EveryCommandInEveryStateHasOneSuccessor :=
  ⟨exec_total, step_total⟩

end Sys2Proof.Machine
end

section
/-! PROOFS. The family of spec/10_state.md: the invariants of R36 and R33, what moves the cursors (R23, R26), what a
run appends (R25), the reset state (R35), a halted block (R28), and that no octet outside the defined regions of the
buffers can be observed (R21, R25, R60).

Statements about one state rest on three lists of everything an instruction can do, one for each class (`EncEffect`,
`DecEffect`, `NeutralEffect`), and are case analyses over them. Statements about two states rest on the relation
`SameObservable`, which every shared operation keeps. -/

namespace Sys2Proof.Machine

open Safety

/-! ## Everything an instruction can do -/

/-- What a command of class ENC can do in a block that is not halted: report its sticky error, raise a fault (R244), or
append a legal emission that fits (R54). -/
inductive EncEffect (s : State) : State → Prop where
  | heldBack (hne : s.werr ≠ 0) : EncEffect s (s.report s.werr)
  | fault {e : Status} (he : e = .unsupportedValueType ∨ e = .bufferOverflow) : EncEffect s (s.raise .enc e)
  | encoded {em : Emission} (hem : EmissionLegal (.ok em)) (hfits : s.wpos.toNat + em.out.length ≤ hw.obufCap) :
      EncEffect s (s.appended em)

/-- What a command of class DEC can do in a block that is not halted: report its sticky error, raise a fault (R244), or
consume a legal decode of the unread input (R53). -/
inductive DecEffect (s : State) : State → Prop where
  | heldBack (hne : s.rerr ≠ 0) : DecEffect s (s.report s.rerr)
  | fault {e : Status} (he : e = .malformedTag ∨ e = .unsupportedTag ∨ e = .insufficientBytes) :
      DecEffect s (s.raise .dec e)
  | decoded {d : Decoded} (hd : DecodedLegal (s.ilen.toNat - s.rpos.toNat) (.ok d)) : DecEffect s (s.consume d)

/-- What a NEUTRAL command can do in a block that is not halted (R100 to R103, R226). -/
inductive NeutralEffect : Instr → State → State → Prop where
  | nop (s : State) : NeutralEffect .nop s s
  | clearedOut (s : State) : NeutralEffect .oclr s s.clearOut
  | clearedIn (s : State) : NeutralEffect .iclr s s.clearIn
  | loadRefused (s : State) {data : List Byte} (hover : hw.ibufCap < data.length) :
      NeutralEffect (.iload data) s ((s.report 6).setDec s.ibuf 0 0 6)
  | loaded (s : State) {data : List Byte} (hfits : data.length ≤ hw.ibufCap) :
      NeutralEffect (.iload data) s ((s.setResults { rn := BitVec.ofNat 32 data.length }).setDec
        (Memory.writeAll s.ibuf 0 data) (BitVec.ofNat 16 data.length) 0 0)
  | segRefused (s : State) (a b : Half) : NeutralEffect (.encSeg a b) s (s.report 3)
  | segAnswered (s : State) (a b : Half) (r : Byte) :
      NeutralEffect (.encSeg a b) s (s.setResults { rv := r.setWidth 64 })

theorem exec_enc_effect {i : Instr} {s t : State} (h : s.halt = false) (hc : cls i = .enc)
    (hst : exec i s = .next t) : EncEffect s t := by
  obtain ⟨r, hr, hexec⟩ := exec_enc hc
  obtain rfl := Host.Outcome.next.inj ((hexec s).symm.trans hst)
  obtain ⟨hhalt, -⟩ | ⟨-, hne, heq⟩ | ⟨-, -, e, rfl, heq⟩ | ⟨-, -, em, rfl, -, heq⟩ | ⟨-, -, em, rfl, hfits, heq⟩ :=
    State.encCommand_cases hw s r
  · exact absurd (h.symm.trans hhalt) (by decide)
  · exact heq ▸ .heldBack hne
  · exact heq ▸ .fault (.inl hr)
  · exact heq ▸ .fault (.inr rfl)
  · exact heq ▸ .encoded hr hfits

theorem exec_dec_effect {i : Instr} {s t : State} (h : s.halt = false) (hc : cls i = .dec)
    (hst : exec i s = .next t) : DecEffect s t := by
  obtain ⟨f, hf, hexec⟩ := exec_dec hc
  obtain rfl := Host.Outcome.next.inj ((hexec s).symm.trans hst)
  have hlegal := hf s.unread s.rpos.toNat
  rw [State.unread_length] at hlegal
  obtain ⟨hhalt, -⟩ | ⟨-, hne, heq⟩ | ⟨-, -, e, he, heq⟩ | ⟨-, -, d, hd, heq⟩ := State.decCommand_cases s f
  · exact absurd (h.symm.trans hhalt) (by decide)
  · exact heq ▸ .heldBack hne
  · exact heq ▸ .fault (by rwa [he] at hlegal)
  · exact heq ▸ .decoded (by rwa [hd] at hlegal)

theorem exec_neutral_effect {i : Instr} {s t : State} (h : s.halt = false) (hc : cls i = .neutral)
    (hst : exec i s = .next t) : NeutralEffect i s t := by
  obtain ⟨rfl, heq⟩ | ⟨rfl, heq⟩ | ⟨rfl, heq⟩ | ⟨data, rfl, heq⟩ | ⟨a, b, rfl, heq⟩ := exec_neutral hc s <;>
    rw [heq, State.prologue_neutral h] at hst <;> obtain rfl := Host.Outcome.next.inj hst
  · exact .nop s
  · exact .clearedOut s
  · exact .clearedIn s
  · obtain ⟨hover, heq⟩ | ⟨hfits, heq⟩ := State.loadIn_cases hw s data
    · exact heq ▸ .loadRefused s hover
    · exact heq ▸ .loaded s hfits
  · obtain ⟨-, heq⟩ | ⟨r, -, heq⟩ := segCommand_cases s a b
    · exact heq ▸ .segRefused s a b
    · exact heq ▸ .segAnswered s a b r

theorem eq_of_exec_halted {i : Instr} {s t : State} (h : s.halt = true) (hst : exec i s = .next t) : t = s :=
  (Host.Outcome.next.inj ((exec_halted i h).symm.trans hst)).symm

/-- A property of a state that every effect of its class keeps is one that the instruction keeps; a halted block keeps
everything. -/
theorem exec_keeps {P : State → Prop} {i : Instr} {s t : State} (hst : exec i s = .next t) (hP : P s)
    (henc : s.halt = false → EncEffect s t → P t) (hdec : s.halt = false → DecEffect s t → P t)
    (hneutral : s.halt = false → NeutralEffect i s t → P t) : P t := by
  obtain h | h := Bool.eq_false_or_eq_true s.halt
  · exact eq_of_exec_halted h hst ▸ hP
  · cases hc : cls i with
    | enc => exact henc h (exec_enc_effect h hc hst)
    | dec => exact hdec h (exec_dec_effect h hc hst)
    | neutral => exact hneutral h (exec_neutral_effect h hc hst)

/-! ## A step, case by case -/

theorem step_halted {s : State} (h : s.halt = true) : step s = .next (s.setStream []) := by
  simp [step, h, State.discardStream]

theorem step_wait {s : State} (h : s.halt = false) (hd : decode s.stream = .wait) : step s = .next s := by
  simp [step, h, State.fetch, hd, State.waitForHost]

theorem step_reserved {s : State} (h : s.halt = false) {op : Byte} (hd : decode s.stream = .reserved op) :
    step s = .next s.badCommand := by
  simp [step, h, State.fetch, hd]

theorem step_done {s : State} (h : s.halt = false) {i : Instr} {rest : List Byte}
    (hd : decode s.stream = .done i rest) : step s = exec i (s.setStream rest) := by
  simp [step, h, State.fetch, hd]

/-- A property that instructions, a change of the stream and BadCommand keep is one that every step keeps (R240). -/
theorem step_keeps {P : State → Prop} (hexec : ∀ i s t, P s → exec i s = .next t → P t)
    (hstream : ∀ s bs, P s → P (s.setStream bs)) (hbad : ∀ s, P s → P s.badCommand) {s t : State} (hP : P s)
    (hst : step s = .next t) : P t := by
  obtain ⟨-, heq⟩ | ⟨-, -, heq⟩ | ⟨-, -, heq⟩ | ⟨-, i, rest, -, heq⟩ := step_cases s <;> rw [heq] at hst
  · exact Host.Outcome.next.inj hst ▸ hstream s [] hP
  · exact Host.Outcome.next.inj hst ▸ hP
  · exact Host.Outcome.next.inj hst ▸ hbad s hP
  · exact hexec i _ t (hstream s rest hP) hst

/-! ## Cursors: 16 bits hold every sum within a capacity -/

/-- A cursor that moves over `n` octets and stays within 16 bits does not wrap around. -/
theorem cursor_add_toNat {p : Half} {n : Nat} (h : p.toNat + n < 65536) :
    (p + BitVec.ofNat 16 n).toNat = p.toNat + n := by
  rw [BitVec.toNat_add, BitVec.toNat_ofNat]
  omega

/-- An emission that fits moves the write cursor by its length. -/
theorem State.appended_wpos_toNat {s : State} {em : Emission} (hfits : s.wpos.toNat + em.out.length ≤ hw.obufCap) :
    (s.appended em).wpos.toNat = s.wpos.toNat + em.out.length :=
  cursor_add_toNat (by rw [hw_obufCap] at hfits; omega)

/-- A decode that takes no more than there is moves the read cursor by its count. -/
theorem State.consume_rpos_toNat {s : State} {d : Decoded} (hn : d.n ≤ s.ilen.toNat - s.rpos.toNat) :
    (s.consume d).rpos.toNat = s.rpos.toNat + d.n :=
  cursor_add_toNat (by have := s.ilen.isLt; have := s.rpos.isLt; omega)

/-- The count register holds any count a 16-bit cursor can move by. -/
theorem count_toNat {n : Nat} (h : n < 65536) : (BitVec.ofNat 32 n).toNat = n := by
  rw [BitVec.toNat_ofNat]
  omega

end Sys2Proof.Machine

namespace Sys2Proof.Safety

open Machine

/-! ## The invariants of R36 -/

theorem inv_reset : Inv State.reset where
  ilen := by decide
  rpos := by decide
  wpos := by decide
  rerr := by decide
  werr := by decide
  st := by decide
  rk := by decide
  halt := by decide

namespace Inv

variable {s t : State}

/-- A state that is not halted may report any status and any kind of R33. -/
theorem setResults (hs : Inv s) (h : s.halt = false) {r : Results} (hst : r.st.toNat ≤ 7) (hrk : r.rk.toNat ≤ 12) :
    Inv (s.setResults r) :=
  { hs with st := hst, rk := hrk, halt := fun h' => absurd (h'.symm.trans h) (by decide) }

theorem report (hs : Inv s) (h : s.halt = false) {code : BitVec 4} (hcode : code.toNat ≤ 7) : Inv (s.report code) :=
  hs.setResults h hcode (Nat.zero_le _)

theorem setEnc (hs : Inv s) (m : Memory) {wpos : Half} {werr : BitVec 4} (hwpos : wpos.toNat ≤ hw.obufCap)
    (hwerr : werr = 0 ∨ werr = 3 ∨ werr = 6) : Inv (s.setEnc m wpos werr) :=
  { hs with wpos := hwpos, werr := hwerr }

theorem setDec (hs : Inv s) (m : Memory) {ilen rpos : Half} {rerr : BitVec 4} (hilen : ilen.toNat ≤ hw.ibufCap)
    (hrpos : rpos.toNat ≤ ilen.toNat) (hrerr : rerr = 0 ∨ rerr = 2 ∨ rerr = 4 ∨ rerr = 5 ∨ rerr = 6) :
    Inv (s.setDec m ilen rpos rerr) :=
  { hs with ilen := hilen, rpos := hrpos, rerr := hrerr }

theorem setStream (hs : Inv s) (bs : List Byte) : Inv (s.setStream bs) := { hs with }

theorem badCommand (hs : Inv s) : Inv s.badCommand :=
  { hs with st := Nat.le_refl 7, rk := Nat.zero_le _, halt := fun _ => rfl }

/-- An emission of legal results that fits keeps the invariants. -/
theorem appended (hs : Inv s) (h : s.halt = false) {em : Emission} (hem : EmissionLegal (.ok em))
    (hfits : s.wpos.toNat + em.out.length ≤ hw.obufCap) : Inv (s.appended em) := by
  obtain ⟨hrk, -⟩ := hem
  refine setEnc (hs.setResults h ?_ ?_) _ ((State.appended_wpos_toNat hfits).trans_le hfits) hs.werr
  · exact Nat.zero_le _
  · exact hrk

/-- A legal decode keeps the invariants. -/
theorem consume (hs : Inv s) (h : s.halt = false) {d : Decoded}
    (hd : DecodedLegal (s.ilen.toNat - s.rpos.toNat) (.ok d)) : Inv (s.consume d) := by
  obtain ⟨hn, hst, hrk, -⟩ := hd
  have hcursor : (s.consume d).rpos.toNat ≤ s.ilen.toNat := by
    rw [State.consume_rpos_toNat hn]
    have := hs.rpos
    omega
  refine setDec (hs.setResults h ?_ ?_) _ hs.ilen hcursor hs.rerr
  · obtain hst | hst := hst <;> simp [hst]
  · exact hrk

theorem encEffect (hs : Inv s) (h : s.halt = false) (heff : EncEffect s t) : Inv t := by
  cases heff with
  | heldBack => exact hs.report h (by obtain hwerr | hwerr | hwerr := hs.werr <;> simp [hwerr])
  | fault he =>
    obtain rfl | rfl := he <;> exact (hs.report h (by decide)).setEnc _ hs.wpos (by decide)
  | encoded hem hfits => exact hs.appended h hem hfits

theorem decEffect (hs : Inv s) (h : s.halt = false) (heff : DecEffect s t) : Inv t := by
  cases heff with
  | heldBack => exact hs.report h (by
    obtain hrerr | hrerr | hrerr | hrerr | hrerr := hs.rerr <;> simp [hrerr])
  | fault he =>
    obtain rfl | rfl | rfl := he <;> exact (hs.report h (by decide)).setDec _ hs.ilen hs.rpos (by decide)
  | decoded hd => exact hs.consume h hd

theorem neutralEffect (hs : Inv s) {i : Instr} (h : s.halt = false) (heff : NeutralEffect i s t) : Inv t := by
  cases heff with
  | nop => exact hs
  | clearedOut => exact (hs.report h (by decide)).setEnc _ (by decide) (by decide)
  | clearedIn => exact (hs.report h (by decide)).setDec _ (by decide) (by decide) (by decide)
  | loadRefused => exact (hs.report h (by decide)).setDec _ (by decide) (by decide) (by decide)
  | loaded _ hfits =>
    refine (hs.setResults h (Nat.zero_le _) (Nat.zero_le _)).setDec _ ?_ (Nat.zero_le _) (by decide)
    exact (BitVec.toNat_ofNat ..).trans_le ((Nat.mod_le ..).trans hfits)
  | segRefused => exact hs.report h (by decide)
  | segAnswered => exact hs.setResults h (Nat.zero_le _) (Nat.zero_le _)

/-- Every instruction keeps the invariants. -/
theorem exec (hs : Inv s) {i : Instr} (hst : Machine.exec i s = .next t) : Inv t :=
  exec_keeps hst hs hs.encEffect hs.decEffect hs.neutralEffect

theorem step (hs : Inv s) (hst : Machine.step s = .next t) : Inv t :=
  step_keeps (fun _ _ _ hs hst => hs.exec hst) (fun _ bs hs => hs.setStream bs)
    (fun _ hs => hs.badCommand) hs hst

theorem pushCmd (hs : Inv s) (bs : List Byte) : Inv (s.pushCmd bs) := by
  unfold State.pushCmd
  split
  · exact hs
  · exact hs.setStream _

end Inv

/-- Settles O15: the invariants hold at reset, and each effect of an instruction keeps them (`Inv.exec`). -/
theorem everyStepKeepsTheRegisterInvariant : Obligations.EveryStepKeepsTheRegisterInvariant :=
  ⟨inv_reset, fun _ hs =>
    ⟨fun _ => hs.step, fun _ _ hst => hs.exec hst, hs.pushCmd, inv_reset⟩⟩

/-! ## The ranges of R33 -/

namespace ResultRanges

variable {s t : State}

theorem of_zero (hrt : t.rt = 0) (hrn : t.rn = 0) : ResultRanges t := by
  constructor <;> simp [hrt, hrn]

theorem encEffect (heff : EncEffect s t) : ResultRanges t := by
  cases heff with
  | heldBack => exact of_zero rfl rfl
  | fault => exact of_zero rfl rfl
  | encoded hem hfits =>
    rw [hw_obufCap] at hfits
    exact ⟨hem.2, (count_toNat (by omega)).trans_le (by omega)⟩

theorem decEffect (heff : DecEffect s t) : ResultRanges t := by
  cases heff with
  | heldBack => exact of_zero rfl rfl
  | fault => exact of_zero rfl rfl
  | decoded hd =>
    obtain ⟨hn, -, -, hrt⟩ := hd
    have := s.ilen.isLt
    exact ⟨hrt, (count_toNat (by omega)).trans_le (by omega)⟩

theorem neutralEffect (hs : ResultRanges s) {i : Instr} (heff : NeutralEffect i s t) : ResultRanges t := by
  cases heff with
  | nop => exact hs
  | loaded _ hfits =>
    rw [hw_ibufCap] at hfits
    exact ⟨Nat.zero_le _, (count_toNat (by omega)).trans_le (by omega)⟩
  | clearedOut | clearedIn | loadRefused | segRefused | segAnswered => exact of_zero rfl rfl

/-- Every instruction keeps the ranges. -/
theorem exec (hs : ResultRanges s) {i : Instr} (hst : Machine.exec i s = .next t) : ResultRanges t :=
  exec_keeps hst hs (fun _ => encEffect) (fun _ => decEffect) (fun _ => hs.neutralEffect)

end ResultRanges

/-- Settles O17: every instruction keeps the ranges, and the other cases of a step leave or zero the results. -/
theorem everyStepKeepsTheResultRanges : Obligations.EveryStepKeepsTheResultRanges :=
  fun _ _ hs hst =>
    step_keeps (fun _ _ _ hs hst => hs.exec hst) (fun _ _ hs => ⟨hs.rt, hs.rn⟩)
      (fun _ _ => ResultRanges.of_zero rfl rfl) hs hst

/-! ## The cursors (R23, R26) -/

theorem decEffect_cursors {s t : State} (heff : DecEffect s t) :
    t.wpos = s.wpos ∧ (t.st.toNat ≤ 1 → t.rpos.toNat = s.rpos.toNat + t.rn.toNat)
      ∧ (2 ≤ t.st.toNat → t.rpos = s.rpos) := by
  cases heff with
  | heldBack => exact ⟨rfl, fun _ => rfl, fun _ => rfl⟩
  | fault => exact ⟨rfl, fun _ => rfl, fun _ => rfl⟩
  | @decoded d hd =>
    obtain ⟨hn, hst, -, -⟩ := hd
    have hcount : (s.consume d).rn.toNat = d.n := count_toNat (by have := s.ilen.isLt; omega)
    have hle : d.res.st.toNat ≤ 1 := by obtain hst | hst := hst <;> simp [hst]
    refine ⟨rfl, fun _ => ?_, fun hfault => absurd (hfault.trans hle) (by decide)⟩
    rw [hcount, State.consume_rpos_toNat hn]

theorem encEffect_cursors {s t : State} (heff : EncEffect s t) :
    t.rpos = s.rpos ∧ (t.st = 0 → t.wpos.toNat = s.wpos.toNat + t.rn.toNat)
      ∧ (t.st ≠ 0 → t.wpos = s.wpos ∧ SameOctets s.obuf t.obuf) := by
  cases heff with
  | heldBack => exact ⟨rfl, fun _ => rfl, fun _ => ⟨rfl, fun _ => rfl⟩⟩
  | fault => exact ⟨rfl, fun _ => rfl, fun _ => ⟨rfl, fun _ => rfl⟩⟩
  | @encoded em hem hfits =>
    have hcount : (s.appended em).rn.toNat = em.out.length := count_toNat (by rw [hw_obufCap] at hfits; omega)
    refine ⟨rfl, fun _ => ?_, fun hfault => absurd rfl hfault⟩
    rw [hcount, State.appended_wpos_toNat hfits]

theorem neutralEffect_cursors {i : Instr} {s t : State} (heff : NeutralEffect i s t) :
    (t.rpos = s.rpos ∨ (t.rpos = 0 ∧ (i = .iclr ∨ ∃ data, i = .iload data)))
      ∧ (t.wpos = s.wpos ∨ (t.wpos = 0 ∧ i = .oclr)) := by
  cases heff with
  | clearedOut => exact ⟨.inl rfl, .inr ⟨rfl, rfl⟩⟩
  | clearedIn => exact ⟨.inr ⟨rfl, .inl rfl⟩, .inl rfl⟩
  | loadRefused | loaded => exact ⟨.inr ⟨rfl, .inr ⟨_, rfl⟩⟩, .inl rfl⟩
  | nop | segRefused | segAnswered => exact ⟨.inl rfl, .inl rfl⟩

/-- Settles O22: each class's effects say what they do to the cursors. -/
theorem cursorsMoveOnlyAsReported : Obligations.CursorsMoveOnlyAsReported :=
  fun _ _ _ h hst =>
    ⟨fun hc => decEffect_cursors (exec_dec_effect h hc hst), fun hc => encEffect_cursors (exec_enc_effect h hc hst),
      fun hc => neutralEffect_cursors (exec_neutral_effect h hc hst)⟩

/-! ## Runs without `OCLR` (R25, R56) -/

/-- The output of a state followed by new octets is the output of another, whose write cursor grew by their number. -/
def OutputExtends (s t : State) : Prop :=
  ∃ out, output t = output s ++ out ∧ t.wpos.toNat = s.wpos.toNat + out.length

theorem OutputExtends.refl (s : State) : OutputExtends s s := ⟨[], by simp, by simp⟩

theorem OutputExtends.trans {s t u : State} (hst : OutputExtends s t) (htu : OutputExtends t u) :
    OutputExtends s u := by
  obtain ⟨out, hout, hwpos⟩ := hst
  obtain ⟨out', hout', hwpos'⟩ := htu
  exact ⟨out ++ out', by rw [hout', hout, List.append_assoc], by rw [hwpos', hwpos, List.length_append, Nat.add_assoc]⟩

/-- `OBUF` is in its canonical form and the write cursor within the capacity: what a run has to keep for its output to
be readable where it was written. -/
structure WriterSound (s : State) : Prop where
  obuf : Memory.wf s.obuf = true
  wpos : s.wpos.toNat ≤ hw.obufCap

/-- Appending puts the emission after the output there was. -/
theorem output_appended {s : State} {em : Emission} (hs : Memory.wf s.obuf = true)
    (hfits : s.wpos.toNat + em.out.length ≤ hw.obufCap) : output (s.appended em) = output s ++ em.out := by
  have hbefore : Memory.readAll (s.appended em).obuf 0 s.wpos.toNat = output s :=
    Memory.readAll_congr fun c _ hc => Memory.read_writeAll_other _ _ (.inl (by omega))
  have hnew : Memory.readAll (s.appended em).obuf s.wpos.toNat em.out.length = em.out :=
    Memory.readAll_writeAll _ _ hs
  rw [output, State.appended_wpos_toNat hfits, Memory.readAll_add, hbefore, Nat.zero_add, hnew]

theorem WriterSound.grew_of_same {s t : State} (hs : WriterSound s) (hobuf : t.obuf = s.obuf)
    (hwpos : t.wpos = s.wpos) : WriterSound t ∧ OutputExtends s t :=
  ⟨⟨hobuf ▸ hs.obuf, hwpos ▸ hs.wpos⟩, [], by simp [output, hobuf, hwpos], by simp [hwpos]⟩

/-- A command other than `OCLR` leaves `OBUF` and its cursor or appends. -/
theorem WriterSound.exec {s t : State} (hs : WriterSound s) {i : Instr} (hi : i ≠ .oclr)
    (hst : Machine.exec i s = .next t) : WriterSound t ∧ OutputExtends s t := by
  refine exec_keeps (P := fun t => WriterSound t ∧ OutputExtends s t) hst ⟨hs, .refl s⟩ (fun _ heff => ?_)
    (fun _ heff => ?_) (fun _ heff => ?_)
  · cases heff with
    | heldBack | fault => exact hs.grew_of_same rfl rfl
    | encoded _ hfits =>
      have hwpos := State.appended_wpos_toNat hfits
      exact ⟨⟨Memory.writeAll_wf _ _ hs.obuf, hwpos.trans_le hfits⟩, _, output_appended hs.obuf hfits, hwpos⟩
  · cases heff <;> exact hs.grew_of_same rfl rfl
  · cases heff with
    | clearedOut => exact absurd rfl hi
    | nop | clearedIn | loadRefused | loaded | segRefused | segAnswered => exact hs.grew_of_same rfl rfl

/-- A run without `OCLR` extends the output, by induction on the instructions. -/
theorem WriterSound.run {is : List Instr} {s t : State} (hs : WriterSound s) (hoclr : .oclr ∉ is)
    (hrun : runCommands is s = some t) : WriterSound t ∧ OutputExtends s t := by
  induction is generalizing s with
  | nil =>
    obtain rfl := Option.some.inj hrun
    exact ⟨hs, .refl s⟩
  | cons i is ih =>
    obtain ⟨u, hu⟩ := exec_total i s
    rw [runCommands, hu] at hrun
    obtain ⟨hus, hsu⟩ := hs.exec (List.ne_of_not_mem_cons hoclr).symm hu
    obtain ⟨hts, hut⟩ := ih hus (List.not_mem_of_not_mem_cons hoclr) hrun
    exact ⟨hts, hsu.trans hut⟩

/-- Settles O23, by induction on the run (`WriterSound.run`). -/
theorem runsOnlyExtendTheOutput : Obligations.RunsOnlyExtendTheOutput := by
  intro is s t hwf hle hoclr hrun
  obtain ⟨hsound, out, hout, hwpos⟩ := WriterSound.run ⟨hwf, hle⟩ hoclr hrun
  exact ⟨out, hout, hwpos, hsound.wpos⟩

/-! ## Reset (R35, R108) -/

theorem memoryInv_reset : MemoryInv State.reset where
  ibuf := rfl
  obuf := rfl
  ibufCap := by simp [State.reset]
  obufCap := by simp [State.reset]

/-- Settles O14: the registers are 0 and no buffer lists an octet. -/
theorem resetSatisfiesEveryInvariant : Obligations.ResetSatisfiesEveryInvariant :=
  ⟨inv_reset, memoryInv_reset, ResultRanges.of_zero rfl rfl⟩

/-- With `ILEN` 0 the host can peek at no octet. -/
theorem peekIn_of_empty {s : State} (hilen : s.ilen = 0) {off n : Nat} {bs : List Byte}
    (hpeek : s.peekIn off n = some bs) : bs = [] := by
  obtain ⟨hle, hbs⟩ := Option.ite_none_right_eq_some.1 hpeek
  obtain rfl : n = 0 := by
    rw [hilen, BitVec.ofNat_eq_ofNat, BitVec.toNat_zero] at hle
    omega
  exact (Option.some.inj hbs).symm

/-- Settles O11: `HostReset` answers the reset state, whose fields are the values R35 gives. -/
theorem resetStateIsTheOneTheSpecGives : Obligations.ResetStateIsTheOneTheSpecGives := by
  intro s t ht
  obtain rfl : t = State.reset := by obtain ht | ht := ht <;> exact ht
  exact ⟨rfl, rfl, rfl, rfl, rfl, rfl, rfl, rfl, rfl, rfl, rfl, rfl, rfl, rfl, rfl, rfl,
    fun _ _ _ => peekIn_of_empty rfl⟩

/-! ## The host's view of the registers (R37, R106) -/

/-- A register of one bit, zero-extended. -/
theorem ofBool_setWidth (b : Bool) : (BitVec.ofBool b).setWidth 64 = if b then 1 else 0 := by
  cases b <;> rfl

theorem readReg_above {s : State} {k : Nat} (hk : 12 < k) : s.readReg k = none := by
  obtain ⟨k, rfl⟩ := Nat.exists_eq_add_of_lt hk
  rw [Nat.add_right_comm, Nat.add_comm]
  rfl

theorem errO_iff (s : State) : s.errO = true ↔ s.rerr ≠ 0 ∨ s.werr ≠ 0 ∨ s.halt = true := by
  simp [State.errO, or_assoc]

/-- Settles O12: all but the two one-bit registers and `err_o` are `readReg`'s own equations. -/
theorem numberedRegistersAreTheHostsView : Obligations.NumberedRegistersAreTheHostsView := fun s =>
  ⟨rfl, rfl, rfl, congrArg some (ofBool_setWidth s.rc), rfl, rfl, rfl, rfl, rfl, rfl, rfl, rfl,
    congrArg some (ofBool_setWidth s.halt), fun _ => readReg_above, errO_iff s⟩

/-! ## A halted block (R28, R243, R246) -/

theorem core_run_succ {s t : State} (hst : step s = .next t) (n : Nat) :
    Host.Core.run Sys2Proof.core (n + 1) s = Host.Core.run Sys2Proof.core n t := by
  simp [Host.Core.run, Sys2Proof.core, hst]

/-- Any number of steps of a halted block only drops the stream. -/
theorem run_halted {s : State} (h : s.halt = true) (n : Nat) :
    Host.Core.run Sys2Proof.core (n + 1) s = .next (s.setStream []) := by
  induction n generalizing s with
  | zero => exact core_run_succ (step_halted h) 0
  | succ n ih => exact (core_run_succ (step_halted h) (n + 1)).trans (ih h)

/-- Settles O9: a halted block discards commands and pushes at once, and its stream with the first step. -/
theorem haltedBlockStaysAsItIs : Obligations.HaltedBlockStaysAsItIs := by
  intro s h
  exact ⟨fun i => exec_halted i h, fun bs => if_pos h, run_halted h, fun hwerr => ⟨_, if_pos hwerr, rfl⟩, rfl⟩

/-! ## The octets of `IBUF` that `ICLR` and `ILOAD` do not write (log 12) -/

theorem exec_iclr_ibuf {s t : State} (hst : exec .iclr s = .next t) : t.ibuf = s.ibuf := by
  obtain h | h := Bool.eq_false_or_eq_true s.halt
  · rw [eq_of_exec_halted h hst]
  · cases exec_neutral_effect h rfl hst
    rfl

/-- `ILOAD` writes `IBUF` only below the length of its data, and only where the data fits (R103). -/
theorem exec_iload_ibuf {s t : State} {data : List Byte} (hst : exec (.iload data) s = .next t) {a : Nat}
    (ha : data.length ≤ a ∨ hw.ibufCap < data.length) : Memory.read t.ibuf a = Memory.read s.ibuf a := by
  obtain h | h := Bool.eq_false_or_eq_true s.halt
  · rw [eq_of_exec_halted h hst]
  · cases exec_neutral_effect h rfl hst with
    | loadRefused => rfl
    | loaded _ hfits => exact Memory.read_writeAll_other _ _ (by omega)

/-- Settles O30: `ICLR` writes no octet and `ILOAD` only those of its data. -/
theorem bufferCommandsKeepTheOldOctets : Obligations.BufferCommandsKeepTheOldOctets :=
  ⟨fun _ _ hst a => by rw [exec_iclr_ibuf hst], fun _ _ _ hst _ ha => exec_iload_ibuf hst ha⟩

/-! ## Unspecified octets (R21, R25, R60): the relation `SameObservable` through every shared operation -/

namespace SameObservable

variable {s s' : State}

/-! ### The register updates -/

theorem setResults (h : SameObservable s s') (r : Results) : SameObservable (s.setResults r) (s'.setResults r) :=
  { h with results := rfl, control := ⟨h.control.halt, h.control.stream⟩ }

theorem report (h : SameObservable s s') (code : BitVec 4) : SameObservable (s.report code) (s'.report code) :=
  h.setResults _

theorem setStream (h : SameObservable s s') (bs : List Byte) : SameObservable (s.setStream bs) (s'.setStream bs) :=
  { h with results := h.results, control := ⟨h.control.halt, rfl⟩ }

theorem setHalt (h : SameObservable s s') (b : Bool) : SameObservable (s.setHalt b) (s'.setHalt b) :=
  { h with results := h.results, control := ⟨rfl, h.control.stream⟩ }

/-- New contents of `OBUF` need to agree below the new write cursor only. -/
theorem setEnc (h : SameObservable s s') {m m' : Memory} (wpos : Half) (werr : BitVec 4)
    (hm : ∀ a, a < wpos.toNat → Memory.read m' a = Memory.read m a) :
    SameObservable (s.setEnc m wpos werr) (s'.setEnc m' wpos werr) :=
  { h with results := h.results, wpos := rfl, werr := rfl, obuf := hm, control := ⟨h.control.halt, h.control.stream⟩ }

/-- New contents of `IBUF` need to agree below the new `ILEN` only. -/
theorem setDec (h : SameObservable s s') {m m' : Memory} (ilen rpos : Half) (rerr : BitVec 4)
    (hm : ∀ a, a < ilen.toNat → Memory.read m' a = Memory.read m a) :
    SameObservable (s.setDec m ilen rpos rerr) (s'.setDec m' ilen rpos rerr) :=
  { h with results := h.results, ilen := rfl, rpos := rfl, rerr := rfl, ibuf := hm,
           control := ⟨h.control.halt, h.control.stream⟩ }

/-! ### Faults and the prologue -/

theorem raise (h : SameObservable s s') (c : Cls) (e : Status) : SameObservable (s.raise c e) (s'.raise c e) := by
  cases c with
  | enc =>
    rw [State.raise_enc, State.raise_enc, h.wpos]
    exact (h.report e.code).setEnc _ _ h.obuf
  | dec =>
    rw [State.raise_dec, State.raise_dec, h.ilen, h.rpos]
    exact (h.report e.code).setDec _ _ _ h.ibuf
  | neutral => exact h.report e.code

theorem badCommand (h : SameObservable s s') : SameObservable s.badCommand s'.badCommand :=
  ((h.report _).setHalt true).setStream []

theorem sticky_eq (h : SameObservable s s') (c : Cls) : sticky c s' = sticky c s := by
  cases c with
  | enc => exact h.werr
  | dec => exact h.rerr
  | neutral => rfl

/-- The prologue consults registers only. -/
theorem prologue (h : SameObservable s s') (c : Cls) {body : State → State}
    (hbody : SameObservable (body s) (body s')) : SameObservable (s.prologue c body) (s'.prologue c body) := by
  unfold State.prologue
  rw [h.control.halt, h.sticky_eq c]
  split
  · exact h
  · split
    · exact hbody
    · exact h.report _

/-! ### The writer and the reader -/

/-- Below the write cursor an append leaves what agreed, from it on it writes the same octets. -/
theorem appended (h : SameObservable s s') (hs : MemoryInv s) (hs' : MemoryInv s') {em : Emission}
    (hfits : s.wpos.toNat + em.out.length ≤ hw.obufCap) : SameObservable (s.appended em) (s'.appended em) := by
  unfold State.appended
  rw [h.wpos, h.werr]
  refine (h.setResults _).setEnc _ _ fun a ha => ?_
  obtain hold | ⟨k, rfl⟩ : a < s.wpos.toNat ∨ ∃ k, a = s.wpos.toNat + k := by
    obtain hlt | hle := Nat.lt_or_ge a s.wpos.toNat
    · exact .inl hlt
    · exact .inr (Nat.exists_eq_add_of_le hle)
  · rw [Memory.read_writeAll_other _ _ (.inl hold), Memory.read_writeAll_other _ _ (.inl hold), h.obuf a hold]
  · have hk : k < em.out.length := by
      rw [cursor_add_toNat (by rw [hw_obufCap] at hfits; omega)] at ha
      omega
    rw [Memory.read_writeAll_same _ _ hs'.obuf k hk, Memory.read_writeAll_same _ _ hs.obuf k hk]

theorem append (h : SameObservable s s') (hs : MemoryInv s) (hs' : MemoryInv s') (em : Emission) :
    SameObservable (s.append hw em) (s'.append hw em) := by
  obtain hover | hfits := Nat.lt_or_ge hw.obufCap (s.wpos.toNat + em.out.length)
  · rw [State.append_overflow hover, State.append_overflow (by rwa [h.wpos])]
    exact h.raise .enc .bufferOverflow
  · rw [State.append_fits hfits, State.append_fits (by rwa [h.wpos])]
    exact h.appended hs hs' hfits

theorem encCommand (h : SameObservable s s') (hs : MemoryInv s) (hs' : MemoryInv s') (r : Except Status Emission) :
    SameObservable (s.encCommand hw r) (s'.encCommand hw r) := by
  refine h.prologue .enc ?_
  cases r with
  | error e => exact h.raise .enc e
  | ok em => exact h.append hs hs' em

/-- The unread input lies below `ILEN`. -/
theorem unread_eq (h : SameObservable s s') : s'.unread = s.unread := by
  unfold State.unread
  rw [h.ilen, h.rpos]
  exact Memory.readAll_congr fun a _ ha => h.ibuf a (by omega)

theorem consume (h : SameObservable s s') (d : Decoded) : SameObservable (s.consume d) (s'.consume d) := by
  unfold State.consume
  rw [h.ilen, h.rpos, h.rerr]
  exact (h.setResults _).setDec _ _ _ h.ibuf

theorem decCommand (h : SameObservable s s') (f : List Byte → Nat → Except Status Decoded) :
    SameObservable (s.decCommand f) (s'.decCommand f) := by
  refine h.prologue .dec ?_
  rw [h.unread_eq, h.rpos]
  cases f s.unread s.rpos.toNat with
  | error e => exact h.raise .dec e
  | ok d => exact h.consume d

/-! ### The NEUTRAL commands -/

theorem clearOut (h : SameObservable s s') : SameObservable s.clearOut s'.clearOut :=
  (h.report _).setEnc _ _ fun a ha => absurd ha (Nat.not_lt_zero a)

theorem clearIn (h : SameObservable s s') : SameObservable s.clearIn s'.clearIn :=
  (h.report _).setDec _ _ _ fun a ha => absurd ha (Nat.not_lt_zero a)

/-- All of the loaded input is written by the load. -/
theorem loadIn (h : SameObservable s s') (hs : MemoryInv s) (hs' : MemoryInv s') (data : List Byte) :
    SameObservable (s.loadIn hw data) (s'.loadIn hw data) := by
  unfold State.loadIn
  split
  · exact (h.report _).setDec _ _ _ fun a ha => absurd ha (Nat.not_lt_zero a)
  · refine (h.setResults _).setDec _ _ _ fun a ha => ?_
    have hk : a < data.length := ha.trans_le ((BitVec.toNat_ofNat ..).trans_le (Nat.mod_le ..))
    have hwritten {m : Memory} (hm : Memory.wf m = true) : Memory.read (Memory.writeAll m 0 data) a = data[a] := by
      simpa using Memory.read_writeAll_same 0 data hm a hk
    rw [hwritten hs'.ibuf, hwritten hs.ibuf]

theorem segCommand (h : SameObservable s s') (a b : Half) :
    SameObservable (s.segCommand hw a b) (s'.segCommand hw a b) := by
  unfold State.segCommand
  split
  · exact h.raise .neutral _
  · exact h.setResults _

/-! ### Instructions and steps -/

/-- No instruction tells two such states apart. -/
theorem exec (h : SameObservable s s') (hs : MemoryInv s) (hs' : MemoryInv s') (i : Instr) :
    ∃ t t', Machine.exec i s = .next t ∧ Machine.exec i s' = .next t' ∧ SameObservable t t' := by
  cases hc : cls i with
  | enc =>
    obtain ⟨r, -, hexec⟩ := exec_enc hc
    exact ⟨_, _, hexec s, hexec s', h.encCommand hs hs' r⟩
  | dec =>
    obtain ⟨f, -, hexec⟩ := exec_dec hc
    exact ⟨_, _, hexec s, hexec s', h.decCommand f⟩
  | neutral =>
    obtain ⟨rfl, hexec⟩ | ⟨rfl, hexec⟩ | ⟨rfl, hexec⟩ | ⟨data, rfl, hexec⟩ | ⟨a, b, rfl, hexec⟩ := exec_neutral hc s
    · exact ⟨_, _, hexec, rfl, h.prologue .neutral h⟩
    · exact ⟨_, _, hexec, rfl, h.prologue .neutral h.clearOut⟩
    · exact ⟨_, _, hexec, rfl, h.prologue .neutral h.clearIn⟩
    · exact ⟨_, _, hexec, rfl, h.prologue .neutral (h.loadIn hs hs' data)⟩
    · exact ⟨_, _, hexec, rfl, h.prologue .neutral (h.segCommand a b)⟩

/-- No step tells two such states apart: `HALT` and the stream, which select what it does, are the same. -/
theorem step (h : SameObservable s s') (hs : MemoryInv s) (hs' : MemoryInv s') :
    ∃ t t', Machine.step s = .next t ∧ Machine.step s' = .next t' ∧ SameObservable t t' := by
  obtain ⟨hhalt, hstep⟩ | ⟨hhalt, hd, hstep⟩ | ⟨hhalt, ⟨op, hd⟩, hstep⟩ | ⟨hhalt, i, rest, hd, hstep⟩ := step_cases s
  all_goals
    have hhalt' := h.control.halt.trans hhalt
  · exact ⟨_, _, hstep, step_halted hhalt', h.setStream []⟩
  · exact ⟨_, _, hstep, step_wait hhalt' (h.control.stream ▸ hd), h⟩
  · exact ⟨_, _, hstep, step_reserved hhalt' (h.control.stream ▸ hd), h.badCommand⟩
  · rw [hstep, step_done hhalt' (h.control.stream ▸ hd)]
    exact (h.setStream rest).exec { hs with } { hs' with } i

/-! ### The host actions -/

theorem readOut_eq (h : SameObservable s s') : s'.readOut = s.readOut := by
  unfold State.readOut
  rw [h.werr, h.wpos, Memory.readAll_congr fun a _ ha => h.obuf a (by omega)]

theorem peekIn_eq (h : SameObservable s s') (off n : Nat) : s'.peekIn off n = s.peekIn off n := by
  unfold State.peekIn
  rw [h.ilen]
  split
  · rw [Memory.readAll_congr fun a _ ha => h.ibuf a (by omega)]
  · rfl

theorem readReg_eq (h : SameObservable s s') (k : Nat) : s'.readReg k = s.readReg k := by
  obtain ⟨hst, hrk, hrt, hrc, hrl, hrv, hrn⟩ := Results.mk.inj h.results
  simp only [State.readReg, hst, hrk, hrt, hrc, hrl, hrv, hrn, h.ilen, h.rpos, h.rerr, h.wpos, h.werr,
    h.control.halt]

end SameObservable

/-- Settles O21: every shared operation keeps `SameObservable`, so every instruction, every step and every host action
does. -/
theorem unspecifiedOctetsAreUnobservable : Obligations.UnspecifiedOctetsAreUnobservable :=
  fun _ _ hs hs' h => ⟨h.exec hs hs', h.step hs hs', h.readOut_eq, h.peekIn_eq, h.readReg_eq⟩

end Sys2Proof.Safety
end

section
/-! PROOFS. The family of spec/20_memory.md: every step keeps both buffers canonical and within their capacity (R50),
each class keeps to its half of the state, and commands of different classes commute (R58).

The first is a case analysis over the effects of an instruction. The other two rest on one law: an instruction run with
the foreign half of its class exchanged answers the same state with that half exchanged. It says at once that the
instruction writes nothing of the foreign half and reads nothing of it. -/

namespace Sys2Proof.Machine

open Safety

/-! ## Exchanging the half that a class may not touch -/

/-- The state with the half that is foreign to a class (R58) taken from another state: the decode half for class ENC,
the encode half for class DEC. No half is foreign to a NEUTRAL command. -/
def State.withForeign (c : Cls) (s u : State) : State :=
  match c with
  | .enc => s.setDec u.ibuf u.ilen u.rpos u.rerr
  | .dec => s.setEnc u.obuf u.wpos u.werr
  | .neutral => s

theorem State.withForeign_self (c : Cls) (s : State) : s.withForeign c s = s := by cases c <;> rfl

@[simp] theorem State.withForeign_halt (c : Cls) (s u : State) : (s.withForeign c u).halt = s.halt := by
  cases c <;> rfl

@[simp] theorem sticky_withForeign (c : Cls) (s u : State) : sticky c (s.withForeign c u) = sticky c s := by
  cases c <;> rfl

theorem State.report_withForeign (c : Cls) (s u : State) (code : BitVec 4) :
    (s.withForeign c u).report code = (s.report code).withForeign c u := by
  cases c <;> rfl

/-- Pseudocode of a class passes the foreign half through and computes everything else without it. -/
def BlindToForeign (c : Cls) (body : State → State) : Prop :=
  ∀ s u : State, body (s.withForeign c u) = (body s).withForeign c u

theorem raise_blindToForeign (c : Cls) (e : Status) : BlindToForeign c (State.raise · c e) := by
  intro s u
  cases c <;> rfl

/-- The writer decides by the write cursor and writes the encode half. -/
theorem append_blindToForeign (cfg : Config) (em : Emission) : BlindToForeign .enc (State.append cfg · em) := by
  intro s u
  beta_reduce
  obtain hover | hfits := Nat.lt_or_ge cfg.obufCap (s.wpos.toNat + em.out.length)
  · rw [State.append_overflow hover, State.append_overflow (s := s.withForeign .enc u) hover]
    exact raise_blindToForeign .enc .bufferOverflow s u
  · rw [State.append_fits hfits, State.append_fits (s := s.withForeign .enc u) hfits]
    rfl

theorem consume_blindToForeign (d : Decoded) : BlindToForeign .dec (State.consume · d) := fun _ _ => rfl

/-- The prologue consults `HALT`, which is of neither half, and the sticky error of its own class. -/
theorem State.prologue_blindToForeign {c : Cls} {body : State → State} (hbody : BlindToForeign c body) :
    BlindToForeign c (State.prologue · c body) := by
  intro s u
  beta_reduce
  obtain h | h := Bool.eq_false_or_eq_true s.halt
  · rw [State.prologue_halted h, State.prologue_halted (by simpa using h)]
  · by_cases hs : sticky c s = 0
    · rw [State.prologue_run h hs, State.prologue_run (by simpa using h) (by simpa using hs)]
      exact hbody s u
    · rw [State.prologue_sticky h hs, State.prologue_sticky (by simpa using h) (by simpa using hs),
        sticky_withForeign, State.report_withForeign]

theorem encCommand_blindToForeign (cfg : Config) (r : Except Status Emission) :
    BlindToForeign .enc (State.encCommand cfg · r) := by
  refine State.prologue_blindToForeign ?_
  cases r with
  | error e => exact raise_blindToForeign .enc e
  | ok em => exact append_blindToForeign cfg em

/-- The helper of a DEC command sees the unread input and the read cursor, which lie in the decode half. -/
theorem decCommand_blindToForeign (f : List Byte → Nat → Except Status Decoded) :
    BlindToForeign .dec (State.decCommand · f) := by
  refine State.prologue_blindToForeign fun s u => ?_
  have hunread : (s.withForeign .dec u).unread = s.unread := rfl
  have hrpos : (s.withForeign .dec u).rpos = s.rpos := rfl
  simp only [hunread, hrpos]
  cases f s.unread s.rpos.toNat with
  | error e => exact raise_blindToForeign .dec e s u
  | ok d => exact consume_blindToForeign d s u

/-- An instruction run with the foreign half of its class exchanged answers the same state with that half exchanged. -/
theorem exec_withForeign {i : Instr} {s t : State} (hst : exec i s = .next t) (u : State) :
    exec i (s.withForeign (cls i) u) = .next (t.withForeign (cls i) u) := by
  cases hc : cls i with
  | enc =>
    obtain ⟨r, -, hexec⟩ := exec_enc hc
    obtain rfl := Host.Outcome.next.inj ((hexec s).symm.trans hst)
    exact (hexec _).trans (congrArg Host.Outcome.next (encCommand_blindToForeign hw r s u))
  | dec =>
    obtain ⟨f, -, hexec⟩ := exec_dec hc
    obtain rfl := Host.Outcome.next.inj ((hexec s).symm.trans hst)
    exact (hexec _).trans (congrArg Host.Outcome.next (decCommand_blindToForeign f s u))
  | neutral => exact hst

/-- An instruction leaves the foreign half of its class as it was. -/
theorem exec_keeps_foreign {i : Instr} {s t : State} (hst : exec i s = .next t) : t = t.withForeign (cls i) s := by
  have h := exec_withForeign hst s
  rw [State.withForeign_self] at h
  exact Host.Outcome.next.inj (hst.symm.trans h)

/-- No instruction writes `HALT` or the stream. -/
theorem exec_sameControl {i : Instr} {s t : State} (hst : exec i s = .next t) : SameControl s t := by
  refine exec_keeps hst ⟨rfl, rfl⟩ (fun _ heff => ?_) (fun _ heff => ?_) (fun _ heff => ?_)
  all_goals cases heff <;> exact ⟨rfl, rfl⟩

/-- A command other than `NOP`, run in two states that differ in its foreign half, the results and the stream, leaves
two states that differ in these; unless the block is halted, the results are the same. -/
theorem exec_of_foreign_replaced {i : Instr} (hi : i ≠ .nop) {s s' t t' : State} (hhalt : s'.halt = s.halt)
    (hs' : s' = (s.withForeign (cls i) s').replace (results s') s'.stream) (hst : exec i s = .next t)
    (hst' : exec i s' = .next t') :
    t' = (t.withForeign (cls i) s').replace (results t') s'.stream ∧ (s.halt = false → results t' = results t) := by
  obtain h | h := Bool.eq_false_or_eq_true s.halt
  · rw [eq_of_exec_halted h hst, eq_of_exec_halted (hhalt.trans h) hst']
    exact ⟨hs', fun hrun => absurd (hrun.symm.trans h) (by decide)⟩
  · have hexec := exec_replace hi (by simpa using h) (exec_withForeign hst s') (results s') s'.stream
    rw [← hs'] at hexec
    obtain rfl := Host.Outcome.next.inj (hexec.symm.trans hst')
    cases cls i <;> exact ⟨rfl, fun _ => rfl⟩

theorem ne_nop_of_cls {i : Instr} (h : cls i ≠ .neutral) : i ≠ .nop := by
  rintro rfl
  exact h rfl

end Sys2Proof.Machine

namespace Sys2Proof.Safety

open Machine

/-! ## Canonical memories (R50) -/

/-- A string written below a capacity lists no octet at or beyond it. -/
theorem writeAll_listed_lt {m : Memory} {a cap : Nat} {bs : List Byte} (hm : ∀ p ∈ m, p.1 < cap)
    (hfits : a + bs.length ≤ cap) : ∀ p ∈ Memory.writeAll m a bs, p.1 < cap := by
  intro p hp
  obtain hold | ⟨-, hlt⟩ := Memory.writeAll_mem hp
  · exact hm p hold
  · exact hlt.trans_le hfits

namespace MemoryInv

variable {s t : State}

theorem of_same (hs : MemoryInv s) (hibuf : t.ibuf = s.ibuf) (hobuf : t.obuf = s.obuf) : MemoryInv t where
  ibuf := hibuf ▸ hs.ibuf
  obuf := hobuf ▸ hs.obuf
  ibufCap := hibuf ▸ hs.ibufCap
  obufCap := hobuf ▸ hs.obufCap

/-- Only an emission that fits writes `OBUF`. -/
theorem encEffect (hs : MemoryInv s) (heff : EncEffect s t) : MemoryInv t := by
  cases heff with
  | heldBack | fault => exact hs.of_same rfl rfl
  | encoded _ hfits =>
    exact { hs with obuf := Memory.writeAll_wf _ _ hs.obuf, obufCap := writeAll_listed_lt hs.obufCap hfits }

theorem decEffect (hs : MemoryInv s) (heff : DecEffect s t) : MemoryInv t := by
  cases heff <;> exact hs.of_same rfl rfl

/-- Only an `ILOAD` whose octets fit writes `IBUF`. -/
theorem neutralEffect (hs : MemoryInv s) {i : Instr} (heff : NeutralEffect i s t) : MemoryInv t := by
  cases heff with
  | loaded _ hfits =>
    have hcap := writeAll_listed_lt hs.ibufCap ((Nat.zero_add _).trans_le hfits)
    exact { hs with ibuf := Memory.writeAll_wf _ _ hs.ibuf, ibufCap := hcap }
  | nop | clearedOut | clearedIn | loadRefused | segRefused | segAnswered => exact hs.of_same rfl rfl

/-- Every instruction keeps the memories canonical. -/
theorem exec (hs : MemoryInv s) {i : Instr} (hst : Machine.exec i s = .next t) : MemoryInv t :=
  exec_keeps hst hs (fun _ => hs.encEffect) (fun _ => hs.decEffect) (fun _ => hs.neutralEffect)

end MemoryInv

/-- Settles O16: every instruction keeps the memories canonical, and the other cases of a step write neither. -/
theorem everyStepKeepsTheMemoryCanonical : Obligations.EveryStepKeepsTheMemoryCanonical :=
  fun _ _ hs hst =>
    step_keeps (fun _ _ _ hs hst => hs.exec hst) (fun _ _ hs => hs.of_same rfl rfl)
      (fun _ hs => hs.of_same rfl rfl) hs hst

/-! ## The two halves (R58) -/

/-- The encode half of a state as one value. -/
structure EncodeHalf where
  obuf : Memory
  wpos : Half
  werr : BitVec 4

/-- The decode half of a state as one value. -/
structure DecodeHalf where
  ibuf : Memory
  ilen : Half
  rpos : Half
  rerr : BitVec 4

def encodeHalf (s : State) : EncodeHalf := ⟨s.obuf, s.wpos, s.werr⟩

def decodeHalf (s : State) : DecodeHalf := ⟨s.ibuf, s.ilen, s.rpos, s.rerr⟩

section

variable {i : Instr} {s s' t t' : State}

/-- States that agree on `HALT` and the encode half differ in the decode half, the results and the stream. -/
theorem eq_replace_of_encodeHalf (hhalt : s'.halt = s.halt) (h : encodeHalf s' = encodeHalf s) :
    s' = (s.withForeign .enc s').replace (results s') s'.stream := by
  obtain ⟨hobuf, hwpos, hwerr⟩ := EncodeHalf.mk.inj h
  cases s; cases s'; cases hhalt; cases hobuf; cases hwpos; cases hwerr
  rfl

/-- States that agree on `HALT` and the decode half differ in the encode half, the results and the stream. -/
theorem eq_replace_of_decodeHalf (hhalt : s'.halt = s.halt) (h : decodeHalf s' = decodeHalf s) :
    s' = (s.withForeign .dec s').replace (results s') s'.stream := by
  obtain ⟨hibuf, hilen, hrpos, hrerr⟩ := DecodeHalf.mk.inj h
  cases s; cases s'; cases hhalt; cases hibuf; cases hilen; cases hrpos; cases hrerr
  rfl

theorem enc_keeps_decodeHalf (hc : cls i = .enc) (hst : exec i s = .next t) : decodeHalf t = decodeHalf s := by
  have h := exec_keeps_foreign hst
  rw [hc] at h
  exact (congrArg decodeHalf h).trans rfl

theorem dec_keeps_encodeHalf (hc : cls i = .dec) (hst : exec i s = .next t) : encodeHalf t = encodeHalf s := by
  have h := exec_keeps_foreign hst
  rw [hc] at h
  exact (congrArg encodeHalf h).trans rfl

/-- What a command of class ENC leaves in the encode half and the results is fixed by `HALT` and the encode half. -/
theorem enc_reads_encodeHalf (hc : cls i = .enc) (hst : exec i s = .next t) (hst' : exec i s' = .next t')
    (hhalt : s'.halt = s.halt) (h : encodeHalf s' = encodeHalf s) :
    encodeHalf t' = encodeHalf t ∧ (s.halt = false → results t' = results t) := by
  have hs' := eq_replace_of_encodeHalf hhalt h
  rw [← hc] at hs'
  obtain ⟨ht', hresults⟩ := exec_of_foreign_replaced (ne_nop_of_cls (by simp [hc])) hhalt hs' hst hst'
  rw [hc] at ht'
  exact ⟨(congrArg encodeHalf ht').trans rfl, hresults⟩

/-- What a command of class DEC leaves in the decode half and the results is fixed by `HALT` and the decode half. -/
theorem dec_reads_decodeHalf (hc : cls i = .dec) (hst : exec i s = .next t) (hst' : exec i s' = .next t')
    (hhalt : s'.halt = s.halt) (h : decodeHalf s' = decodeHalf s) :
    decodeHalf t' = decodeHalf t ∧ (s.halt = false → results t' = results t) := by
  have hs' := eq_replace_of_decodeHalf hhalt h
  rw [← hc] at hs'
  obtain ⟨ht', hresults⟩ := exec_of_foreign_replaced (ne_nop_of_cls (by simp [hc])) hhalt hs' hst hst'
  rw [hc] at ht'
  exact ⟨(congrArg decodeHalf ht').trans rfl, hresults⟩

end

/-- Settles O18: each class keeps the half foreign to it and is blind to it (`exec_withForeign`). -/
theorem eachClassKeepsToItsHalf : Obligations.EachClassKeepsToItsHalf := by
  intro i s s' t t' hst hst' hhalt
  refine ⟨fun hc => ⟨?_, fun hobuf hwpos hwerr => ?_⟩, fun hc => ⟨?_, fun hibuf hilen hrpos hrerr => ?_⟩⟩
  · obtain ⟨hibuf, hilen, hrpos, hrerr⟩ := DecodeHalf.mk.inj (enc_keeps_decodeHalf hc hst)
    exact ⟨hibuf, hilen, hrpos, hrerr, exec_sameControl hst⟩
  · obtain ⟨hhalf, hresults⟩ :=
      enc_reads_encodeHalf hc hst hst' hhalt (by simp only [encodeHalf, hobuf, hwpos, hwerr])
    obtain ⟨hobuf', hwpos', hwerr'⟩ := EncodeHalf.mk.inj hhalf
    exact ⟨hobuf', hwpos', hwerr', hresults⟩
  · obtain ⟨hobuf, hwpos, hwerr⟩ := EncodeHalf.mk.inj (dec_keeps_encodeHalf hc hst)
    exact ⟨hobuf, hwpos, hwerr, exec_sameControl hst⟩
  · obtain ⟨hhalf, hresults⟩ :=
      dec_reads_decodeHalf hc hst hst' hhalt (by simp only [decodeHalf, hibuf, hilen, hrpos, hrerr])
    obtain ⟨hibuf', hilen', hrpos', hrerr'⟩ := DecodeHalf.mk.inj hhalf
    exact ⟨hibuf', hilen', hrpos', hrerr', hresults⟩

/-- Settles O19: in either order, each command starts from the own half it would start from alone and leaves the other
half as the other command left it. -/
theorem encodeAndDecodeCommandsCommute : Obligations.EncodeAndDecodeCommandsCommute := by
  intro i j s a b hi hj ha hb
  obtain ⟨a', ha'⟩ := exec_total j s
  obtain ⟨b', hb'⟩ := exec_total i a'
  have hca := exec_sameControl ha
  have hcb := exec_sameControl hb
  have hca' := exec_sameControl ha'
  have hcb' := exec_sameControl hb'
  have henc : encodeHalf b' = encodeHalf b :=
    calc encodeHalf b' = encodeHalf a := (enc_reads_encodeHalf hi ha hb' hca'.halt (dec_keeps_encodeHalf hj ha')).1
      _ = encodeHalf b := (dec_keeps_encodeHalf hj hb).symm
  have hdec : decodeHalf b' = decodeHalf b :=
    calc decodeHalf b' = decodeHalf a' := enc_keeps_decodeHalf hi hb'
      _ = decodeHalf b := (dec_reads_decodeHalf hj ha' hb hca.halt (enc_keeps_decodeHalf hi ha)).1.symm
  obtain ⟨hobuf, hwpos, hwerr⟩ := EncodeHalf.mk.inj henc
  obtain ⟨hibuf, hilen, hrpos, hrerr⟩ := DecodeHalf.mk.inj hdec
  have hstream : b'.stream = b.stream := by rw [hcb'.stream, hca'.stream, hcb.stream, hca.stream]
  have hhalt : b'.halt = b.halt := by rw [hcb'.halt, hca'.halt, hcb.halt, hca.halt]
  exact ⟨a', b', ha', hb', hstream, hobuf, hwpos, hwerr, hibuf, hilen, hrpos, hrerr, hhalt⟩

end Sys2Proof.Safety
end

section
/-! PROOFS. The family of spec/30_encoding.md: the command decoder and the encoder are inverse (R80 to R83), the length
rule governs the parser (R85), reserved opcodes halt the block (R84), the shapes of a header (R73), the wire-tag rows
(R90), and the pseudo-instructions (R87).

That an encoding is read back is proved format by format. The other direction and the length rule are one case analysis
over the opcodes: `Front` lists what the parser can find at the front of a stream, together with the length the rule
gives there. What a wire-tag row does is said once, from the parts of its octet (`decodeRow`), and `DEC_ANY` is that
function of its first octet (`decAny_cons`). -/

namespace Sys2Proof

open Machine

/-! ## Each format reads its operands back (R81, R82) -/

theorem parseW_octets (f : Word → Instr) (v : Word) (rest : List Byte) :
    parseW f (octets4 v ++ rest) = .done (f v) rest :=
  congrArg (fun v => Parsed.done (f v) rest) (word_octets v _ _ _ _ rfl)

theorem parseD_octets (f : Long → Instr) (v : Long) (rest : List Byte) :
    parseD f (octets8 v ++ rest) = .done (f v) rest :=
  congrArg (fun v => Parsed.done (f v) rest) (long_octets v _ _ _ _ _ _ _ _ rfl)

theorem parseT_octets (f : Byte → Byte → Word → Instr) (tn flags : Byte) (v : Word) (rest : List Byte) :
    parseT f (tn :: flags :: (octets4 v ++ rest)) = .done (f tn flags v) rest :=
  congrArg (fun v => Parsed.done (f tn flags v) rest) (word_octets v _ _ _ _ rfl)

theorem parseDT_octets (f : Half → Byte → Byte → Byte → Instr) (year : Half) (month day dow : Byte)
    (rest : List Byte) :
    parseDT f (octets2 year ++ [month, day, dow] ++ rest) = .done (f year month day dow) rest :=
  congrArg (fun year => Parsed.done (f year month day dow) rest) (half_octets year _ _ rfl)

theorem parseTM_octets (f : Byte → Byte → Byte → Half → Instr) (hour minute second : Byte) (ms : Half)
    (rest : List Byte) :
    parseTM f (hour :: minute :: second :: (octets2 ms ++ rest)) = .done (f hour minute second ms) rest :=
  congrArg (fun ms => Parsed.done (f hour minute second ms) rest) (half_octets ms _ _ rfl)

theorem parseO_octets (f : Half → Word → Instr) (type : Half) (inst : Word) (rest : List Byte) :
    parseO f (octets2 type ++ octets4 inst ++ rest) = .done (f type inst) rest :=
  congrArg₂ (fun type inst => Parsed.done (f type inst) rest) (half_octets type _ _ rfl)
    (word_octets inst _ _ _ _ rfl)

theorem parseG_octets (f : Half → Half → Instr) (a b : Half) (rest : List Byte) :
    parseG f (octets2 a ++ octets2 b ++ rest) = .done (f a b) rest :=
  congrArg₂ (fun a b => Parsed.done (f a b) rest) (half_octets a _ _ rfl) (half_octets b _ _ rfl)

theorem parseData_append (f : List Byte → Instr) (data rest : List Byte) :
    parseData f data.length (data ++ rest) = .done (f data) rest := by
  simp [parseData]

theorem parseS_octets (f : List Byte → Instr) {data : List Byte} (h : data.length < 2 ^ 32) (rest : List Byte) :
    parseS f (be data.length 4 ++ data ++ rest) = .done (f data) rest := by
  have hlen : beVal (be data.length 4) = data.length := beVal_be_of_lt h
  rw [← parseData_append f data rest]
  exact congrArg (parseData f · (data ++ rest)) hlen

theorem parseL_octets (f : List Byte → Instr) {data : List Byte} (h : data.length < 2 ^ 16) (rest : List Byte) :
    parseL f (be data.length 2 ++ data ++ rest) = .done (f data) rest := by
  have hlen : beVal (be data.length 2) = data.length := beVal_be_of_lt h
  rw [← parseData_append f data rest]
  exact congrArg (parseData f · (data ++ rest)) hlen

/-- The one octet of a `dlen` or `slen` counts an address that fits it. -/
theorem be_one {n : Nat} (h : n < 2 ^ 8) : ∃ b : Byte, be n 1 = [b] ∧ b.toNat = n :=
  ⟨_, rfl, by rw [pow_zero, Nat.div_one, BitVec.toNat_ofNat, Nat.mod_eq_of_lt h]⟩

theorem parseNSource_octets (f : Half → List Byte → Instr) (net : Half) {adr : List Byte} (h : adr.length < 2 ^ 8)
    (rest : List Byte) :
    parseNSource f (octets2 net ++ be adr.length 1 ++ adr ++ rest) = .done (f net adr) rest := by
  obtain ⟨len, hlen, hcount⟩ := be_one h
  rw [hlen, ← parseData_append _ adr rest, ← hcount]
  exact congrArg (fun net => parseData (f net) len.toNat (adr ++ rest)) (half_octets net _ _ rfl)

/-- The first half of format N reads its operands back and leaves the second half to the octets after them. -/
theorem parseN_octets (f : Byte → Byte → Byte → Half → Half → List Byte → Half → List Byte → Instr)
    (flags hop mtype : Byte) (vendor dnet : Half) {dadr : List Byte} (h : dadr.length < 2 ^ 8)
    (source : List Byte) :
    parseN f (flags :: hop :: mtype :: (octets2 vendor ++ octets2 dnet ++ be dadr.length 1 ++ (dadr ++ source)))
      = parseNSource (f flags hop mtype vendor dnet dadr) source := by
  obtain ⟨len, hlen, hcount⟩ := be_one h
  have hsplit : parseN f (flags :: hop :: mtype :: (octets2 vendor ++ octets2 dnet ++ [len] ++ (dadr ++ source)))
      = if (dadr ++ source).length < len.toNat then .wait
        else parseNSource (f flags hop mtype (half _ _) (half _ _) ((dadr ++ source).take len.toNat))
          ((dadr ++ source).drop len.toNat) := rfl
  rw [hlen, hsplit, half_octets vendor _ _ rfl, half_octets dnet _ _ rfl, hcount]
  simp

/-- Settles O1: each command's operands are read back by its format. -/
theorem decodeReadsBackEveryEncodedCommand : Obligations.DecodeReadsBackEveryEncodedCommand := by
  intro i rest hcmd hwf
  cases i with
  | nop | oclr | iclr | decTag | decUint | decSint | decReal | decDbl | decDate | decTime | decOid | appNull | appBool
  | decAny => rfl
  | encUint v | encSint v | encReal v | decStr v | appUint v | appSint v | appReal v | appEnum v =>
    exact parseW_octets _ v rest
  | encDbl v | appDbl v => exact parseD_octets _ v rest
  | encTag tn flags lv => exact parseT_octets _ tn flags lv rest
  | encDate year month day dow | appDate year month day dow => exact parseDT_octets _ year month day dow rest
  | encTime hour minute second ms | appTime hour minute second ms => exact parseTM_octets _ hour minute second ms rest
  | encOid type inst | appOid type inst => exact parseO_octets _ type inst rest
  | encSeg maxsegs maxapdu => exact parseG_octets _ maxsegs maxapdu rest
  | iload data => exact parseL_octets _ (of_decide_eq_true hwf) rest
  | encStr data | appOctstr data | appStr data | appBitstr data => exact parseS_octets _ (of_decide_eq_true hwf) rest
  | encNpdu flags hop mtype vendor dnet dadr snet sadr =>
    obtain ⟨hd, hs⟩ := (Bool.and_eq_true ..).mp hwf
    have hsplit : encode (.encNpdu flags hop mtype vendor dnet dadr snet sadr) ++ rest
        = 0x60 :: flags :: hop :: mtype :: (octets2 vendor ++ octets2 dnet ++ be dadr.length 1
          ++ (dadr ++ (octets2 snet ++ be sadr.length 1 ++ sadr ++ rest))) := by
      simp only [encode, List.cons_append, List.append_assoc]
    rw [hsplit]
    exact (parseN_octets _ flags hop mtype vendor dnet (of_decide_eq_true hd) _).trans
      (parseNSource_octets _ snet (of_decide_eq_true hs) rest)
  | tagNull | tagBool | tagUint | tagSint | tagReal | tagDbl | tagOctstr | tagStr | tagBitstr | tagEnum | tagDate
  | tagTime | tagOid | tagRsvd13 | tagRsvd14 | tagExt => cases hcmd

/-! ## What the parser can find at the front of a stream -/

/-- A well-formed command and its octets. -/
structure Encodes (i : Instr) (front : List Byte) : Prop where
  encode : encode i = front
  wellFormed : i.wellFormed = true
  command : i.isWireTag = false

/-- What the parser can find in a stream of octets, and the length that the rule of R85 gives there: a whole command of
that length; fewer octets than that length, where there is one; or a reserved opcode, which has none. -/
inductive Front : List Byte → Option Nat → Parsed → Prop where
  | whole {i : Instr} {front rest : List Byte} (hi : Encodes i front) :
      Front (front ++ rest) (some front.length) (.done i rest)
  | part {bs : List Byte} {len : Option Nat} (hshort : ∀ n, len = some n → bs.length < n) : Front bs len .wait
  | reserved {bs : List Byte} (op : Byte) : Front bs none (.reserved op)

theorem Front.short {bs : List Byte} {n : Nat} (h : bs.length < n) : Front bs (some n) .wait :=
  .part fun _ hn => Option.some.inj hn ▸ h

theorem Front.undecided {bs : List Byte} : Front bs none .wait := .part fun _ hn => nomatch hn

theorem Front.of_done {bs rest : List Byte} {len : Option Nat} {i : Instr} (h : Front bs len (.done i rest)) :
    ∃ front, Encodes i front ∧ bs = front ++ rest ∧ len = some front.length := by
  cases h with
  | whole hi => exact ⟨_, hi, rfl, rfl⟩

/-- The length says which of the three it is. -/
theorem Front.governs {bs : List Byte} {len : Option Nat} {p : Parsed} (h : Front bs len p) :
    (∀ n, len = some n → n ≤ bs.length → ∃ i, p = .done i (bs.drop n))
    ∧ (∀ n, len = some n → bs.length < n → p = .wait)
    ∧ (len = none → p = .wait ∨ ∃ op, p = .reserved op) := by
  cases h with
  | @whole i front rest hi =>
    refine ⟨fun n hn _ => ?_, fun n hn hlt => ?_, nofun⟩ <;> obtain rfl := Option.some.inj hn
    · exact ⟨i, by rw [List.drop_left]⟩
    · rw [List.length_append] at hlt
      omega
  | part hshort =>
    exact ⟨fun n hn hle => absurd (hshort n hn) (by omega), fun _ _ _ => rfl, fun _ => .inl rfl⟩
  | reserved op => exact ⟨nofun, nofun, fun _ => .inr ⟨op, rfl⟩⟩

section

variable {op : Byte}

theorem front_single {i : Instr} (hi : Encodes i [op]) (r : List Byte) : Front (op :: r) (some 1) (.done i r) :=
  .whole (front := [op]) hi

theorem front_parseB {f : Byte → Instr} (hf : ∀ b, Encodes (f b) [op, b]) :
    ∀ r, Front (op :: r) (some 2) (parseB f r)
  | b :: _ => .whole (front := [op, b]) (hf b)
  | [] => .short (by simp)

theorem front_parseW {f : Word → Instr} (hf : ∀ v, Encodes (f v) (op :: octets4 v)) :
    ∀ r, Front (op :: r) (some 5) (parseW f r)
  | a :: b :: c :: d :: _ => .whole (front := [op, a, b, c, d]) (be_word a b c d ▸ hf _)
  | [] | [_] | [_, _] | [_, _, _] => .short (by simp)

theorem front_parseD {f : Long → Instr} (hf : ∀ v, Encodes (f v) (op :: octets8 v)) :
    ∀ r, Front (op :: r) (some 9) (parseD f r)
  | a :: b :: c :: d :: e :: g :: h :: k :: _ =>
    .whole (front := [op, a, b, c, d, e, g, h, k]) (be_long a b c d e g h k ▸ hf _)
  | [] | [_] | [_, _] | [_, _, _] | [_, _, _, _] | [_, _, _, _, _] | [_, _, _, _, _, _] | [_, _, _, _, _, _, _] =>
    .short (by simp)

theorem front_parseT {f : Byte → Byte → Word → Instr}
    (hf : ∀ tn flags v, Encodes (f tn flags v) (op :: tn :: flags :: octets4 v)) :
    ∀ r, Front (op :: r) (some 7) (parseT f r)
  | tn :: flags :: a :: b :: c :: d :: _ =>
    .whole (front := [op, tn, flags, a, b, c, d]) (be_word a b c d ▸ hf tn flags _)
  | [] | [_] | [_, _] | [_, _, _] | [_, _, _, _] | [_, _, _, _, _] => .short (by simp)

theorem front_parseDT {f : Half → Byte → Byte → Byte → Instr}
    (hf : ∀ year month day dow, Encodes (f year month day dow) (op :: (octets2 year ++ [month, day, dow]))) :
    ∀ r, Front (op :: r) (some 6) (parseDT f r)
  | a :: b :: month :: day :: dow :: _ =>
    .whole (front := op :: ([a, b] ++ [month, day, dow])) (be_half a b ▸ hf _ month day dow)
  | [] | [_] | [_, _] | [_, _, _] | [_, _, _, _] => .short (by simp)

theorem front_parseTM {f : Byte → Byte → Byte → Half → Instr}
    (hf : ∀ hour minute second ms, Encodes (f hour minute second ms) (op :: hour :: minute :: second :: octets2 ms)) :
    ∀ r, Front (op :: r) (some 6) (parseTM f r)
  | hour :: minute :: second :: a :: b :: _ =>
    .whole (front := [op, hour, minute, second, a, b]) (be_half a b ▸ hf hour minute second _)
  | [] | [_] | [_, _] | [_, _, _] | [_, _, _, _] => .short (by simp)

theorem front_parseO {f : Half → Word → Instr}
    (hf : ∀ type inst, Encodes (f type inst) (op :: (octets2 type ++ octets4 inst))) :
    ∀ r, Front (op :: r) (some 7) (parseO f r)
  | t1 :: t0 :: a :: b :: c :: d :: _ =>
    .whole (front := op :: ([t1, t0] ++ [a, b, c, d])) (be_half t1 t0 ▸ be_word a b c d ▸ hf _ _)
  | [] | [_] | [_, _] | [_, _, _] | [_, _, _, _] | [_, _, _, _, _] => .short (by simp)

theorem front_parseG {f : Half → Half → Instr} (hf : ∀ a b, Encodes (f a b) (op :: (octets2 a ++ octets2 b))) :
    ∀ r, Front (op :: r) (some 5) (parseG f r)
  | a1 :: a0 :: b1 :: b0 :: _ =>
    .whole (front := op :: ([a1, a0] ++ [b1, b0])) (be_half a1 a0 ▸ be_half b1 b0 ▸ hf _ _)
  | [] | [_] | [_, _] | [_, _, _] => .short (by simp)

/-- A counted octet string behind the fixed octets `head`: complete or not by the count. -/
theorem front_parseData {f : List Byte → Instr} {head : List Byte} {len : Nat}
    (hf : ∀ data, data.length = len → Encodes (f data) (head ++ data)) (bs : List Byte) :
    Front (head ++ bs) (some (head.length + len)) (parseData f len bs) := by
  unfold parseData
  split
  · exact .short (by rw [List.length_append]; omega)
  · have hlen : (bs.take len).length = len := List.length_take_of_le (by omega)
    have hwhole := Front.whole (rest := bs.drop len) (hf (bs.take len) hlen)
    rwa [List.append_assoc, List.take_append_drop, List.length_append, hlen] at hwhole

/-- Format S, for every opcode that has the length rule of `ENC_STR`. -/
theorem front_parseS {f : List Byte → Instr} (hop : ∀ r, commandLength (op :: r) = commandLength (0x24 :: r))
    (hf : ∀ data, data.length < 2 ^ 32 → Encodes (f data) (op :: (be data.length 4 ++ data))) (r : List Byte) :
    Front (op :: r) (commandLength (op :: r)) (parseS f r) := by
  rw [hop]
  match r with
  | a :: b :: c :: d :: rest =>
    refine front_parseData (head := [op, a, b, c, d]) (fun data hlen => ?_) rest
    have hlt : data.length < 2 ^ 32 := by simpa [hlen] using beVal_lt [a, b, c, d]
    have hcount : be data.length 4 = [a, b, c, d] := by simpa [hlen] using be_beVal [a, b, c, d]
    exact hcount ▸ hf data hlt
  | [] | [_] | [_, _] | [_, _, _] => exact .undecided

theorem front_iload (r : List Byte) : Front (0x03 :: r) (commandLength (0x03 :: r)) (parseL .iload r) :=
  match r with
  | a :: b :: rest => by
    refine front_parseData (head := [0x03, a, b]) (fun data hlen => ?_) rest
    have hlt : data.length < 2 ^ 16 := by simpa [hlen] using beVal_lt [a, b]
    have hcount : be data.length 2 = [a, b] := by simpa [hlen] using be_beVal [a, b]
    exact ⟨hcount ▸ rfl, decide_eq_true hlt, rfl⟩
  | [] | [_] => .undecided

/-- The rule of R85 for format N, from the octets after `dlen` on. -/
theorem commandLength_encNpdu (flags hop mtype v1 v0 d1 d0 dlen : Byte) (rest : List Byte) :
    commandLength (0x60 :: flags :: hop :: mtype :: v1 :: v0 :: d1 :: d0 :: dlen :: rest)
      = rest[dlen.toNat + 2]?.map (12 + dlen.toNat + ·.toNat) := by
  have hskip : (flags :: hop :: mtype :: v1 :: v0 :: d1 :: d0 :: dlen :: rest)[10 + dlen.toNat]?
      = rest[dlen.toNat + 2]? := by
    rw [show 10 + dlen.toNat = dlen.toNat + 2 + 8 by omega]
    rfl
  have hrule : commandLength (0x60 :: flags :: hop :: mtype :: v1 :: v0 :: d1 :: d0 :: dlen :: rest)
      = match (flags :: hop :: mtype :: v1 :: v0 :: d1 :: d0 :: dlen :: rest)[10 + dlen.toNat]? with
        | none => none
        | some slen => some (12 + dlen.toNat + slen.toNat) := rfl
  rw [hrule, hskip]
  cases rest[dlen.toNat + 2]? <;> rfl

/-- The second half of format N behind the octets `head`: its third octet counts the address. -/
theorem front_parseNSource {f : Half → List Byte → Instr} {head : List Byte}
    (hf : ∀ net adr, adr.length < 2 ^ 8 → Encodes (f net adr) (head ++ (octets2 net ++ be adr.length 1 ++ adr))) :
    ∀ source, Front (head ++ source) (source[2]?.map (head.length + 3 + ·.toNat)) (parseNSource f source)
  | s1 :: s0 :: slen :: rest => by
    have hsplit : head ++ s1 :: s0 :: slen :: rest = head ++ [s1, s0, slen] ++ rest := by simp
    have hlen : (head ++ [s1, s0, slen]).length = head.length + 3 := by simp
    rw [hsplit, List.getElem?_cons_succ, List.getElem?_cons_succ, List.getElem?_cons_zero, Option.map_some, ← hlen]
    refine front_parseData (fun adr hadr => ?_) rest
    have hcount : be adr.length 1 = [slen] := by simpa [hadr, beVal_cons] using be_beVal [slen]
    have hsource := hf (half s1 s0) adr (hadr ▸ slen.isLt)
    rwa [octets2, be_half, hcount, ← List.append_assoc] at hsource
  | [] | [_] | [_, _] => .undecided

theorem front_encNpdu (r : List Byte) : Front (0x60 :: r) (commandLength (0x60 :: r)) (parseN .encNpdu r) := by
  match r with
  | flags :: hop :: mtype :: v1 :: v0 :: d1 :: d0 :: dlen :: rest =>
    simp only [parseN]
    rw [commandLength_encNpdu]
    split
    · rw [List.getElem?_eq_none (by omega)]
      exact .undecided
    · obtain ⟨dadr, source, hd, rfl⟩ : ∃ dadr source, dadr.length = dlen.toNat ∧ rest = dadr ++ source :=
        ⟨rest.take dlen.toNat, rest.drop dlen.toNat, List.length_take_of_le (by omega),
          (List.take_append_drop ..).symm⟩
      rw [← hd, List.take_left, List.drop_left, List.getElem?_append_right (by omega), Nat.add_sub_cancel_left]
      have hlt : dadr.length < 2 ^ 8 := hd ▸ dlen.isLt
      have hcount : be dadr.length 1 = [dlen] := by simpa [hd, beVal_cons] using be_beVal [dlen]
      have hsource := front_parseNSource (f := .encNpdu flags hop mtype (half v1 v0) (half d1 d0) dadr)
        (head := 0x60 :: flags :: hop :: mtype :: v1 :: v0 :: d1 :: d0 :: dlen :: dadr) (fun net adr hadr => ?_) source
      · rw [show 12 + dadr.length = dadr.length + 9 + 3 by omega]
        exact hsource
      · refine ⟨?_, (Bool.and_eq_true ..).mpr ⟨decide_eq_true hlt, decide_eq_true hadr⟩, rfl⟩
        simp only [encode, octets2, be_half, hcount, List.cons_append, List.nil_append, List.append_assoc]
  | [] | [_] | [_, _] | [_, _, _] | [_, _, _, _] | [_, _, _, _, _] | [_, _, _, _, _, _] | [_, _, _, _, _, _, _] =>
    exact .undecided

/-- An opcode is the octet of its number. -/
theorem opcode_eq {op : Byte} {n : Nat} (h : op.toNat = n) : op = BitVec.ofNat 8 n := by
  subst h
  simp

/-- The case analysis over the opcodes. The cases are numbered as the rows of `parseOpcode`; each row has its format,
and the last case is that of the opcodes without a row. -/
theorem front_opcode (op : Byte) (r : List Byte) : Front (op :: r) (commandLength (op :: r)) (parseOpcode op r) := by
  unfold parseOpcode
  split
  case h_39 =>
    have hlen : commandLength (op :: r) = none := by simp only [commandLength]
    exact hlen ▸ .reserved op
  all_goals obtain rfl := opcode_eq ‹op.toNat = _›
  case h_1 | h_2 | h_3 | h_6 | h_17 | h_18 | h_20 | h_21 | h_22 | h_23 | h_36 => exact front_single ⟨rfl, rfl, rfl⟩ r
  case h_4 => exact front_iload r
  case h_5 => exact front_parseT (fun _ _ _ => ⟨rfl, rfl, rfl⟩) r
  case h_7 | h_8 | h_9 | h_19 | h_25 | h_26 | h_27 | h_32 => exact front_parseW (fun _ => ⟨rfl, rfl, rfl⟩) r
  case h_10 | h_28 => exact front_parseD (fun _ => ⟨rfl, rfl, rfl⟩) r
  case h_11 | h_29 | h_30 | h_31 =>
    refine front_parseS (fun _ => by rfl) (fun _ hlen => ?_) r
    exact ⟨rfl, decide_eq_true hlen, rfl⟩
  case h_12 | h_33 => exact front_parseDT (fun _ _ _ _ => ⟨rfl, rfl, rfl⟩) r
  case h_13 | h_34 => exact front_parseTM (fun _ _ _ _ => ⟨rfl, rfl, rfl⟩) r
  case h_14 | h_35 => exact front_parseO (fun _ _ => ⟨rfl, rfl, rfl⟩) r
  case h_15 | h_16 | h_24 => exact front_parseB (fun _ => ⟨rfl, rfl, rfl⟩) r
  case h_37 => exact front_encNpdu r
  case h_38 => exact front_parseG (fun _ _ => ⟨rfl, rfl, rfl⟩) r

/-- What the parser answers is one of the findings of `Front`, for the length that `commandLength` gives. -/
theorem front_decode : ∀ bs, Front bs (commandLength bs) (decode bs)
  | [] => .undecided
  | op :: r => front_opcode op r

end

/-- Settles O2: what the parser completes stands at the front of the stream. -/
theorem encodeWritesBackEveryDecodedCommand : Obligations.EncodeWritesBackEveryDecodedCommand := by
  intro bs i rest hdone
  obtain ⟨front, hi, rfl, -⟩ := (hdone ▸ front_decode bs).of_done
  exact ⟨by rw [hi.encode], hi.wellFormed, hi.command⟩

/-- Settles O3: each of the three findings goes with one of the clauses. -/
theorem commandLengthGovernsTheParser : Obligations.CommandLengthGovernsTheParser :=
  fun bs => (front_decode bs).governs

end Sys2Proof

namespace Sys2Proof

open Machine Safety

/-! ## Reserved opcodes (R84) -/

/-- R84 lists what R83 leaves out. -/
theorem parseOpcode_reserved {op : Byte} (h : ReservedOpcode op) (r : List Byte) : parseOpcode op r = .reserved op := by
  unfold parseOpcode
  split
  case h_39 => rfl
  all_goals
    obtain rfl := opcode_eq ‹op.toNat = _›
    exact absurd h (by unfold ReservedOpcode; decide)

theorem reservedOpcode_of_decode : ∀ op : Byte, decode [op] = .reserved op → ReservedOpcode op := by
  unfold ReservedOpcode
  decide

/-- Settles O4: the opcodes that no format of R83 takes are those of R84, and the step that meets one gives
`State.badCommand`, whose stream is empty and stays so. -/
theorem reservedOpcodeHaltsTheBlock : Obligations.ReservedOpcodeHaltsTheBlock := by
  refine ⟨fun op => ⟨fun h => parseOpcode_reserved h, fun h => reservedOpcode_of_decode op (h [])⟩, ?_⟩
  intro s op rest hhalt hop hstream
  have hdecode : decode s.stream = .reserved op := hstream ▸ parseOpcode_reserved hop rest
  exact ⟨_, step_reserved hhalt hdecode, rfl, rfl, rfl, ⟨fun _ => rfl, rfl, rfl⟩, ⟨fun _ => rfl, rfl, rfl, rfl⟩,
    fun _ => rfl, rfl⟩

/-! ## Words of the spec -/

/-- Settles O5: each word, decoded. -/
theorem specEncodingsDecode : Obligations.SpecEncodingsDecode :=
  ⟨by decide, by decide, by decide, by decide, by decide, by decide, by decide, by decide⟩

end Sys2Proof

namespace Sys2Proof.Machine

/-! ## Tag headers, octet for octet (R73) -/

/-- The three fields of a first octet do not overlap (R70). -/
theorem headOctet_eq (n : Nat) (c : Bool) {lo : Nat} (h : lo < 8) :
    headOctet n c lo = BitVec.ofNat 8 (n * 16 + c.toNat * 8 + lo) := by
  have hc : c.toNat <<< 3 ||| lo = c.toNat * 8 + lo := by
    rw [← Nat.shiftLeft_add_eq_or_of_lt h, Nat.shiftLeft_eq]
  have hlt : c.toNat * 8 + lo < 2 ^ 4 := by have := c.toNat_lt; omega
  rw [headOctet, Nat.or_assoc, hc, ← Nat.shiftLeft_add_eq_or_of_lt hlt, Nat.shiftLeft_eq, Nat.add_assoc]

theorem encLenExt_inline {L : Nat} (h : L ≤ 4) : encLenExt L = [] := if_pos (by omega)

theorem encLenExt_one {L : Nat} (h : 5 ≤ L) (h' : L ≤ 253) : encLenExt L = [BitVec.ofNat 8 L] := by
  rw [encLenExt, if_neg (by omega), if_pos (by omega)]

theorem encLenExt_two {L : Nat} (h : 254 ≤ L) (h' : L ≤ 65535) :
    encLenExt L = [0xFE, BitVec.ofNat 8 (L / 256), BitVec.ofNat 8 L] := by
  rw [encLenExt, if_neg (by omega), if_neg (by omega), if_pos (by omega)]
  simp [be]

theorem encLenExt_four {L : Nat} (h : 65536 ≤ L) :
    encLenExt L = [0xFF, BitVec.ofNat 8 (L / 2 ^ 24), BitVec.ofNat 8 (L / 2 ^ 16), BitVec.ofNat 8 (L / 256),
      BitVec.ofNat 8 L] := by
  rw [encLenExt, if_neg (by omega), if_neg (by omega), if_neg (by omega)]
  simp [be]

/-- A header whose tag number fits the first octet. -/
theorem encTag_short {t : Nat} (ht : t ≤ 14) (c : Bool) (L : Nat) :
    encTag t c L = BitVec.ofNat 8 (t * 16 + c.toNat * 8 + min L 5) :: encLenExt L := by
  have hlo : (if L < 5 then L else 5) = min L 5 := by split <;> omega
  rw [encTag, hlo, if_pos (by omega), if_pos (by omega), headOctet_eq _ _ (by omega), List.nil_append]

/-- A header whose tag number takes an octet of its own. -/
theorem encTag_long {t : Nat} (ht : 15 ≤ t) (c : Bool) (L : Nat) :
    encTag t c L = BitVec.ofNat 8 (0xF0 + c.toNat * 8 + min L 5) :: BitVec.ofNat 8 t :: encLenExt L := by
  have hlo : (if L < 5 then L else 5) = min L 5 := by split <;> omega
  rw [encTag, hlo, if_neg (by omega), if_neg (by omega), headOctet_eq _ _ (by omega)]
  rfl

/-- Settles O32: two forms of the tag number and four of the length. -/
theorem headerOctetsFollowTheEightShapes : Obligations.HeaderOctetsFollowTheEightShapes := by
  intro t c L _ _
  refine ⟨fun ht h => ?_, fun ht h h' => ?_, fun ht h h' => ?_, fun ht h => ?_,
    fun ht h => ?_, fun ht h h' => ?_, fun ht h h' => ?_, fun ht h => ?_⟩
  · rw [encTag_short ht, encLenExt_inline h, Nat.min_eq_left (by omega)]
  · rw [encTag_short ht, encLenExt_one h h', Nat.min_eq_right h]
  · rw [encTag_short ht, encLenExt_two h h', Nat.min_eq_right (by omega)]
  · rw [encTag_short ht, encLenExt_four h, Nat.min_eq_right (by omega)]
  · rw [encTag_long ht, encLenExt_inline h, Nat.min_eq_left (by omega)]
  · rw [encTag_long ht, encLenExt_one h h', Nat.min_eq_right h]
  · rw [encTag_long ht, encLenExt_two h h', Nat.min_eq_right (by omega)]
  · rw [encTag_long ht, encLenExt_four h, Nat.min_eq_right (by omega)]

end Sys2Proof.Machine

namespace Sys2Proof.Machine

open Safety

/-! ## The wire-tag rows by their parts (R70, R90) -/

theorem headNibble_eq (b : Byte) : headNibble b = b.toNat / 16 := by
  have hlt := b.isLt
  rw [headNibble, BitVec.extractLsb'_toNat, Nat.shiftRight_eq_div_pow, Nat.mod_eq_of_lt (by omega)]

theorem headNibble_headOctet {n : Nat} (h : n < 16) (c : Bool) (lv : BitVec 3) :
    headNibble (headOctet n c lv.toNat) = n :=
  (head_fields ⟨n, h⟩ c lv).1

theorem headClass_headOctet {n : Nat} (h : n < 16) (c : Bool) (lv : BitVec 3) :
    headClass (headOctet n c lv.toNat) = c :=
  (head_fields ⟨n, h⟩ c lv).2.1

theorem headLv_headOctet {n : Nat} (h : n < 16) (c : Bool) (lv : BitVec 3) :
    headLv (headOctet n c lv.toNat) = lv :=
  (head_fields ⟨n, h⟩ c lv).2.2

theorem isWireTag_eq_rowParts_isSome (i : Instr) : i.isWireTag = (rowParts i).isSome := by
  cases i <;> rfl

/-- The row that an octet selects carries the octet's three fields. -/
theorem rowParts_decodeWireTag (b : Byte) :
    rowParts (decodeWireTag b) = some (headNibble b, headClass b, (headLv b).toNat) := by
  have hlt := headNibble_lt b
  unfold decodeWireTag
  generalize headNibble b = nibble at hlt
  interval_cases nibble <;> rfl

/-- A row is encoded as the octet made of its parts, and is the row of that octet. -/
theorem row_octet {i : Instr} {nibble lv : Nat} {c : Bool} (h : rowParts i = some (nibble, c, lv)) :
    encode i = [headOctet nibble c lv] ∧ decodeWireTag (headOctet nibble c lv) = i := by
  cases i <;> cases h
  all_goals
    refine ⟨rfl, ?_⟩
    simp only [decodeWireTag, headNibble_headOctet, headClass_headOctet, headLv_headOctet, Nat.reduceLT]

/-- Settles O6: the octet of a row is made of the row's parts. -/
theorem wireTagOctetsRoundTrip : Obligations.WireTagOctetsRoundTrip := by
  refine ⟨fun b => ⟨?_, ?_⟩, fun i hi => ?_⟩
  · rw [isWireTag_eq_rowParts_isSome, rowParts_decodeWireTag, Option.isSome_some]
  · rw [(row_octet (rowParts_decodeWireTag b)).1, headOctet_fields]
  · rw [isWireTag_eq_rowParts_isSome, Option.isSome_iff_exists] at hi
    obtain ⟨⟨nibble, c, lv⟩, hparts⟩ := hi
    exact ⟨_, row_octet hparts⟩

/-! ## The rows of R90 as one function of their parts -/

/-- A value of kind `k` behind a decoded header, as `DEC_ANY` reports it (R195, R196). -/
def decodeValue (k : Kind) (h : Header) (rest : List Byte) (index : Nat) : Except Status Decoded :=
  match decPayload hw k h.L rest index with
  | .error e => .error e
  | .ok (rv, m) => .ok (decodedValue k h rv m)

/-- The dispatch on the tag number of a decoded header. -/
def decodeDispatch (h : Header) (rest : List Byte) (index : Nat) : Except Status Decoded :=
  match hw.kindOf h.t with
  | none => .error .unsupportedTag
  | some k => decodeValue k h rest index

/-- What is left to do once tag number, class bit and `lv` are known from `taken` octets: the length extension, then the
dispatch. -/
def decodeFromLength (t : Nat) (c : Bool) (taken : Nat) (lv : BitVec 3) (rest : List Byte) (index : Nat) :
    Except Status Decoded :=
  match decLenExt lv rest with
  | .error e => .error e
  | .ok (L, m) => decodeDispatch { t := t, c := c, L := L, n := taken + m } (rest.drop m) (index + m)

/-- A row from the parts of its octet: the number 15 stands for the tag number in the next octet. -/
def decodeRow (nibble : Nat) (c : Bool) (lv : BitVec 3) (rest : List Byte) (index : Nat) : Except Status Decoded :=
  if nibble = 15 then
    match rest with
    | [] => .error .malformedTag
    | t :: r =>
      if t.toNat > hw.tagMax then .error .malformedTag else decodeFromLength t.toNat c 2 lv r (index + 1)
  else decodeFromLength nibble c 1 lv rest index

theorem decodeRow_inline {nibble : Nat} (h : nibble ≠ 15) (c : Bool) (lv : BitVec 3) :
    decodeRow nibble c lv = decodeFromLength nibble c 1 lv := by
  funext rest index
  exact if_neg h

theorem decodeRow_cut (c : Bool) (lv : BitVec 3) (index : Nat) :
    decodeRow 15 c lv [] index = .error .malformedTag := rfl

theorem decodeRow_reserved {t : Byte} (h : hw.tagMax < t.toNat) (c : Bool) (lv : BitVec 3) (r : List Byte)
    (index : Nat) : decodeRow 15 c lv (t :: r) index = .error .malformedTag := if_pos h

theorem decodeRow_ext {t : Byte} (h : t.toNat ≤ hw.tagMax) (c : Bool) (lv : BitVec 3) (r : List Byte)
    (index : Nat) : decodeRow 15 c lv (t :: r) index = decodeFromLength t.toNat c 2 lv r (index + 1) :=
  if_neg (Nat.not_lt.2 h)

theorem decodeDispatch_some {h : Header} {k : Kind} (hk : hw.kindOf h.t = some k) (rest : List Byte) (index : Nat) :
    decodeDispatch h rest index = decodeValue k h rest index := by
  rw [decodeDispatch, hk]

theorem decodeDispatch_none {h : Header} (hk : hw.kindOf h.t = none) (rest : List Byte) (index : Nat) :
    decodeDispatch h rest index = .error .unsupportedTag := by
  rw [decodeDispatch, hk]

theorem decodeFromLength_error {lv : BitVec 3} {rest : List Byte} {e : Status} (hlen : decLenExt lv rest = .error e)
    (t : Nat) (c : Bool) (taken index : Nat) : decodeFromLength t c taken lv rest index = .error e := by
  rw [decodeFromLength, hlen]

theorem decodeFromLength_ok {lv : BitVec 3} {rest : List Byte} {L m : Nat} (hlen : decLenExt lv rest = .ok (L, m))
    (t : Nat) (c : Bool) (taken index : Nat) :
    decodeFromLength t c taken lv rest index
      = decodeDispatch { t := t, c := c, L := L, n := taken + m } (rest.drop m) (index + m) := by
  rw [decodeFromLength, hlen]

/-! ## Each row is that function (log 6) -/

theorem wireRow_eq {k : Kind} {t : Nat} (hk : hw.kindOf t = some k)
    {payload : Nat → List Byte → Nat → Except Status (Long × Nat)} (hp : payload = decPayload hw k) (c : Bool)
    (lv : BitVec 3) : wireRow k t c lv payload = decodeFromLength t c 1 lv := by
  funext rest index
  cases hlen : decLenExt lv rest with
  | error e => rw [decodeFromLength_error hlen, wireRow, hlen]
  | ok p =>
    rw [decodeFromLength_ok hlen, decodeDispatch_some hk, wireRow, hlen, hp]
    rfl

theorem wireUnsupported_eq {t : Nat} (ht : hw.kindOf t = none) (c : Bool) (lv : BitVec 3) :
    (fun rest _ => wireUnsupported lv rest) = decodeFromLength t c 1 lv := by
  funext rest index
  cases hlen : decLenExt lv rest with
  | error e => rw [decodeFromLength_error hlen, wireUnsupported, hlen]
  | ok p => rw [decodeFromLength_ok hlen, decodeDispatch_none ht, wireUnsupported, hlen]

theorem wireExt_eq (c : Bool) (lv : BitVec 3) : wireExt hw c lv = decodeRow 15 c lv := by
  funext rest index
  cases rest with
  | nil => rfl
  | cons t r =>
    obtain hmax | hmax := Nat.lt_or_ge hw.tagMax t.toNat
    · rw [decodeRow_reserved hmax]
      exact if_pos hmax
    · rw [decodeRow_ext hmax]
      refine (if_neg (Nat.not_lt.2 hmax)).trans ?_
      cases hlen : decLenExt lv r with
      | error e => exact (decodeFromLength_error hlen ..).symm
      | ok p => exact (decodeFromLength_ok hlen ..).symm

/-- Every row is `decodeRow` of its parts. -/
theorem exec_row {i : Instr} {nibble lv : Nat} {c : Bool} (h : rowParts i = some (nibble, c, lv)) :
    ∃ l : BitVec 3, l.toNat = lv ∧ ∀ s, exec i s = .next (s.wireCommand (decodeRow nibble c l)) := by
  cases i <;> cases h
  all_goals refine ⟨_, rfl, fun s => congrArg (fun f => Host.Outcome.next (s.wireCommand f)) ?_⟩
  case tagExt lv => exact wireExt_eq c lv
  case tagOctstr lv | tagBitstr lv | tagRsvd13 lv | tagRsvd14 lv => exact wireUnsupported_eq rfl c lv
  all_goals exact wireRow_eq rfl rfl c _

theorem decAny_error {inp : List Byte} {e : Status} (h : decTag hw inp = .error e) (base : Nat) :
    decAny hw inp base = .error e := by
  rw [decAny, h]

theorem decAny_header {inp : List Byte} {h : Header} (hd : decTag hw inp = .ok h) (base : Nat) :
    decAny hw inp base = decodeDispatch h (inp.drop h.n) (base + h.n) := by
  rw [decAny, hd]
  rfl

/-- `DEC_ANY` goes on from its first octet as the row of that octet's parts. -/
theorem decAny_cons (b : Byte) (rest : List Byte) (base : Nat) :
    decAny hw (b :: rest) base = decodeRow (headNibble b) (headClass b) (headLv b) rest (base + 1) := by
  by_cases hext : headNibble b = 15
  · rw [hext]
    cases rest with
    | nil => exact decAny_error (by simp only [decTag, hext, if_true]) base
    | cons t r =>
      obtain hmax | hmax := Nat.lt_or_ge hw.tagMax t.toNat
      · rw [decodeRow_reserved hmax]
        exact decAny_error (by simp only [decTag, hext, gt_iff_lt, hmax, if_true]) base
      · rw [decodeRow_ext hmax]
        cases hlen : decLenExt (headLv b) r with
        | error e =>
          rw [decodeFromLength_error hlen]
          exact decAny_error (by simp only [decTag, hext, gt_iff_lt, hmax.not_gt, hlen, if_true, if_false]) base
        | ok p =>
          obtain ⟨L, m⟩ := p
          rw [decodeFromLength_ok hlen, decAny_header (h := ⟨t.toNat, headClass b, L, 2 + m⟩)
            (by simp only [decTag, hext, gt_iff_lt, hmax.not_gt, hlen, if_true, if_false])]
          simp only [← List.drop_drop, ← Nat.add_assoc, List.drop_succ_cons, List.drop_zero]
  · rw [decodeRow_inline hext]
    cases hlen : decLenExt (headLv b) rest with
    | error e =>
      rw [decodeFromLength_error hlen]
      exact decAny_error (by simp only [decTag, hext, hlen, if_false]) base
    | ok p =>
      obtain ⟨L, m⟩ := p
      rw [decodeFromLength_ok hlen, decAny_header (h := ⟨headNibble b, headClass b, L, 1 + m⟩)
        (by simp only [decTag, hext, hlen, if_false])]
      simp only [← List.drop_drop, ← Nat.add_assoc, List.drop_succ_cons, List.drop_zero]

/-! ## The unread input (R53) -/

theorem unread_eq_inputAt (s : State) : s.unread = inputAt s 0 (unreadCount s) := rfl

theorem inputAt_cons (s : State) (off n : Nat) : inputAt s off (n + 1) = octetAt s off :: inputAt s (off + 1) n := rfl

theorem inputAt_pos (s : State) {off n : Nat} (h : 0 < n) :
    inputAt s off n = octetAt s off :: inputAt s (off + 1) (n - 1) := by
  rw [← inputAt_cons, Nat.sub_add_cancel h]

theorem inputAt_take (s : State) {off n k : Nat} (h : k ≤ n) : (inputAt s off n).take k = inputAt s off k :=
  Memory.readAll_take _ _ _ _ h

theorem inputAt_drop (s : State) {off n k : Nat} (h : k ≤ n) :
    (inputAt s off n).drop k = inputAt s (off + k) (n - k) := by
  rw [inputAt, Memory.readAll_drop _ _ _ _ h, Nat.add_assoc, inputAt]

@[simp] theorem inputAt_length (s : State) (off n : Nat) : (inputAt s off n).length = n :=
  Memory.readAll_length ..

theorem unread_eq_cons {s : State} (h : 1 ≤ unreadCount s) :
    s.unread = octetAt s 0 :: inputAt s 1 (unreadCount s - 1) :=
  inputAt_pos s (off := 0) h

/-- Settles O54: the helper of `DEC_ANY` is that of the row (`decAny_cons`), whose number is the octet's high nibble. -/
theorem decAnyRunsTheWireRowOfItsFirstOctet : Obligations.DecAnyRunsTheWireRowOfItsFirstOctet := by
  refine ⟨fun s h => ?_, fun b b' hb => ?_⟩
  · obtain ⟨lv, hlv, hrow⟩ := exec_row (rowParts_decodeWireTag (octetAt s 0))
    obtain rfl := BitVec.eq_of_toNat_eq hlv
    rw [hrow]
    exact congrArg Host.Outcome.next (State.wireCommand_eq (unread_eq_cons h) _ _ (decAny_cons _ _ _))
  · simp only [rowParts_decodeWireTag, headNibble_eq, hb, Option.map_some]

end Sys2Proof.Machine

namespace Sys2Proof.Machine

open Safety

/-! ## What a command of class DEC answers, from what its helper gives (R53, R244) -/

theorem raisedDec_raise (s : State) (e : Status) : RaisedDec e s (s.raise .dec e) :=
  ⟨rfl, rfl, fun _ => rfl, rfl, rfl, ⟨fun _ => rfl, rfl, rfl⟩, ⟨rfl, rfl⟩⟩

theorem consumed_consume {s : State} {d : Decoded} (hn : d.n ≤ unreadCount s) :
    Consumed d.n { d.res with rn := BitVec.ofNat 32 d.n } s (s.consume d) :=
  ⟨State.consume_rpos_toNat hn, fun _ => rfl, rfl, rfl, rfl, ⟨fun _ => rfl, rfl, rfl⟩, ⟨rfl, rfl⟩⟩

section

variable {i : Instr} {s : State} {f : List Byte → Nat → Except Status Decoded}

theorem answers_raised (hexec : exec i s = .next (s.decCommand f)) (hs : DecReady s) {e : Status}
    (hf : f s.unread s.rpos.toNat = .error e) : Answers i s (RaisedDec e s) :=
  ⟨_, hexec, State.decCommand_error hs.halt hs.rerr hf ▸ raisedDec_raise s e⟩

theorem answers_consumed (hexec : exec i s = .next (s.decCommand f)) (hs : DecReady s) {d : Decoded}
    (hf : f s.unread s.rpos.toNat = .ok d) (hn : d.n ≤ unreadCount s) :
    Answers i s (Consumed d.n { d.res with rn := BitVec.ofNat 32 d.n } s) :=
  ⟨_, hexec, State.decCommand_ok hs.halt hs.rerr hf ▸ consumed_consume hn⟩

end

/-! ## Payloads as numbers in the input buffer -/

/-- A payload of `j` octets out of `avail`: its value where they are there, InsufficientBytes where they are not. -/
structure PayloadIs (p : Except Status (Long × Nat)) (avail j : Nat) (rv : Long) : Prop where
  enough : j ≤ avail → p = .ok (rv, j)
  short : avail < j → p = .error .insufficientBytes

/-- The two's-complement reading of R135 is that of a bit vector. -/
theorem signedOctets_eq_toInt {u n : Nat} (h : u < 2 ^ (8 * n)) :
    signedOctets u n = (BitVec.ofNat (8 * n) u).toInt := by
  rw [signedOctets, BitVec.toInt_eq_toNat_cond, BitVec.toNat_ofNat, Nat.mod_eq_of_lt h, Nat.cast_pow, Nat.cast_ofNat]
  obtain rfl | hn := Nat.eq_zero_or_pos n
  · obtain rfl : u = 0 := by simpa using h
    rfl
  · have hpow : 2 ^ (8 * n) = 2 * 2 ^ (8 * n - 1) := by rw [← pow_succ', Nat.sub_add_cancel (by omega)]
    by_cases hneg : u ≥ 2 ^ (8 * n - 1)
    · rw [if_pos ⟨hn, hneg⟩, if_neg (by omega)]
    · rw [if_neg (by simp [hneg]), if_pos (by omega)]

/-- Fields side by side: the left one counts in units of the right one's width. -/
theorem toNat_append_add {m n : Nat} (x : BitVec m) (y : BitVec n) : (x ++ y).toNat = x.toNat * 2 ^ n + y.toNat := by
  rw [BitVec.toNat_append, ← Nat.shiftLeft_add_eq_or_of_lt y.isLt, Nat.shiftLeft_eq]

theorem packDate_eq (year : Half) (month day dow : Byte) :
    packDate year month day dow
      = BitVec.ofNat 64 (year.toNat * 2 ^ 24 + month.toNat * 2 ^ 16 + day.toNat * 2 ^ 8 + dow.toNat) := by
  apply BitVec.eq_of_toNat_eq
  rw [BitVec.toNat_ofNat, Nat.mod_eq_of_lt (by omega), packDate]
  simp only [toNat_append_add, BitVec.toNat_ofNat]
  omega

theorem packTime_eq (hour minute second : Byte) (ms : Half) :
    packTime hour minute second ms
      = BitVec.ofNat 64 (hour.toNat * 2 ^ 32 + minute.toNat * 2 ^ 24 + second.toNat * 2 ^ 16 + ms.toNat) := by
  apply BitVec.eq_of_toNat_eq
  rw [BitVec.toNat_ofNat, Nat.mod_eq_of_lt (by omega), packTime]
  simp only [toNat_append_add, BitVec.toNat_ofNat]
  omega

theorem yearOfWire_toNat (y : Byte) : (yearOfWire hw y).toNat = if y = 0xFF then 255 else y.toNat + hw.yearBase := by
  have hsentinel : y.toNat = hw.yearUnspec ↔ y = 0xFF := BitVec.toNat_inj (y := 0xFF)
  have hlt := y.isLt
  simp only [yearOfWire, hsentinel]
  split
  · rfl
  · rw [BitVec.toNat_ofNat, hw_yearBase, Nat.mod_eq_of_lt (by omega)]

theorem millisOfWire_toNat (cs : Byte) : (millisOfWire cs).toNat = cs.toNat * 10 := by
  rw [millisOfWire, BitVec.toNat_ofNat, Nat.mod_eq_of_lt (by omega)]

/-- Four octets or more at the front of the input. -/
theorem inputAt_four (s : State) {off avail : Nat} (h : 4 ≤ avail) :
    ∃ rest, inputAt s off avail
      = octetAt s off :: octetAt s (off + 1) :: octetAt s (off + 2) :: octetAt s (off + 3) :: rest := by
  obtain ⟨n, rfl⟩ := Nat.exists_eq_add_of_le' h
  exact ⟨inputAt s (off + 4) n, rfl⟩

theorem payloadIs_uint {s : State} {off avail L : Nat} (hL : L ≤ 4) :
    PayloadIs (uintPayload hw L (inputAt s off avail)) avail L (uintAt s off L) where
  enough h := by
    rw [uintPayload, decUint, if_neg (by simp; omega), if_neg (by simp; omega), inputAt_take s h]
    rfl
  short h := by
    rw [uintPayload, decUint, if_neg (by simp; omega), if_pos (by simp; omega)]

theorem payloadIs_sint {s : State} {off avail L : Nat} (hL : L ≤ 4) :
    PayloadIs (sintPayload hw L (inputAt s off avail)) avail L (sintAt s off L) where
  enough h := by
    have hlt : beVal (inputAt s off L) < 2 ^ (8 * L) := by
      have := beVal_lt (inputAt s off L)
      rwa [inputAt_length, show (256 : Nat) = 2 ^ 8 by rfl, ← pow_mul] at this
    rw [sintPayload, decSint, if_neg (by simp; omega), if_neg (by simp; omega), inputAt_take s h]
    simp only [signedOctets_eq_toInt hlt]
    rfl
  short h := by
    rw [sintPayload, decSint, if_neg (by simp; omega), if_pos (by simp; omega)]

theorem payloadIs_fixed (s : State) (off avail k : Nat) :
    PayloadIs (withCount k (fixedValue k (inputAt s off avail))) avail k (uintAt s off k) where
  enough h := by
    rw [fixedValue, if_neg (by simp; omega), inputAt_take s h]
    rfl
  short h := by
    rw [fixedValue, if_pos (by simp; omega)]
    rfl

theorem payloadIs_string (s : State) (off avail L index : Nat) :
    PayloadIs (withCount L (stringValue L (inputAt s off avail) index)) avail L (BitVec.ofNat 64 index) where
  enough h := by
    rw [stringValue, if_neg (by simp; omega)]
    rfl
  short h := by
    rw [stringValue, if_pos (by simp; omega)]
    rfl

theorem payloadIs_date (s : State) (off avail : Nat) :
    PayloadIs (withCount 4 (dateValue hw (inputAt s off avail))) avail 4 (dateAt s off) where
  enough h := by
    obtain ⟨rest, hrest⟩ := inputAt_four s (off := off) h
    rw [hrest, dateValue, packDate_eq, yearOfWire_toNat]
    rfl
  short h := by
    obtain ⟨-, hv⟩ | ⟨henough, -⟩ := dateValue_cases hw (inputAt s off avail)
    · rw [hv, withCount]
    · exact absurd h (by simpa using henough)

theorem payloadIs_time (s : State) (off avail : Nat) :
    PayloadIs (withCount 4 (timeValue (inputAt s off avail))) avail 4 (timeAt s off) where
  enough h := by
    obtain ⟨rest, hrest⟩ := inputAt_four s (off := off) h
    rw [hrest, timeValue, packTime_eq, millisOfWire_toNat]
    rfl
  short h := by
    obtain ⟨-, hv⟩ | ⟨henough, -⟩ := timeValue_cases (inputAt s off avail)
    · rw [hv, withCount]
    · exact absurd h (by simpa using henough)

/-! ## A value behind a header (R195, R196) -/

theorem decodedValue_res (k : Kind) (h : Header) (rv : Long) (m : Nat) :
    (decodedValue k h rv m).res = valueResults k h.t h.c h.L rv := by
  cases k <;> rfl

section

variable {i : Instr} {s : State} {f : List Byte → Nat → Except Status Decoded} {h : Header} {k : Kind}

theorem reads_of_payload (hexec : exec i s = .next (s.decCommand f)) (hs : DecReady s) (hn : h.n ≤ unreadCount s)
    {rest : List Byte} {index : Nat} (hf : f s.unread s.rpos.toNat = decodeValue k h rest index) {j : Nat} {rv : Long}
    (hp : PayloadIs (decPayload hw k h.L rest index) (unreadCount s - h.n) j rv) :
    Reads i s (h.n + j) (valueResults k h.t h.c h.L rv) where
  enough hle := by
    have hd : f s.unread s.rpos.toNat = .ok (decodedValue k h rv j) := by
      rw [hf, decodeValue, hp.enough (by omega)]
    rw [← decodedValue_res k h rv j]
    exact answers_consumed hexec hs hd hle
  short hlt := answers_raised hexec hs (by rw [hf, decodeValue, hp.short (by omega)])

theorem packBool_bne_zero (L : Nat) : packBool (L != 0) = if L = 0 then 0 else 1 := by
  cases L <;> rfl

/-- An integer payload of more octets than `VAL_OCTETS` is malformed, whatever there is to read. -/
theorem integerPayload_malformed {L : Nat} (hL : 4 < L) (rest : List Byte) :
    uintPayload hw L rest = .error .malformedTag ∧ sintPayload hw L rest = .error .malformedTag := by
  constructor
  · rw [uintPayload, decUint, if_pos (by simpa using hL)]
  · rw [sintPayload, decSint, if_pos (by simpa using hL)]

/-- A helper that decodes a value behind the header `h` makes its command decode that kind, case by case over R195. -/
theorem decodesKind_of_value (hexec : exec i s = .next (s.decCommand f)) (hs : DecReady s) (hn : h.n ≤ unreadCount s)
    (hf : f s.unread s.rpos.toNat
      = decodeValue k h (inputAt s h.n (unreadCount s - h.n)) (s.rpos.toNat + h.n)) :
    DecodesKind i s k h.t h.c h.L h.n := by
  have hreads {j : Nat} {rv : Long} (hp : PayloadIs _ _ j rv) := reads_of_payload hexec hs hn hf hp
  have hraised {e : Status} (he : decPayload hw k h.L (inputAt s h.n (unreadCount s - h.n)) (s.rpos.toNat + h.n)
      = .error e) : Answers i s (RaisedDec e s) := answers_raised hexec hs (by rw [hf, decodeValue, he])
  cases k with
  | null => exact hreads (j := 0) ⟨fun _ => rfl, fun hlt => absurd hlt (Nat.not_lt_zero _)⟩
  | boolean =>
    refine hreads (j := 0) ⟨fun _ => ?_, fun hlt => absurd hlt (Nat.not_lt_zero _)⟩
    rw [decPayload, packBool_bne_zero]
  | unsigned | enumerated =>
    obtain hL | hL := Nat.lt_or_ge 4 h.L
    · rw [DecodesKind, if_pos hL]
      exact hraised (integerPayload_malformed hL _).1
    · rw [DecodesKind, if_neg (Nat.not_lt.2 hL)]
      exact hreads (payloadIs_uint hL)
  | signed =>
    obtain hL | hL := Nat.lt_or_ge 4 h.L
    · rw [DecodesKind, if_pos hL]
      exact hraised (integerPayload_malformed hL _).2
    · rw [DecodesKind, if_neg (Nat.not_lt.2 hL)]
      exact hreads (payloadIs_sint hL)
  | real | objectIdentifier => exact hreads (payloadIs_fixed s h.n _ 4)
  | double => exact hreads (payloadIs_fixed s h.n _ 8)
  | characterString => exact hreads (payloadIs_string s h.n _ h.L _)
  | date => exact hreads (payloadIs_date s h.n _)
  | time => exact hreads (payloadIs_time s h.n _)
  | octetString | bitString => exact hraised rfl

/-- The dispatch on a decoded header: to the kind of the tag number, and to UnsupportedTag where there is none. -/
theorem decodeDispatch_apptag (hk : hw.apptag k = h.t) (rest : List Byte) (index : Nat) :
    decodeDispatch h rest index = decodeValue k h rest index := by
  cases k with
  | octetString | bitString => exact decodeDispatch_none (hk ▸ rfl) rest index
  | null | boolean | unsigned | signed | real | double | characterString | enumerated | date | time
  | objectIdentifier => exact decodeDispatch_some (hk ▸ rfl) rest index

theorem kindOf_eq_none {t : Nat} (ht : ∀ k, hw.apptag k ≠ t) : hw.kindOf t = none := by
  refine List.find?_eq_none.2 fun k _ => ?_
  simp only [beq_eq_false_iff_ne.2 (ht k), Bool.and_false]
  decide

theorem decodesKind_of_dispatch (hexec : exec i s = .next (s.decCommand f)) (hs : DecReady s)
    (hn : h.n ≤ unreadCount s) (hf : f s.unread s.rpos.toNat
      = decodeDispatch h (inputAt s h.n (unreadCount s - h.n)) (s.rpos.toNat + h.n)) :
    (∀ k, hw.apptag k = h.t → DecodesKind i s k h.t h.c h.L h.n)
    ∧ ((∀ k, hw.apptag k ≠ h.t) → Answers i s (RaisedDec .unsupportedTag s)) :=
  ⟨fun _ hk => decodesKind_of_value hexec hs hn (hf.trans (decodeDispatch_apptag hk _ _)),
    fun ht => answers_raised hexec hs (hf.trans (decodeDispatch_none (kindOf_eq_none ht) _ _))⟩

/-! ## The length part of a header in the input buffer (R113) -/

theorem decLenExt_inline {lv : BitVec 3} (h : lv.toNat ≠ 5) (rest : List Byte) :
    decLenExt lv rest = .ok (lv.toNat, 0) :=
  if_neg fun hlv => h (congrArg BitVec.toNat hlv)

theorem decLenExt_one {m : Byte} (h : m.toNat < 0xFE) (more : List Byte) :
    decLenExt 5 (m :: more) = .ok (m.toNat, 1) := by
  have hFE : m ≠ 0xFE := fun hm => absurd h (hm ▸ by decide)
  have hFF : m ≠ 0xFF := fun hm => absurd h (hm ▸ by decide)
  simp only [decLenExt, hFE, hFF, if_true, if_false]

theorem decLenExt_two (more : List Byte) :
    decLenExt 5 (0xFE :: more)
      = if more.length < 2 then .error .malformedTag else .ok (beVal (more.take 2), 3) := rfl

theorem decLenExt_four (more : List Byte) :
    decLenExt 5 (0xFF :: more)
      = if more.length < 4 then .error .malformedTag else .ok (beVal (more.take 4), 5) := rfl

theorem decLenExt_field {lv : BitVec 3} {off L m : Nat} (hlen : LengthField s off lv.toNat L m) :
    decLenExt lv (inputAt s off (unreadCount s - off)) = .ok (L, m) := by
  obtain ⟨hle, ⟨hlv, rfl, rfl⟩ | ⟨hlv, hoct, rfl, rfl⟩ | ⟨hlv, hoct, rfl, rfl⟩ | ⟨hlv, hoct, rfl, rfl⟩⟩ := hlen
  · exact decLenExt_inline hlv _
  all_goals
    obtain rfl : lv = 5 := BitVec.eq_of_toNat_eq hlv
    rw [inputAt_pos s (by omega)]
  · exact decLenExt_one hoct _
  · rw [hoct, decLenExt_two, if_neg (by rw [inputAt_length]; omega), inputAt_take s (by omega)]
  · rw [hoct, decLenExt_four, if_neg (by rw [inputAt_length]; omega), inputAt_take s (by omega)]

theorem decLenExt_cut {lv : BitVec 3} {off : Nat} (hlen : LengthCut s off lv.toNat) :
    decLenExt lv (inputAt s off (unreadCount s - off)) = .error .malformedTag := by
  obtain ⟨hlv, hcut⟩ := hlen
  obtain rfl : lv = 5 := BitVec.eq_of_toNat_eq hlv
  obtain hnone | hsome := Nat.eq_zero_or_pos (unreadCount s - off)
  · rw [hnone]
    rfl
  · rw [inputAt_pos s hsome]
    obtain hcut | ⟨hoct, hcut⟩ | ⟨hoct, hcut⟩ := hcut
    · omega
    · rw [hoct, decLenExt_two, if_pos (by rw [inputAt_length]; omega)]
    · rw [hoct, decLenExt_four, if_pos (by rw [inputAt_length]; omega)]

end

/-- The rest of a header at `off`, in a block that holds no DEC command back: malformed where the length extension is
cut, and else the dispatch on the header that it completes (R113, R195). -/
theorem decodesKind_of_fromLength {i : Instr} {s : State} {f : List Byte → Nat → Except Status Decoded} {t off : Nat}
    {c : Bool} {lv : BitVec 3} (hexec : exec i s = .next (s.decCommand f)) (hs : DecReady s)
    (hf : f s.unread s.rpos.toNat
      = decodeFromLength t c off lv (inputAt s off (unreadCount s - off)) (s.rpos.toNat + off)) :
    (LengthCut s off lv.toNat → Answers i s (RaisedDec .malformedTag s))
    ∧ ∀ L m, LengthField s off lv.toNat L m →
      (∀ k, hw.apptag k = t → DecodesKind i s k t c L (off + m))
      ∧ ((∀ k, hw.apptag k ≠ t) → Answers i s (RaisedDec .unsupportedTag s)) := by
  refine ⟨fun hcut => answers_raised hexec hs ?_, fun L m hfield => ?_⟩
  · rw [hf, decodeFromLength_error (decLenExt_cut hcut)]
  · have hle := hfield.1
    refine decodesKind_of_dispatch (h := ⟨t, c, L, off + m⟩) hexec hs hle ?_
    rw [hf, decodeFromLength_ok (decLenExt_field hfield), inputAt_drop s (by omega), Nat.sub_sub, Nat.add_assoc]

/-- A row as a command of class DEC: it has no first octet where none is unread, and else goes on from its parts. -/
theorem exec_row_decCommand {i : Instr} {nibble lv : Nat} {c : Bool} (h : rowParts i = some (nibble, c, lv))
    (s : State) :
    ∃ f, exec i s = .next (s.decCommand f) ∧ (unreadCount s = 0 → f s.unread s.rpos.toNat = .error .insufficientBytes)
      ∧ (1 ≤ unreadCount s → ∃ l : BitVec 3, l.toNat = lv
        ∧ f s.unread s.rpos.toNat = decodeRow nibble c l (inputAt s 1 (unreadCount s - 1)) (s.rpos.toNat + 1)) := by
  obtain ⟨l, hl, hrow⟩ := exec_row h
  refine ⟨_, hrow s, fun hnone => ?_, fun hsome => ⟨l, hl, ?_⟩⟩
  · rw [unread_eq_inputAt, hnone]
    rfl
  · rw [unread_eq_cons hsome]

/-- The row `TAG.EXT` takes its tag number from the second octet, unless that is the reserved number 255. -/
theorem decodeRow_ext_inputAt {s : State} (h : 2 ≤ unreadCount s) (htag : octetAt s 1 ≠ 255) (c : Bool)
    (lv : BitVec 3) :
    decodeRow 15 c lv (inputAt s 1 (unreadCount s - 1)) (s.rpos.toNat + 1)
      = decodeFromLength (octetAt s 1).toNat c 2 lv (inputAt s 2 (unreadCount s - 2)) (s.rpos.toNat + 2) := by
  have hle : (octetAt s 1).toNat ≤ hw.tagMax := by
    have hne : (octetAt s 1).toNat ≠ 255 := fun h => htag (BitVec.eq_of_toNat_eq h)
    have hlt := (octetAt s 1).isLt
    rw [hw_tagMax]
    omega
  rw [inputAt_pos s (by omega), decodeRow_ext hle, Nat.sub_sub]

/-- Settles O53: a row goes on from its parts (`exec_row`), and the rest of its header decides (R113). -/
theorem wireRowsDecodeTheirPayload : Obligations.WireRowsDecodeTheirPayload := by
  intro i nibble c lv s hparts hs
  obtain ⟨f, hexec, hnone, hsome⟩ := exec_row_decCommand hparts s
  refine ⟨fun h => answers_raised hexec hs (hnone h), fun hne h => ?_, fun L m hne h => ?_, fun heq h => ?_,
    fun L m heq h => ?_⟩
  · obtain ⟨l, rfl, hf⟩ := hsome h
    exact (decodesKind_of_fromLength hexec hs (hf.trans (by rw [decodeRow_inline hne]))).1
  · obtain ⟨l, rfl, hf⟩ := hsome h
    exact (decodesKind_of_fromLength hexec hs (hf.trans (by rw [decodeRow_inline hne]))).2 L m
  · obtain ⟨l, rfl, hf⟩ := hsome h
    subst heq
    intro hmalformed
    obtain hone | htwo := Nat.eq_or_lt_of_le h
    · exact answers_raised hexec hs (hf.trans (by rw [← hone]; exact decodeRow_cut c l _))
    obtain hreserved | htag := eq_or_ne (octetAt s 1) 255
    · refine answers_raised hexec hs (hf.trans ?_)
      rw [inputAt_pos s (by omega), hreserved, decodeRow_reserved (by decide)]
    · obtain hone | hreserved | hcut := hmalformed
      · omega
      · exact absurd hreserved htag
      · exact (decodesKind_of_fromLength hexec hs (hf.trans (decodeRow_ext_inputAt htwo htag c l))).1 hcut
  · obtain ⟨l, rfl, hf⟩ := hsome (by omega)
    subst heq
    intro htag
    exact (decodesKind_of_fromLength hexec hs (hf.trans (decodeRow_ext_inputAt h htag c l))).2 L m

end Sys2Proof.Machine

namespace Sys2Proof.Machine

open Safety

/-! ## Runs of commands that append (R54, R56) -/

theorem encReady_appended {s : State} (hs : EncReady s) (em : Emission) : EncReady (s.appended em) :=
  ⟨hs.halt, hs.werr, Memory.writeAll_wf _ _ hs.obuf⟩

theorem appendedByRun_refl (s : State) : AppendedByRun [] s s :=
  ⟨by simp, rfl, rfl, ⟨fun _ => rfl, rfl, rfl, rfl⟩, ⟨rfl, rfl⟩⟩

theorem appendedByRun_trans {s t u : State} {out out' : List Byte} (hst : AppendedByRun out s t)
    (htu : AppendedByRun out' t u) : AppendedByRun (out ++ out') s u where
  output := by rw [htu.output, hst.output, List.append_assoc]
  wpos := by rw [htu.wpos, hst.wpos, List.length_append, Nat.add_assoc]
  werr := htu.werr.trans hst.werr
  dec := ⟨fun a => (htu.dec.ibuf a).trans (hst.dec.ibuf a), htu.dec.ilen.trans hst.dec.ilen,
    htu.dec.rpos.trans hst.dec.rpos, htu.dec.rerr.trans hst.dec.rerr⟩
  control := ⟨htu.control.halt.trans hst.control.halt, htu.control.stream.trans hst.control.stream⟩

theorem appendedByRun_appended {s : State} (hs : EncReady s) {em : Emission} (hfits : Fits em.out s) :
    AppendedByRun em.out s (s.appended em) :=
  ⟨output_appended hs.obuf hfits, State.appended_wpos_toNat hfits, rfl, ⟨fun _ => rfl, rfl, rfl, rfl⟩, ⟨rfl, rfl⟩⟩

/-- The operands of a command of class ENC fix the octets it has to append. -/
def EmitsOctets (i : Instr) (out : List Byte) : Prop :=
  ∃ res, ∀ s, exec i s = .next (s.encCommand hw (.ok { out := out, res := res }))

/-- Commands that append `out` together, from every ready state with room for it. -/
def RunAppends (is : List Instr) (out : List Byte) : Prop :=
  ∀ s, EncReady s → Fits out s → ∃ t, runCommands is s = some t ∧ AppendedByRun out s t

theorem runAppends_nil : RunAppends [] [] := fun s _ _ => ⟨s, rfl, appendedByRun_refl s⟩

theorem runAppends_cons {i : Instr} {front out : List Byte} (hi : EmitsOctets i front) {is : List Instr}
    (his : RunAppends is out) : RunAppends (i :: is) (front ++ out) := by
  intro s hs hfits
  obtain ⟨res, hexec⟩ := hi
  rw [Fits, List.length_append] at hfits
  have hfront : Fits front s := by rw [Fits]; omega
  have happended : AppendedByRun front s (s.appended ⟨front, res⟩) :=
    appendedByRun_appended (em := ⟨front, res⟩) hs hfront
  have hout : Fits out (s.appended ⟨front, res⟩) := by rw [Fits, happended.wpos]; omega
  obtain ⟨t, hrun, ht⟩ := his _ (encReady_appended hs _) hout
  refine ⟨t, ?_, appendedByRun_trans happended ht⟩
  rw [runCommands, hexec, State.encCommand_ok hs.halt hs.werr, State.append_fits (em := ⟨front, res⟩) hfront]
  exact hrun

/-! ## Context-tagged values (R87) -/

/-- The header of a pseudo-instruction: class bit 1 and any tag number but the reserved one. -/
theorem encTag_emits {tn : Byte} (htn : tn ≠ 255) (lv : Word) :
    EmitsOctets (.encTag tn 1 lv) (encTag tn.toNat true lv.toNat) := by
  have hlegal : ¬ (tn.toNat > hw.tagMax ∨ reservedBits71 1 = true) := by
    rintro (hmax | hreserved)
    · have hne : tn.toNat ≠ 255 := fun h => htn (BitVec.eq_of_toNat_eq h)
      have hlt := tn.isLt
      rw [hw_tagMax] at hmax
      omega
    · exact absurd hreserved (by decide)
  exact ⟨_, fun s => congrArg (fun r => Host.Outcome.next (s.encCommand hw r)) (if_neg hlegal)⟩

/-- A context-specific header and the payload behind it. -/
theorem runAppends_context {tn : Byte} (htn : tn ≠ 255) {L : Nat} (hL : L < 2 ^ 32) {i : Instr} {out : List Byte}
    (hi : EmitsOctets i out) :
    RunAppends [.encTag tn 1 (BitVec.ofNat 32 L), i] (encTag tn.toNat true L ++ out) := by
  have hrun := runAppends_cons (encTag_emits htn (BitVec.ofNat 32 L)) (runAppends_cons hi runAppends_nil)
  rwa [List.append_nil, BitVec.toNat_ofNat, Nat.mod_eq_of_lt hL] at hrun

theorem ulen_le (v : Nat) : ulen v ≤ 4 := by
  unfold ulen
  split_ifs <;> omega

theorem slen_le (v : Int) : slen v ≤ 4 := by
  unfold slen
  split_ifs <;> omega

theorem signedReading_eq_toInt (v : Word) : signedReading v = v.toInt := by
  rw [signedReading, BitVec.toInt_eq_toNat_cond]
  split_ifs <;> omega

/-- The signed payload is made of the low-order octets of the operand (R133). -/
theorem encSint_signedReading (v : Word) : encSint (signedReading v) = be v.toNat (slen v.toInt) := by
  have hbits : (v.toInt % 2 ^ 32).toNat = v.toNat := by
    rw [BitVec.toInt_eq_toNat_cond]
    split_ifs <;> omega
  rw [encSint, signedReading_eq_toInt, hbits]

/-- Operands within their fields are packed side by side (R163). -/
theorem oidPayload_ok {type : Half} {inst : Word} (htype : type.toNat ≤ 1023) (hinst : inst.toNat ≤ 4194303) :
    oidPayload hw type inst = .ok (be (type.toNat * 2 ^ 22 + inst.toNat) 4) := by
  have hword : oidWord hw type inst = .ok (BitVec.ofNat 32 (type.toNat * 2 ^ 22 + inst.toNat)) := by
    rw [oidWord, if_neg (by rw [hw_objTypeW, hw_objInstW]; omega), hw_objInstW,
      ← Nat.shiftLeft_add_eq_or_of_lt (by omega), Nat.shiftLeft_eq]
  simp only [oidPayload, hword]
  rw [BitVec.toNat_ofNat, Nat.mod_eq_of_lt (by omega)]

theorem encUint_emits (v : Word) : EmitsOctets (.encUint v) (be v.toNat (ulen v.toNat)) := ⟨_, fun _ => rfl⟩

theorem encSint_emits (v : Word) : EmitsOctets (.encSint v) (be v.toNat (slen v.toInt)) :=
  encSint_signedReading v ▸ ⟨_, fun _ => rfl⟩

theorem encReal_emits (v : Word) : EmitsOctets (.encReal v) (be v.toNat 4) := ⟨_, fun _ => rfl⟩

theorem encStr_emits (data : List Byte) : EmitsOctets (.encStr data) data := ⟨_, fun _ => rfl⟩

theorem encOid_emits {type : Half} {inst : Word} (htype : type.toNat ≤ 1023) (hinst : inst.toNat ≤ 4194303) :
    EmitsOctets (.encOid type inst) (be (type.toNat * 2 ^ 22 + inst.toNat) 4) :=
  ⟨_, fun s => congrArg (fun p => Host.Outcome.next (s.encCommand hw (emitBody p (oidResult hw type inst))))
    (oidPayload_ok htype hinst)⟩

/-- Settles O60: each pseudo-instruction is a header and a payload command, which append one after the other. -/
theorem pseudoInstructionsAppendTheirParts : Obligations.PseudoInstructionsAppendTheirParts := by
  refine ⟨fun tn s is out hs htn hpseudo => ?_, fun _ => ⟨rfl, rfl, rfl, rfl⟩⟩
  suffices hrun : RunAppends is out from hrun s hs
  obtain ⟨v, rfl | rfl, rfl⟩ | ⟨v, rfl, rfl⟩ | ⟨v, rfl, rfl⟩ | ⟨type, inst, rfl, htype, hinst, rfl⟩
    | ⟨data, rfl, hlen, rfl⟩ := hpseudo
  · exact runAppends_context htn ((ulen_le _).trans_lt (by decide)) (encUint_emits v)
  · exact runAppends_context htn ((ulen_le _).trans_lt (by decide)) (encUint_emits v)
  · rw [ctxSint, signedReading_eq_toInt]
    exact runAppends_context htn ((slen_le _).trans_lt (by decide)) (encSint_emits v)
  · exact runAppends_context htn (by decide) (encReal_emits v)
  · exact runAppends_context htn (by decide) (encOid_emits htype hinst)
  · exact runAppends_context htn hlen (encStr_emits data)

end Sys2Proof.Machine
end

section
/-! PROOFS. The family of spec/40_buffer_ops.md: the buffer management commands `NOP`, `OCLR`, `ICLR` and `ILOAD` (R100 to
R103), and the host actions that read the buffers and push commands (R104, R105, R107).

That a command in pieces waits for its last octet rests on one law of the parser: what it has decided about the front of
a stream, a complete command or a reserved opcode, further octets do not change. -/

namespace Sys2Proof

open Machine Safety

/-! ## No format of R81 answers that an opcode is reserved -/

theorem parseData_ne_reserved (f : List Byte → Instr) (len : Nat) (bs : List Byte) (op : Byte) :
    parseData f len bs ≠ .reserved op := by
  unfold parseData
  split <;> exact nofun

theorem parseS_ne_reserved (f : List Byte → Instr) (op : Byte) : ∀ r, parseS f r ≠ .reserved op
  | _ :: _ :: _ :: _ :: _ => parseData_ne_reserved f _ _ op
  | [] | [_] | [_, _] | [_, _, _] => nofun

theorem parseL_ne_reserved (f : List Byte → Instr) (op : Byte) : ∀ r, parseL f r ≠ .reserved op
  | _ :: _ :: _ => parseData_ne_reserved f _ _ op
  | [] | [_] => nofun

theorem parseNSource_ne_reserved (f : Half → List Byte → Instr) (op : Byte) : ∀ r, parseNSource f r ≠ .reserved op
  | _ :: _ :: _ :: _ => parseData_ne_reserved (f _) _ _ op
  | [] | [_] | [_, _] => nofun

theorem parseN_ne_reserved (f : Byte → Byte → Byte → Half → Half → List Byte → Half → List Byte → Instr) (op : Byte)
    (r : List Byte) : parseN f r ≠ .reserved op := by
  unfold parseN
  split
  · split
    · exact nofun
    · exact parseNSource_ne_reserved _ op _
  · exact nofun

theorem Front.length_of_reserved {bs : List Byte} {len : Option Nat} {op : Byte} (h : Front bs len (.reserved op)) :
    len = none := by
  cases h
  rfl

/-- Only an opcode without a row is answered as reserved. A format without a length field has a length at once, which a
reserved opcode has not; the formats that count octets answer a command or wait. -/
theorem reservedOpcode_of_parseOpcode {op op' : Byte} {r : List Byte} (h : parseOpcode op r = .reserved op') :
    ReservedOpcode op ∧ op' = op := by
  have hlen : commandLength (op :: r) = none := (h ▸ front_opcode op r).length_of_reserved
  unfold parseOpcode at h
  split at h
  case h_39 =>
    refine ⟨reservedOpcode_of_decode op ?_, (Parsed.reserved.inj h).symm⟩
    simp only [decode, parseOpcode]
  case h_4 => exact absurd h (parseL_ne_reserved _ _ r)
  case h_11 | h_29 | h_30 | h_31 => exact absurd h (parseS_ne_reserved _ _ r)
  case h_37 => exact absurd h (parseN_ne_reserved _ _ r)
  all_goals
    obtain rfl := opcode_eq ‹op.toNat = _›
    cases hlen

/-! ## Further octets do not change what the parser has decided (R80, R107) -/

theorem decode_append_of_done {bs rest : List Byte} {i : Instr} (h : decode bs = .done i rest) (more : List Byte) :
    decode (bs ++ more) = .done i (rest ++ more) := by
  obtain ⟨rfl, hwf, hcmd⟩ := encodeWritesBackEveryDecodedCommand bs i rest h
  rw [List.append_assoc]
  exact decodeReadsBackEveryEncodedCommand i (rest ++ more) hcmd hwf

theorem decode_append_of_reserved : ∀ {bs : List Byte} {op : Byte}, decode bs = .reserved op →
    ∀ more, decode (bs ++ more) = .reserved op
  | _ :: r, _, h, more => by
    obtain ⟨hop, rfl⟩ := reservedOpcode_of_parseOpcode h
    exact parseOpcode_reserved hop (r ++ more)

/-- The front of a command whose last octets are missing is not decided: a decision there would be the decision on the
whole encoding, which is the command with nothing after it. -/
theorem decode_part {i : Instr} {front back : List Byte} (hcmd : i.isWireTag = false) (hwf : i.wellFormed = true)
    (hsplit : encode i = front ++ back) (hback : back ≠ []) : decode front = .wait := by
  have hwhole : decode (front ++ back) = .done i [] := by
    rw [← hsplit, ← List.append_nil (encode i)]
    exact decodeReadsBackEveryEncodedCommand i [] hcmd hwf
  cases hd : decode front with
  | wait => rfl
  | done j rest =>
    obtain ⟨-, hnil⟩ := Parsed.done.inj (hwhole.symm.trans (decode_append_of_done hd back))
    exact absurd (List.append_eq_nil_iff.1 hnil.symm).2 hback
  | reserved op => exact nomatch hwhole.symm.trans (decode_append_of_reserved hd back)

/-! ## Pushing octets (R107) -/

theorem pushCmd_halted {s : State} (h : s.halt = true) (bs : List Byte) : s.pushCmd bs = s := if_pos h

theorem pushCmd_running {s : State} (h : s.halt = false) (bs : List Byte) :
    s.pushCmd bs = s.setStream (s.stream ++ bs) :=
  if_neg (by simp [h])

/-- Settles O8: the front of a command is not decided (`decode_part`), and with its last octets it is the whole
encoding, which the parser reads back. -/
theorem pushedPiecesFormACommand : Obligations.PushedPiecesFormACommand := by
  refine ⟨fun s bs h => pushCmd_running h bs, fun s bs h => pushCmd_halted h bs, ?_⟩
  intro s i front back rest hcmd hwf hsplit hback h hstream
  have hpart : decode s.stream = .wait := hstream ▸ decode_part hcmd hwf hsplit hback
  refine ⟨step_wait h hpart, ?_⟩
  have hwhole : decode (s.stream ++ (back ++ rest)) = .done i rest := by
    rw [hstream, ← List.append_assoc, ← hsplit]
    exact decodeReadsBackEveryEncodedCommand i rest hcmd hwf
  rw [pushCmd_running h]
  exact step_done (s := s.setStream (s.stream ++ (back ++ rest))) h hwhole

end Sys2Proof

namespace Sys2Proof.Machine

open Safety

/-! ## The commands that empty or replace a buffer (R101 to R103), in a block that is not halted -/

section

variable {s : State}

theorem exec_oclr (h : s.halt = false) : exec .oclr s = .next s.clearOut :=
  congrArg Host.Outcome.next (State.prologue_neutral h _)

theorem exec_iclr (h : s.halt = false) : exec .iclr s = .next s.clearIn :=
  congrArg Host.Outcome.next (State.prologue_neutral h _)

theorem exec_iload (h : s.halt = false) (data : List Byte) : exec (.iload data) s = .next (s.loadIn hw data) :=
  congrArg Host.Outcome.next (State.prologue_neutral h _)

/-- Data that fits is read back from the input buffer, which is as long as the data. -/
theorem loadIn_fits {data : List Byte} (hwf : Memory.wf s.ibuf = true) (hfits : data.length ≤ hw.ibufCap) :
    (∀ k (h : k < data.length), Memory.read (s.loadIn hw data).ibuf k = data[k])
    ∧ (s.loadIn hw data).ilen.toNat = data.length ∧ (s.loadIn hw data).rpos = 0 ∧ (s.loadIn hw data).rerr = 0
    ∧ results (s.loadIn hw data) = { rn := BitVec.ofNat 32 data.length }
    ∧ SameEncodeHalf s (s.loadIn hw data) ∧ SameControl s (s.loadIn hw data) := by
  obtain ⟨hover, -⟩ | ⟨-, heq⟩ := State.loadIn_cases hw s data
  · omega
  rw [heq]
  refine ⟨fun k hk => ?_, ?_, rfl, rfl, rfl, ⟨fun _ => rfl, rfl, rfl⟩, ⟨rfl, rfl⟩⟩
  · simpa using Memory.read_writeAll_same 0 data hwf k hk
  · rw [hw_ibufCap] at hfits
    rw [State.setDec_ilen, BitVec.toNat_ofNat, Nat.mod_eq_of_lt (by omega)]

/-- Data that does not fit leaves the decode half empty and latched. -/
theorem loadIn_overflow {data : List Byte} (hover : hw.ibufCap < data.length) :
    s.loadIn hw data = (s.report 6).setDec s.ibuf 0 0 6 := by
  obtain ⟨-, heq⟩ | ⟨hfits, -⟩ := State.loadIn_cases hw s data
  · exact heq
  · omega

end

/-- Settles O29: the length field counts the data, and the load is the one of the two cases of R103 that the capacity
selects. -/
theorem iloadReplacesTheInput : Obligations.IloadReplacesTheInput := by
  refine ⟨fun a b data rest hlen => ?_, fun _ => rfl, fun s data h hwf => ⟨fun hfits => ?_, fun hover => ?_⟩⟩
  · have hdata := parseData_append .iload data rest
    rwa [hlen] at hdata
  · exact ⟨_, exec_iload h data, loadIn_fits hwf hfits⟩
  · refine ⟨_, exec_iload h data, ?_⟩
    rw [loadIn_overflow hover]
    exact ⟨rfl, rfl, rfl, rfl, ⟨fun _ => rfl, rfl, rfl⟩, ⟨rfl, rfl⟩⟩

/-- Settles O28: `NOP` answers every state, `OCLR` and `ICLR` their pseudocode, which consults no sticky error. -/
theorem nopAndClearCommandsAnswer : Obligations.NopAndClearCommandsAnswer := by
  refine ⟨fun _ => rfl, fun _ => rfl, fun _ => rfl, ⟨rfl, rfl, rfl⟩, fun s => ⟨s, exec_nop s, rfl⟩,
    fun s h => ⟨_, exec_oclr h, ?_⟩, fun s h => ⟨_, exec_iclr h, ?_⟩⟩
  · exact ⟨rfl, rfl, rfl, fun _ => rfl, ⟨fun _ => rfl, rfl, rfl, rfl⟩, ⟨rfl, rfl⟩⟩
  · exact ⟨rfl, rfl, rfl, rfl, ⟨fun _ => rfl, rfl, rfl⟩, ⟨rfl, rfl⟩⟩

/-! ## What the host reads (R104, R105) -/

section

variable {s : State}

theorem readOut_refused (h : s.werr ≠ 0) : s.readOut = none := if_neg h

theorem readOut_answers (h : s.werr = 0) : s.readOut = some (Memory.readAll s.obuf 0 s.wpos.toNat) := if_pos h

theorem peekIn_refused {off n : Nat} (h : s.ilen.toNat < off + n) : s.peekIn off n = none := if_neg (Nat.not_le.2 h)

theorem peekIn_answers {off n : Nat} (h : off + n ≤ s.ilen.toNat) :
    s.peekIn off n = some (Memory.readAll s.ibuf off n) := if_pos h

end

/-- Settles O13: what is answered is a string read of the buffer, octet for octet. -/
theorem hostReadsAnswerTheDefinedRegions : Obligations.HostReadsAnswerTheDefinedRegions := by
  refine fun s => ⟨readOut_refused, fun h => ⟨_, readOut_answers h, Memory.readAll_length .., fun k hk => ?_⟩,
    fun off n => ⟨peekIn_refused, fun h => ⟨_, peekIn_answers h, Memory.readAll_length .., fun k hk => ?_⟩⟩⟩
  · rw [Memory.readAll_getElem, Nat.zero_add]
  · exact Memory.readAll_getElem s.ibuf off n k hk

end Sys2Proof.Machine
end

section
/-! PROOFS. The family of spec/41_tag_header.md: the header codec is a round trip from the fields (R115), `DEC_TAG` reports
the header at the cursor (R113, R114), and `ENC_TAG` appends the header of its operands (R111, R112).

The two forms of a header, with the tag number in the first octet or in an octet of its own, share the length extension:
each statement about headers is one about the extension (`decLenExt`), carried through one equation of `decTag` per
form. -/

namespace Sys2Proof.Machine

open Safety

/-! ## `decTag`, form by form (R113) -/

section

variable {cfg : Config} {b t : Byte} {r : List Byte} {L m : Nat} {e : Status}

theorem decTag_inline_ok (hb : headNibble b ≠ 15) (hlen : decLenExt (headLv b) r = .ok (L, m)) :
    decTag cfg (b :: r) = .ok { t := headNibble b, c := headClass b, L := L, n := 1 + m } := by
  simp only [decTag, if_neg hb, hlen]

theorem decTag_inline_error (hb : headNibble b ≠ 15) (hlen : decLenExt (headLv b) r = .error e) :
    decTag cfg (b :: r) = .error e := by
  simp only [decTag, if_neg hb, hlen]

theorem decTag_ext_missing (hb : headNibble b = 15) : decTag cfg [b] = .error .malformedTag := by
  simp only [decTag, if_pos hb]

theorem decTag_ext_reserved (hb : headNibble b = 15) (ht : cfg.tagMax < t.toNat) :
    decTag cfg (b :: t :: r) = .error .malformedTag := by
  simp only [decTag, if_pos hb, gt_iff_lt, if_pos ht]

theorem decTag_ext_ok (hb : headNibble b = 15) (ht : t.toNat ≤ cfg.tagMax)
    (hlen : decLenExt (headLv b) r = .ok (L, m)) :
    decTag cfg (b :: t :: r) = .ok { t := t.toNat, c := headClass b, L := L, n := 2 + m } := by
  simp only [decTag, if_pos hb, gt_iff_lt, if_neg (Nat.not_lt.2 ht), hlen]

theorem decTag_ext_error (hb : headNibble b = 15) (ht : t.toNat ≤ cfg.tagMax)
    (hlen : decLenExt (headLv b) r = .error e) : decTag cfg (b :: t :: r) = .error e := by
  simp only [decTag, if_pos hb, gt_iff_lt, if_neg (Nat.not_lt.2 ht), hlen]

end

/-! ## Decoding an encoded header (R115) -/

/-- The `lv` bits that announce the length extension of `encLenExt` (R110): the length itself, or 5. -/
def lengthMark (L : Nat) : BitVec 3 := BitVec.ofNat 3 (min L 5)

theorem lengthMark_toNat (L : Nat) : (lengthMark L).toNat = min L 5 := by
  rw [lengthMark, BitVec.toNat_ofNat, Nat.mod_eq_of_lt (by omega)]

theorem lengthMark_of_ge {L : Nat} (h : 5 ≤ L) : lengthMark L = 5 := by
  rw [lengthMark, Nat.min_eq_right h]
  rfl

theorem encTag_eq_headOctet (t : Nat) (c : Bool) (L : Nat) :
    encTag t c L = headOctet (if t < 15 then t else 15) c (lengthMark L).toNat
      :: ((if t < 15 then [] else [BitVec.ofNat 8 t]) ++ encLenExt L) := by
  have hlo : (if L < 5 then L else 5) = min L 5 := by split <;> omega
  rw [encTag, hlo, lengthMark_toNat]

/-- The length extension is read back whatever follows it: its form is chosen by the length, and each form is recognised
by the marker of R72 in front of it. -/
theorem decLenExt_encLenExt {L : Nat} (hL : L < 2 ^ 32) (rest : List Byte) :
    decLenExt (lengthMark L) (encLenExt L ++ rest) = .ok (L, (encLenExt L).length) := by
  obtain hinline | hlong := Nat.lt_or_ge L 5
  · have hmark : (lengthMark L).toNat = L := by rw [lengthMark_toNat]; omega
    rw [decLenExt_inline (by omega), hmark, encLenExt_inline (by omega)]
    rfl
  rw [lengthMark_of_ge hlong, encLenExt, if_neg (Nat.not_lt.2 hlong)]
  obtain hone | hlong := Nat.lt_or_ge L 254
  · have hoctet : (BitVec.ofNat 8 L).toNat = L := by rw [BitVec.toNat_ofNat, Nat.mod_eq_of_lt (by omega)]
    rw [if_pos hone, List.singleton_append, decLenExt_one (by omega), hoctet]
    rfl
  rw [if_neg (Nat.not_lt.2 hlong)]
  obtain htwo | hlong := Nat.lt_or_ge L 65536
  · rw [if_pos htwo, List.cons_append, decLenExt_two, if_neg (by simp; omega), List.take_left' (be_length L 2),
      beVal_be_of_lt htwo]
    rfl
  · rw [if_neg (Nat.not_lt.2 hlong), List.cons_append, decLenExt_four, if_neg (by simp),
      List.take_left' (be_length L 4), beVal_be_of_lt hL]
    rfl

/-- `decTag` of `encTag` gives the fields and the length back, for any record whose greatest tag number is R7's. -/
theorem decTag_encTag {cfg : Config} (hmax : cfg.tagMax = 254) {t : Nat} (ht : t ≤ 254) (c : Bool) {L : Nat}
    (hL : L < 2 ^ 32) (rest : List Byte) :
    decTag cfg (encTag t c L ++ rest) = .ok { t := t, c := c, L := L, n := (encTag t c L).length } := by
  have hext := decLenExt_encLenExt hL rest
  rw [encTag_eq_headOctet]
  obtain hinline | hlong := Nat.lt_or_ge t 15
  · have hnibble := headNibble_headOctet (n := t) (by omega) c (lengthMark L)
    have hclass := headClass_headOctet (n := t) (by omega) c (lengthMark L)
    have hlv := headLv_headOctet (n := t) (by omega) c (lengthMark L)
    simp only [if_pos hinline, List.nil_append, List.cons_append, List.length_cons]
    rw [decTag_inline_ok (by omega) (hlv.symm ▸ hext), hnibble, hclass, Nat.add_comm]
  · have hnibble := headNibble_headOctet (n := 15) (by omega) c (lengthMark L)
    have hclass := headClass_headOctet (n := 15) (by omega) c (lengthMark L)
    have hlv := headLv_headOctet (n := 15) (by omega) c (lengthMark L)
    have hoctet : (BitVec.ofNat 8 t).toNat = t := by rw [BitVec.toNat_ofNat, Nat.mod_eq_of_lt (by omega)]
    simp only [if_neg (Nat.not_lt.2 hlong), List.nil_append, List.cons_append, List.length_cons]
    rw [decTag_ext_ok hnibble (by omega) (hlv.symm ▸ hext), hoctet, hclass, Nat.add_comm]

/-- Settles O33: the round trip is `decTag_encTag`; the converse fails for a length below 5 in an extension octet of its
own, which `encTag` writes into the first octet. -/
theorem tagHeadersRoundTrip : Obligations.TagHeadersRoundTrip :=
  ⟨fun _ hcfg _ c _ rest ht hL => decTag_encTag hcfg.tagMax ht c hL rest,
    [0x25, 0x01], { t := 2, c := false, L := 1, n := 2 }, rfl, by decide⟩

/-! ## The header at the cursor (R113, R114) -/

theorem headLv_toNat (b : Byte) : (headLv b).toNat = b.toNat % 8 := by
  rw [headLv, BitVec.extractLsb'_toNat, Nat.shiftRight_zero]

/-- The reserved tag number is the only octet above the greatest one. -/
theorem tagMax_lt_iff (b : Byte) : hw.tagMax < b.toNat ↔ b = 255 := by
  have hlt := b.isLt
  rw [hw_tagMax, ← BitVec.toNat_inj, show (255 : Byte).toNat = 255 from rfl]
  omega

section

variable {s : State}

theorem unread_eq_nil (h : unreadCount s = 0) : s.unread = [] := by
  rw [unread_eq_inputAt, h]
  rfl

theorem unread_eq_cons_cons (h : 2 ≤ unreadCount s) :
    s.unread = octetAt s 0 :: octetAt s 1 :: inputAt s 2 (unreadCount s - 2) := by
  rw [unread_eq_cons (by omega), inputAt_pos s (by omega), Nat.sub_sub]

theorem decTag_of_headerCut (h : HeaderCut s) : decTag hw s.unread = .error .malformedTag := by
  unfold HeaderCut at h
  rw [← headNibble_eq, ← headLv_toNat] at h
  obtain ⟨hone, ⟨hnibble, hcut⟩ | ⟨hnibble, hext⟩⟩ := h
  · rw [unread_eq_cons hone]
    exact decTag_inline_error hnibble (decLenExt_cut hcut)
  obtain hshort | htwo := Nat.lt_or_ge (unreadCount s) 2
  · rw [unread_eq_cons hone, show unreadCount s - 1 = 0 by omega]
    exact decTag_ext_missing hnibble
  rw [unread_eq_cons_cons htwo]
  obtain hmax | htag := Nat.lt_or_ge hw.tagMax (octetAt s 1).toNat
  · exact decTag_ext_reserved hnibble hmax
  obtain hshort | hreserved | hcut := hext
  · omega
  · exact absurd ((tagMax_lt_iff _).2 hreserved) (Nat.not_lt.2 htag)
  · exact decTag_ext_error hnibble htag (decLenExt_cut hcut)

theorem decTag_of_headerAt {t : Nat} {c : Bool} {L n : Nat} (h : HeaderAt s t c L n) :
    decTag hw s.unread = .ok { t := t, c := c, L := L, n := n } := by
  unfold HeaderAt at h
  rw [← headNibble_eq, ← headLv_toNat] at h
  obtain ⟨hone, rfl, m, ⟨hnibble, rfl, rfl, hfield⟩ | ⟨hnibble, rfl, htag, rfl, hfield⟩⟩ := h
  · rw [unread_eq_cons hone]
    exact decTag_inline_ok hnibble (decLenExt_field hfield)
  · have hle : (octetAt s 1).toNat ≤ hw.tagMax :=
      Nat.not_lt.1 fun hmax => htag (congrArg BitVec.toNat ((tagMax_lt_iff _).1 hmax))
    rw [unread_eq_cons_cons (Nat.le_trans (Nat.le_add_right 2 m) hfield.1)]
    exact decTag_ext_ok hnibble hle (decLenExt_field hfield)

/-- A whole header is within the unread input. -/
theorem le_unreadCount_of_headerAt {t : Nat} {c : Bool} {L n : Nat} (h : HeaderAt s t c L n) : n ≤ unreadCount s := by
  obtain ⟨-, hle, -⟩ := decTag_ok (decTag_of_headerAt h)
  rwa [State.unread_length] at hle

/-- Behind the tag number, the length part is cut or whole: `lv` and the marker select one form, and its octets are there
or not. -/
theorem lengthCut_or_lengthField (s : State) {off : Nat} (hoff : off ≤ unreadCount s) (lv : Nat) :
    LengthCut s off lv ∨ ∃ L m, LengthField s off lv L m := by
  by_cases hlv : lv = 5
  · obtain hnone | hsome := Nat.lt_or_ge (unreadCount s) (off + 1)
    · exact .inl ⟨hlv, .inl hnone⟩
    by_cases hFE : octetAt s off = 0xFE
    · obtain hshort | hthere := Nat.lt_or_ge (unreadCount s) (off + 3)
      · exact .inl ⟨hlv, .inr (.inl ⟨hFE, hshort⟩)⟩
      · exact .inr ⟨_, _, hthere, .inr (.inr (.inl ⟨hlv, hFE, rfl, rfl⟩))⟩
    by_cases hFF : octetAt s off = 0xFF
    · obtain hshort | hthere := Nat.lt_or_ge (unreadCount s) (off + 5)
      · exact .inl ⟨hlv, .inr (.inr ⟨hFF, hshort⟩)⟩
      · exact .inr ⟨_, _, hthere, .inr (.inr (.inr ⟨hlv, hFF, rfl, rfl⟩))⟩
    · have hlow : (octetAt s off).toNat < 0xFE := by
        have hneFE : (octetAt s off).toNat ≠ 0xFE := fun h => hFE (BitVec.eq_of_toNat_eq h)
        have hneFF : (octetAt s off).toNat ≠ 0xFF := fun h => hFF (BitVec.eq_of_toNat_eq h)
        omega
      exact .inr ⟨_, _, hsome, .inr (.inl ⟨hlv, hlow, rfl, rfl⟩)⟩
  · exact .inr ⟨_, _, hoff, .inl ⟨hlv, rfl, rfl⟩⟩

/-- The input at the cursor is empty, a malformed header, or a whole one. -/
theorem header_cases (s : State) : unreadCount s = 0 ∨ HeaderCut s ∨ ∃ t c L n, HeaderAt s t c L n := by
  obtain hnone | hone := Nat.eq_zero_or_pos (unreadCount s)
  · exact .inl hnone
  right
  by_cases hnibble : (octetAt s 0).toNat / 16 = 15
  · obtain hshort | htwo := Nat.lt_or_ge (unreadCount s) 2
    · exact .inl ⟨hone, .inr ⟨hnibble, .inl hshort⟩⟩
    by_cases hreserved : octetAt s 1 = 255
    · exact .inl ⟨hone, .inr ⟨hnibble, .inr (.inl hreserved)⟩⟩
    obtain hcut | ⟨L, m, hfield⟩ := lengthCut_or_lengthField s htwo ((octetAt s 0).toNat % 8)
    · exact .inl ⟨hone, .inr ⟨hnibble, .inr (.inr hcut)⟩⟩
    · have htag : (octetAt s 1).toNat ≠ 255 := fun h => hreserved (BitVec.eq_of_toNat_eq h)
      exact .inr ⟨_, _, L, _, hone, rfl, m, .inr ⟨hnibble, rfl, htag, rfl, hfield⟩⟩
  · obtain hcut | ⟨L, m, hfield⟩ := lengthCut_or_lengthField s hone ((octetAt s 0).toNat % 8)
    · exact .inl ⟨hone, .inl ⟨hnibble, hcut⟩⟩
    · exact .inr ⟨_, _, L, _, hone, rfl, m, .inl ⟨hnibble, rfl, rfl, hfield⟩⟩

end

theorem exec_decTag (s : State) : exec .decTag s = .next (s.decCommand fun inp _ => readTag hw inp) := rfl

theorem readTag_error {cfg : Config} {inp : List Byte} {e : Status} (h : decTag cfg inp = .error e) :
    readTag cfg inp = .error e := by
  rw [readTag, h]

theorem readTag_ok {cfg : Config} {inp : List Byte} {h : Header} (hd : decTag cfg inp = .ok h) :
    readTag cfg inp
      = .ok { res := { rt := BitVec.ofNat 8 h.t, rc := h.c, rl := BitVec.ofNat 32 h.L }, n := h.n } := by
  rw [readTag, hd]

/-- Settles O34: `DEC_TAG` answers what `decTag` finds in the unread input, which is empty, a malformed header or a whole
one. -/
theorem decTagReportsTheHeader : Obligations.DecTagReportsTheHeader := by
  refine ⟨fun _ => rfl, rfl, fun s hs => ⟨fun hnone => ?_, fun hcut => ?_, fun t c L n hat => ?_, header_cases s⟩⟩
  · exact answers_raised (exec_decTag s) hs (readTag_error (by rw [unread_eq_nil hnone]; rfl))
  · exact answers_raised (exec_decTag s) hs (readTag_error (decTag_of_headerCut hcut))
  · exact answers_consumed (exec_decTag s) hs (readTag_ok (decTag_of_headerAt hat)) (le_unreadCount_of_headerAt hat)

/-! ## What a command of class ENC answers, from what its operands give (R54, R244) -/

theorem raisedEnc_raise (s : State) (e : Status) : RaisedEnc e s (s.raise .enc e) :=
  ⟨rfl, rfl, fun _ => rfl, rfl, ⟨fun _ => rfl, rfl, rfl, rfl⟩, ⟨rfl, rfl⟩⟩

/-- An emission that fits, from a canonical `OBUF`; the writer reports OK. -/
theorem appended_appended {s : State} (hobuf : Memory.wf s.obuf = true) {em : Emission} (hst : em.res.st = 0)
    (hfits : Fits em.out s) :
    Appended em.out { em.res with rn := BitVec.ofNat 32 em.out.length } s (s.appended em) where
  written := Memory.read_writeAll_same _ _ hobuf
  others _ ha := Memory.read_writeAll_other _ _ ha
  wpos := State.appended_wpos_toNat hfits
  werr := rfl
  results := congrArg (fun st => { em.res with st := st, rn := BitVec.ofNat 32 em.out.length }) hst.symm
  dec := ⟨fun _ => rfl, rfl, rfl, rfl⟩
  control := ⟨rfl, rfl⟩

section

variable {i : Instr} {s : State}

theorem answers_raisedEnc {e : Status} (hexec : exec i s = .next (s.encCommand hw (.error e))) (hs : EncReady s) :
    Answers i s (RaisedEnc e s) :=
  ⟨_, hexec, State.encCommand_error hs.halt hs.werr e ▸ raisedEnc_raise s e⟩

theorem emits_of_emission {em : Emission} (hexec : exec i s = .next (s.encCommand hw (.ok em))) (hs : EncReady s)
    (hst : em.res.st = 0) : Emits i s em.out em.res where
  fits hfits := by
    rw [State.encCommand_ok hs.halt hs.werr, State.append_fits hfits] at hexec
    exact ⟨_, hexec, appended_appended hs.obuf hst hfits⟩
  overflow hover := by
    rw [State.encCommand_ok hs.halt hs.werr, State.append_overflow (Nat.not_le.1 hover)] at hexec
    exact ⟨_, hexec, raisedEnc_raise s .bufferOverflow⟩

end

/-! ## `ENC_TAG` (R112) -/

theorem reservedBits71_iff (b : Byte) : reservedBits71 b = true ↔ 1 < b.toNat := by
  have hbits : (b.extractLsb' 1 7).toNat = b.toNat / 2 := by
    rw [BitVec.extractLsb'_toNat, Nat.shiftRight_eq_div_pow]
    omega
  rw [reservedBits71, bne_iff_ne, ne_eq, ← BitVec.toNat_inj, hbits, show (0 : BitVec 7).toNat = 0 from rfl]
  omega

theorem exec_encTag (tn flags : Byte) (lv : Word) (s : State) :
    exec (.encTag tn flags lv) s = .next (s.encCommand hw (emitTag hw tn flags lv)) := rfl

/-- The operands that `ENC_TAG` refuses. -/
theorem encTag_refusal_iff (tn flags : Byte) :
    tn.toNat > hw.tagMax ∨ reservedBits71 flags = true ↔ tn = 255 ∨ 1 < flags.toNat :=
  or_congr (tagMax_lt_iff tn) (reservedBits71_iff flags)

theorem emitTag_refused {tn flags : Byte} (h : tn = 255 ∨ 1 < flags.toNat) (lv : Word) :
    emitTag hw tn flags lv = .error .unsupportedValueType :=
  if_pos ((encTag_refusal_iff tn flags).2 h)

theorem emitTag_accepted {tn flags : Byte} (htn : tn ≠ 255) (hflags : flags.toNat ≤ 1) (lv : Word) :
    emitTag hw tn flags lv = .ok
      { out := encTag tn.toNat (flags.getLsbD 0) lv.toNat
        res := { rt := tn, rc := flags.getLsbD 0, rl := lv } } :=
  if_neg (mt (encTag_refusal_iff tn flags).1 (not_or.2 ⟨htn, Nat.not_lt.2 hflags⟩))

/-- Settles O31: the operands are refused or give a header, which the writer appends or not. -/
theorem encTagAppendsAHeader : Obligations.EncTagAppendsAHeader := by
  refine ⟨fun _ _ _ _ _ _ _ => rfl, fun _ _ _ => rfl, fun tn flags lv s hs => ⟨fun hrefused => ?_, fun htn hflags => ?_⟩⟩
  · exact answers_raisedEnc (emitTag_refused hrefused lv ▸ exec_encTag tn flags lv s) hs
  · exact emits_of_emission (emitTag_accepted htn hflags lv ▸ exec_encTag tn flags lv s) hs rfl

end Sys2Proof.Machine
end

section
/-! PROOFS. The family of spec/42_integers.md: the minimal lengths of R130 and R132 are the least that hold the
value, integers round-trip whatever follows them (R140), and what `ENC_UINT`, `ENC_SINT`, `DEC_UINT` and `DEC_SINT` do
(R136 to R139).

A minimal length is known by which counts it does not exceed: those whose range holds the value (`ulen_le_iff`,
`slen_le_iff`). -/

namespace Sys2Proof.Machine

open Safety

/-! ## The minimal lengths (R130, R132) -/

theorem one_le_ulen (v : Nat) : 1 ≤ ulen v := by
  unfold ulen
  split_ifs <;> omega

theorem one_le_slen (v : Int) : 1 ≤ slen v := by
  unfold slen
  split_ifs <;> omega

theorem ulen_le_iff {v n : Nat} (hv : v < 2 ^ 32) (hn : 1 ≤ n) : ulen v ≤ n ↔ v < 256 ^ n := by
  obtain hlt | hge := Nat.lt_or_ge n 4
  · unfold ulen
    interval_cases n <;> split_ifs <;> omega
  · have hpow : 256 ^ 4 ≤ 256 ^ n := Nat.pow_le_pow_right (by decide) hge
    exact iff_of_true ((ulen_le v).trans hge) (hv.trans_le hpow)

theorem slen_le_iff {v : Int} {n : Nat} (hlow : -2 ^ 31 ≤ v) (hhigh : v < 2 ^ 31) (hn : 1 ≤ n) :
    slen v ≤ n ↔ -2 ^ (8 * n - 1) ≤ v ∧ v < 2 ^ (8 * n - 1) := by
  obtain hlt | hge := Nat.lt_or_ge n 4
  · unfold slen
    interval_cases n <;> split_ifs <;> omega
  · have hpow : (2 : Int) ^ 31 ≤ 2 ^ (8 * n - 1) := pow_le_pow_right₀ (by decide) (by omega)
    exact iff_of_true ((slen_le v).trans hge) ⟨(neg_le_neg hpow).trans hlow, hhigh.trans_le hpow⟩

theorem lt_pow_ulen {v : Nat} (hv : v < 2 ^ 32) : v < 256 ^ ulen v := (ulen_le_iff hv (one_le_ulen v)).1 le_rfl

theorem slen_range {v : Int} (hlow : -2 ^ 31 ≤ v) (hhigh : v < 2 ^ 31) :
    -2 ^ (8 * slen v - 1) ≤ v ∧ v < 2 ^ (8 * slen v - 1) :=
  (slen_le_iff hlow hhigh (one_le_slen v)).1 le_rfl

/-- One octet fewer than the minimal length does not hold the value, so the octet that is more is not zero. -/
theorem encUint_head_ne_zero {v : Nat} (hpos : 0 < v) (hv : v < 2 ^ 32) : ∃ b bs, encUint v = b :: bs ∧ b ≠ 0 := by
  obtain ⟨n, hn⟩ := Nat.exists_eq_add_of_le' (one_le_ulen v)
  have hhigh : v / 256 ^ n < 256 := by
    rw [Nat.div_lt_iff_lt_mul (by positivity), ← pow_succ', ← hn]
    exact lt_pow_ulen hv
  have hlow : 256 ^ n ≤ v := by
    obtain rfl | hn0 := Nat.eq_zero_or_pos n
    · exact hpos
    · exact Nat.not_lt.1 (mt (ulen_le_iff hv hn0).2 (by omega))
  refine ⟨_, _, by rw [encUint, hn, be_succ], fun hzero => ?_⟩
  have hdiv : v / 256 ^ n = 0 := by
    rw [← Nat.mod_eq_of_lt hhigh]
    exact congrArg BitVec.toNat hzero
  exact absurd (Nat.div_pos hlow (by positivity)) (by omega)

/-- Settles O35: the lengths are bounded by what they do not exceed (`ulen_le_iff`, `slen_le_iff`). -/
theorem minimalLengthsAreLeast : Obligations.MinimalLengthsAreLeast := by
  refine ⟨fun v hv => ⟨one_le_ulen v, ulen_le v, lt_pow_ulen hv, fun n hn => (ulen_le_iff hv hn).2⟩,
    fun _ => encUint_head_ne_zero, fun v hlow hhigh => ?_⟩
  obtain ⟨hmin, hmax⟩ := slen_range hlow hhigh
  exact ⟨one_le_slen v, slen_le v, hmin, hmax, fun n hn hge hlt => (slen_le_iff hlow hhigh hn).2 ⟨hge, hlt⟩⟩

/-! ## The round trip (R140) -/

section

variable {cfg : Config} {n : Nat}

theorem decUint_be (hn : n ≤ cfg.valOctets) (v : Nat) (rest : List Byte) :
    decUint cfg (be v n ++ rest) n = .ok (v % 256 ^ n) := by
  rw [decUint, if_neg (by omega), if_neg (by simp), List.take_left' (be_length v n), beVal_be]

theorem decSint_be (hn : n ≤ cfg.valOctets) (v : Nat) (rest : List Byte) :
    decSint cfg (be v n ++ rest) n = .ok (signedOctets (v % 256 ^ n) n) := by
  rw [decSint, if_neg (by omega), if_neg (by simp), List.take_left' (be_length v n), beVal_be]

end

theorem pow_256 (n : Nat) : 256 ^ n = 2 ^ (8 * n) := (pow_mul 2 8 n).symm

/-- The low-order octets of the 32-bit two's complement are a narrower two's complement (R133). -/
theorem ofNat_lowOctets (v : Int) {n : Nat} (hn : n ≤ 4) :
    BitVec.ofNat (8 * n) ((v % 2 ^ 32).toNat % 256 ^ n) = BitVec.ofInt (8 * n) v := by
  have hdvd : ((2 ^ (8 * n) : Nat) : Int) ∣ 2 ^ 32 := by
    rw [Nat.cast_pow, Nat.cast_ofNat]
    exact pow_dvd_pow 2 (by omega)
  apply BitVec.eq_of_toNat_eq
  rw [BitVec.toNat_ofNat, pow_256, Nat.mod_mod, BitVec.toNat_ofInt, ← Int.emod_emod_of_dvd v hdvd,
    Int.toNat_emod (Int.emod_nonneg v (by decide)) (Int.natCast_nonneg _), Int.toNat_natCast]

/-- A value in the range of `n` octets is the signed reading of its low-order octets (R133, R135). -/
theorem signedOctets_lowOctets {v : Int} {n : Nat} (hone : 1 ≤ n) (hfour : n ≤ 4) (hlow : -2 ^ (8 * n - 1) ≤ v)
    (hhigh : v < 2 ^ (8 * n - 1)) : signedOctets ((v % 2 ^ 32).toNat % 256 ^ n) n = v := by
  have hlt : (v % 2 ^ 32).toNat % 256 ^ n < 2 ^ (8 * n) := pow_256 n ▸ Nat.mod_lt _ (by positivity)
  rw [signedOctets_eq_toInt hlt, ofNat_lowOctets v hfour, BitVec.toInt_ofInt_eq_self (by omega) hlow hhigh]

/-- The formats carry 32-bit values, whatever else a record of parameters holds (R7). -/
theorem valOctets_of_valid {cfg : Config} (hcfg : cfg.Valid) : cfg.valOctets = 4 := by
  rw [Config.valOctets, hcfg.valW]

theorem decUint_encUint {cfg : Config} (hcfg : cfg.Valid) {v : Nat} (hv : v < 2 ^ 32) (rest : List Byte) :
    decUint cfg (encUint v ++ rest) (ulen v) = .ok v := by
  rw [encUint, decUint_be ((ulen_le v).trans_eq (valOctets_of_valid hcfg).symm), Nat.mod_eq_of_lt (lt_pow_ulen hv)]

theorem decSint_encSint {cfg : Config} (hcfg : cfg.Valid) {v : Int} (hlow : -2 ^ 31 ≤ v) (hhigh : v < 2 ^ 31)
    (rest : List Byte) : decSint cfg (encSint v ++ rest) (slen v) = .ok v := by
  obtain ⟨hmin, hmax⟩ := slen_range hlow hhigh
  rw [encSint, decSint_be ((slen_le v).trans_eq (valOctets_of_valid hcfg).symm),
    signedOctets_lowOctets (one_le_slen v) (slen_le v) hmin hmax]

/-- A tag number and a length that both stand in the first octet leave no further one (R73). -/
theorem encTag_length_one {t L : Nat} (ht : t < 15) (hL : L ≤ 4) (c : Bool) : (encTag t c L).length = 1 := by
  rw [encTag_short (by omega), encLenExt_inline hL, List.length_singleton]

/-- Settles O36: a minimal length is at most `VAL_OCTETS`, and its range holds the value. -/
theorem integersRoundTrip : Obligations.IntegersRoundTrip := fun _ hcfg rest =>
  ⟨fun v hv => ⟨decUint_encUint hcfg hv rest, one_le_ulen v, ulen_le v,
      fun _ c ht => encTag_length_one ht (ulen_le v) c⟩,
    fun v hlow hhigh => ⟨decSint_encSint hcfg hlow hhigh rest, one_le_slen v, slen_le v,
      fun _ c ht => encTag_length_one ht (slen_le v) c⟩⟩

/-! ## `ENC_UINT` and `ENC_SINT` (R136, R137) -/

theorem exec_encUint (v : Word) (s : State) : exec (.encUint v) s = .next (s.encCommand hw (emitUint v)) := rfl

theorem exec_encSint (v : Word) (s : State) : exec (.encSint v) s = .next (s.encCommand hw (emitSint v)) := rfl

theorem emitSint_eq (v : Word) :
    emitSint v = .ok
      { out := be v.toNat (slen v.toInt), res := { rl := BitVec.ofNat 32 (slen v.toInt), rv := v.signExtend 64 } } := by
  rw [emitSint, encSint_signedReading, signedReading_eq_toInt]

/-- Settles O37: each command is the writer on the payload of its operand. -/
theorem encIntegersAppendTheMinimalPayload : Obligations.EncIntegersAppendTheMinimalPayload :=
  ⟨fun _ _ _ _ _ => rfl, fun _ _ _ _ _ => rfl, fun _ => ⟨rfl, rfl⟩, fun v s hs =>
    ⟨emits_of_emission (exec_encUint v s) hs rfl, emits_of_emission (emitSint_eq v ▸ exec_encSint v s) hs rfl⟩⟩

/-! ## `DEC_UINT` and `DEC_SINT` (R138, R139) -/

theorem exec_decUint (n : Byte) (s : State) :
    exec (.decUint n) s = .next (s.decCommand fun inp _ => readUint hw n inp) := rfl

theorem exec_decSint (n : Byte) (s : State) :
    exec (.decSint n) s = .next (s.decCommand fun inp _ => readSint hw n inp) := rfl

/-- What an integer command reports of a payload: the operand's count, the value, and the octets it took. -/
def decodedInteger (n : Byte) (payload : Long × Nat) : Decoded :=
  { res := { rl := n.setWidth 32, rv := payload.1 }, n := payload.2 }

theorem readUint_eq_map (cfg : Config) (n : Byte) (inp : List Byte) :
    readUint cfg n inp = (uintPayload cfg n.toNat inp).map (decodedInteger n) := by
  rw [readUint, uintPayload]
  cases decUint cfg inp n.toNat <;> rfl

theorem readSint_eq_map (cfg : Config) (n : Byte) (inp : List Byte) :
    readSint cfg n inp = (sintPayload cfg n.toNat inp).map (decodedInteger n) := by
  rw [readSint, sintPayload]
  cases decSint cfg inp n.toNat <;> rfl

section

variable {i : Instr} {s : State} {f : List Byte → Nat → Except Status Decoded} {n : Byte}
  {p : Except Status (Long × Nat)}

theorem answers_malformed_of_integer (hexec : exec i s = .next (s.decCommand f)) (hs : DecReady s)
    (hf : f s.unread s.rpos.toNat = p.map (decodedInteger n)) (hp : p = .error .malformedTag) :
    Answers i s (RaisedDec .malformedTag s) :=
  answers_raised hexec hs (by rw [hf, hp]; rfl)

theorem reads_of_integer (hexec : exec i s = .next (s.decCommand f)) (hs : DecReady s)
    (hf : f s.unread s.rpos.toNat = p.map (decodedInteger n)) {j : Nat} {rv : Long}
    (hp : PayloadIs p (unreadCount s) j rv) : Reads i s j { rl := n.setWidth 32, rv := rv } where
  enough hle := answers_consumed (d := decodedInteger n (rv, j)) hexec hs (by rw [hf, hp.enough hle]; rfl) hle
  short hlt := answers_raised hexec hs (by rw [hf, hp.short hlt]; rfl)

end

/-- Settles O38: each command reports the integer payload at the cursor, which is malformed above four octets, and else
there or not. -/
theorem decIntegersReadExactlyTheCount : Obligations.DecIntegersReadExactlyTheCount := by
  refine ⟨fun _ _ => rfl, fun _ _ => rfl, fun _ => ⟨rfl, rfl⟩, fun n s hs => ⟨fun habove => ?_, fun hle => ?_⟩⟩
  · obtain ⟨hunsigned, hsigned⟩ := integerPayload_malformed habove s.unread
    exact ⟨answers_malformed_of_integer (exec_decUint n s) hs (readUint_eq_map hw n s.unread) hunsigned,
      answers_malformed_of_integer (exec_decSint n s) hs (readSint_eq_map hw n s.unread) hsigned⟩
  · have hunsigned := payloadIs_uint (s := s) (off := 0) (avail := unreadCount s) hle
    have hsigned := payloadIs_sint (s := s) (off := 0) (avail := unreadCount s) hle
    exact ⟨reads_of_integer (exec_decUint n s) hs (readUint_eq_map hw n s.unread) hunsigned,
      reads_of_integer (exec_decSint n s) hs (readSint_eq_map hw n s.unread) hsigned⟩

end Sys2Proof.Machine
end

section
/-! PROOFS. The family of spec/43_primitives.md: the fixed-size and string payloads, which the `ENC_` body commands
append (R150, R152, R155, R158, R161, R164) and the `DEC_` body commands read (R151, R153, R156, R159, R162, R165).

Every one of these commands reports the same way, through `emitBody` or `readBody`. That is said once
(`emits_of_body`, `raised_of_body`, `reads_of_body`), and each command adds what its payload is. -/

namespace Sys2Proof.Machine

open Safety

/-! ## A body command, from its payload -/

section

variable {i : Instr} {s : State}

theorem emits_of_body {p : Except Status (List Byte)} {rv : Long}
    (hexec : exec i s = .next (s.encCommand hw (emitBody p rv))) (hs : EncReady s) {out : List Byte}
    (hp : p = .ok out) : Emits i s out { rl := BitVec.ofNat 32 out.length, rv := rv } := by
  subst hp
  exact emits_of_emission hexec hs rfl

theorem raised_of_body {p : Except Status (List Byte)} {rv : Long}
    (hexec : exec i s = .next (s.encCommand hw (emitBody p rv))) (hs : EncReady s) {e : Status} (hp : p = .error e) :
    Answers i s (RaisedEnc e s) := by
  subst hp
  exact answers_raisedEnc hexec hs

/-- What a body decode reports of a payload: the count in `RL`, the value, and the octets it took. -/
def decodedBody (k : Nat) (payload : Long × Nat) : Decoded :=
  { res := { rl := BitVec.ofNat 32 k, rv := payload.1 }, n := payload.2 }

theorem readBody_eq_map (k : Nat) (v : Except Status Long) : readBody k v = (withCount k v).map (decodedBody k) := by
  cases v <;> rfl

theorem reads_of_body {k : Nat} {v : List Byte → Nat → Except Status Long} {rv : Long}
    (hexec : exec i s = .next (s.decCommand fun inp base => readBody k (v inp base))) (hs : DecReady s)
    (hp : PayloadIs (withCount k (v s.unread s.rpos.toNat)) (unreadCount s) k rv) :
    Reads i s k { rl := BitVec.ofNat 32 k, rv := rv } where
  enough hle := answers_consumed (d := decodedBody k (rv, k)) hexec hs (by rw [readBody_eq_map, hp.enough hle]; rfl) hle
  short hlt := answers_raised hexec hs (by rw [readBody_eq_map, hp.short hlt]; rfl)

end

/-! ## `ENC_REAL`, `ENC_DBL` and `ENC_STR` (R150, R152, R155) -/

theorem exec_encReal (v : Word) (s : State) :
    exec (.encReal v) s = .next (s.encCommand hw (emitBody (.ok (be v.toNat 4)) (v.setWidth 64))) := rfl

theorem exec_encDbl (v : Long) (s : State) :
    exec (.encDbl v) s = .next (s.encCommand hw (emitBody (.ok (be v.toNat 8)) v)) := rfl

theorem exec_encStr (data : List Byte) (s : State) :
    exec (.encStr data) s = .next (s.encCommand hw (emitBody (.ok data) 0)) := rfl

/-- Settles O39: the payloads of these commands are their operands' octets, which nothing refuses; the length field of
format S counts the data. -/
theorem rawPayloadsAreAppendedUnchanged : Obligations.RawPayloadsAreAppendedUnchanged := by
  refine ⟨fun _ _ _ _ _ => rfl, fun _ _ _ _ _ _ _ _ _ => rfl, fun a b c d data rest hlen => ?_,
    fun _ _ _ => ⟨rfl, rfl, rfl⟩, fun v s hs => ?_, fun v s hs => ?_, fun data s _ hs => ?_⟩
  · have hdata := parseData_append .encStr data rest
    rwa [hlen] at hdata
  · exact emits_of_body (exec_encReal v s) hs rfl
  · exact emits_of_body (exec_encDbl v s) hs rfl
  · exact emits_of_body (exec_encStr data s) hs rfl

/-! ## `DEC_REAL`, `DEC_DBL`, `DEC_OID` and `DEC_STR` (R151, R153, R165, R156) -/

theorem exec_decReal (s : State) :
    exec .decReal s = .next (s.decCommand fun inp _ => readBody 4 (fixedValue 4 inp)) := rfl

theorem exec_decDbl (s : State) :
    exec .decDbl s = .next (s.decCommand fun inp _ => readBody 8 (fixedValue 8 inp)) := rfl

theorem exec_decOid (s : State) :
    exec .decOid s = .next (s.decCommand fun inp _ => readBody 4 (fixedValue 4 inp)) := rfl

theorem exec_decStr (n : Word) (s : State) :
    exec (.decStr n) s = .next (s.decCommand fun inp base => readBody n.toNat (stringValue n.toNat inp base)) := rfl

/-- Settles O40: each command reads a payload of a fixed count at the cursor (`payloadIs_fixed`). -/
theorem fixedPayloadsAreReadBigEndian : Obligations.FixedPayloadsAreReadBigEndian :=
  ⟨fun _ => rfl, fun _ => rfl, fun _ => rfl, ⟨rfl, rfl, rfl⟩, fun s hs =>
    ⟨reads_of_body (exec_decReal s) hs (payloadIs_fixed s 0 _ 4),
      reads_of_body (exec_decDbl s) hs (payloadIs_fixed s 0 _ 8),
      reads_of_body (exec_decOid s) hs (payloadIs_fixed s 0 _ 4)⟩⟩

/-- Settles O41: the payload's value is the index of its first octet (`payloadIs_string`), which is the cursor. -/
theorem decStrStepsOverThePayload : Obligations.DecStrStepsOverThePayload := by
  refine ⟨fun _ _ _ _ _ => rfl, fun _ => rfl, fun n s hs => ?_⟩
  have hreads := reads_of_body (exec_decStr n s) hs (payloadIs_string s 0 _ n.toNat s.rpos.toNat)
  rwa [BitVec.ofNat_toNat, BitVec.setWidth_eq, BitVec.ofNat_toNat] at hreads

/-! ## `ENC_DATE` (R158) -/

theorem exec_encDate (year : Half) (m d w : Byte) (s : State) :
    exec (.encDate year m d w) s
      = .next (s.encCommand hw (emitBody (datePayload hw year m d w) (packDate year m d w))) := rfl

/-- The sentinel is the only year operand that its number tells apart (R158). -/
theorem yearUnspec_iff (year : Half) : year.toNat = hw.yearUnspec ↔ year = 255 := BitVec.toNat_inj (y := 255)

theorem wireYear_sentinel : wireYear hw 255 = .ok 255 := rfl

theorem wireYear_offset {year : Half} {y : Byte} (hyear : year ≠ 255) (hy : y ≠ 255)
    (heq : year.toNat = y.toNat + 1990) : wireYear hw year = .ok y := by
  have hlow : y.toNat ≠ 255 := fun h => hy (BitVec.eq_of_toNat_eq h)
  have hlt := y.isLt
  rw [wireYear, if_neg (mt (yearUnspec_iff year).1 hyear), hw_yearBase, if_pos (by omega), heq, Nat.add_sub_cancel,
    BitVec.ofNat_toNat, BitVec.setWidth_eq]

theorem wireYear_refused {year : Half} (hyear : year ≠ 255) (hrange : year.toNat < 1990 ∨ 2244 < year.toNat) :
    wireYear hw year = .error .unsupportedValueType := by
  rw [wireYear, if_neg (mt (yearUnspec_iff year).1 hyear), hw_yearBase, if_neg (by omega)]

/-- Settles O42: the year octet is the sentinel, the offset or none, and `RV` holds the operands side by side. -/
theorem encDateAppendsTheOffsetYear : Obligations.EncDateAppendsTheOffsetYear := by
  refine ⟨fun _ _ _ _ _ _ => rfl, fun _ _ _ _ => rfl, fun year m d w y s hs => ⟨fun haccepted => ?_,
    fun hyear hrange => ?_⟩⟩
  · have hwire : wireYear hw year = .ok y := by
      obtain ⟨rfl, rfl⟩ | ⟨hyear, hy, heq⟩ := haccepted
      · exact wireYear_sentinel
      · exact wireYear_offset hyear hy heq
    rw [← packDate_eq]
    exact emits_of_body (exec_encDate year m d w s) hs (by rw [datePayload, hwire])
  · exact raised_of_body (exec_encDate year m d w s) hs (by rw [datePayload, wireYear_refused hyear hrange])

/-! ## `ENC_TIME` (R161) -/

theorem exec_encTime (h m sec : Byte) (ms : Half) (s : State) :
    exec (.encTime h m sec ms) s
      = .next (s.encCommand hw (emitBody (timePayload h m sec ms) (packTime h m sec ms))) := rfl

theorem centiseconds_ok {ms : Half} (h : ms.toNat ≤ 999) : centiseconds ms = .ok (BitVec.ofNat 8 (ms.toNat / 10)) :=
  if_neg (Nat.not_lt.2 h)

theorem centiseconds_refused {ms : Half} (h : 999 < ms.toNat) : centiseconds ms = .error .unsupportedValueType :=
  if_pos h

/-- Settles O43: the last octet is the rounded count or none; `RV` holds the operands side by side, not rounded. -/
theorem encTimeAppendsCentiseconds : Obligations.EncTimeAppendsCentiseconds := by
  refine ⟨fun _ _ _ _ _ _ => rfl, fun _ _ _ _ => rfl, fun h m sec ms s hs => ⟨fun habove => ?_, fun hle => ?_⟩⟩
  · exact raised_of_body (exec_encTime h m sec ms s) hs (by rw [timePayload, centiseconds_refused habove])
  · rw [← packTime_eq]
    exact emits_of_body (exec_encTime h m sec ms s) hs (by rw [timePayload, centiseconds_ok hle])

/-! ## `ENC_OID` (R164) -/

theorem exec_encOid (type : Half) (inst : Word) (s : State) :
    exec (.encOid type inst) s
      = .next (s.encCommand hw (emitBody (oidPayload hw type inst) (oidResult hw type inst))) := rfl

theorem oidPayload_refused {type : Half} {inst : Word} (h : 1023 < type.toNat ∨ 4194303 < inst.toNat) :
    oidPayload hw type inst = .error .unsupportedValueType := by
  have hword : oidWord hw type inst = .error .unsupportedValueType := if_pos h
  rw [oidPayload, hword]

/-- `RV` holds the number that the payload spells. -/
theorem oidResult_eq_beVal {cfg : Config} {type : Half} {inst : Word} {out : List Byte}
    (h : oidPayload cfg type inst = .ok out) : oidResult cfg type inst = BitVec.ofNat 64 (beVal out) := by
  unfold oidPayload at h
  unfold oidResult
  cases hword : oidWord cfg type inst with
  | error e => rw [hword] at h; exact nomatch h
  | ok w =>
    rw [hword] at h
    obtain rfl := Except.ok.inj h
    rw [beVal_be_of_lt w.isLt, BitVec.ofNat_toNat]

/-- Settles O44: operands within their fields are one number of 32 bits, which is the payload and the value. -/
theorem encOidAppendsThePackedWord : Obligations.EncOidAppendsThePackedWord := by
  refine ⟨fun _ _ _ _ _ _ _ => rfl, fun _ _ => rfl, fun type inst s hs => ⟨fun hrange => ?_, fun htype hinst => ?_⟩⟩
  · exact raised_of_body (exec_encOid type inst s) hs (oidPayload_refused hrange)
  · have hpayload := oidPayload_ok htype hinst
    have hrv : oidResult hw type inst = BitVec.ofNat 64 (type.toNat * 2 ^ 22 + inst.toNat) := by
      rw [oidResult_eq_beVal hpayload, beVal_be_of_lt (by omega)]
    rw [← hrv]
    exact emits_of_body (exec_encOid type inst s) hs hpayload

/-! ## `DEC_DATE` and `DEC_TIME` (R159, R162) -/

theorem exec_decDate (s : State) :
    exec .decDate s = .next (s.decCommand fun inp _ => readBody 4 (dateValue hw inp)) := rfl

theorem exec_decTime (s : State) :
    exec .decTime s = .next (s.decCommand fun inp _ => readBody 4 (timeValue inp)) := rfl

/-- Settles O45: the payload at the cursor is the date of its four octets, the year octet compared before it is offset
(`payloadIs_date`). -/
theorem decDateReadsTheOctetThenTheSentinel : Obligations.DecDateReadsTheOctetThenTheSentinel :=
  ⟨fun _ => rfl, rfl, fun s hs => reads_of_body (exec_decDate s) hs (payloadIs_date s 0 _)⟩

/-- Settles O46: the payload at the cursor is the time of its four octets, whatever they hold (`payloadIs_time`). -/
theorem decTimeReadsCentiseconds : Obligations.DecTimeReadsCentiseconds :=
  ⟨fun _ => rfl, rfl, fun s hs => reads_of_body (exec_decTime s) hs (payloadIs_time s 0 _)⟩

end Sys2Proof.Machine
end

section
/-! PROOFS. The family of spec/44_app_values.md: what the `APP_` commands append (R181 to R194), what `DEC_ANY` does with
the value at the cursor (R195, R196), and that it gives back what an `APP_` command reported, for the functions and on
the block (R197).

Every `APP_` command that can succeed is a header of its kind in front of a payload, so the round trip is proved once for
that shape (`comesBack_of_payload`): the header is read back, its tag number selects the kind, and what is left for each
kind is its payload. On the block the same fact is used on the octets that the load puts at the front of `IBUF`. -/

namespace Sys2Proof.Machine

open Safety

/-! ## The emission of each `APP_` command, from its payload (R181) -/

theorem emitAppBool_refused (cfg : Config) {b : Byte} (h : 1 < b.toNat) :
    emitAppBool cfg b = .error .unsupportedValueType :=
  if_pos ((reservedBits71_iff b).2 h)

theorem emitAppBool_accepted (cfg : Config) {b : Byte} (h : b.toNat ≤ 1) :
    emitAppBool cfg b = .ok (emitApp cfg .boolean b.toNat (b.setWidth 64) []) := by
  have hbit : b = 0 ∨ b = 1 := by
    obtain h0 | h1 : b.toNat = 0 ∨ b.toNat = 1 := by omega
    · exact .inl (BitVec.eq_of_toNat_eq h0)
    · exact .inr (BitVec.eq_of_toNat_eq h1)
  obtain rfl | rfl := hbit <;> rfl

theorem emitAppSint_eq (cfg : Config) (v : Word) :
    emitAppSint cfg v = .ok (emitApp cfg .signed (slen v.toInt) (v.signExtend 64) (be v.toNat (slen v.toInt))) := by
  rw [emitAppSint, encSint_signedReading, signedReading_eq_toInt]

theorem emitAppDate_eq_map (cfg : Config) (year : Half) (m d w : Byte) :
    emitAppDate cfg year m d w = (datePayload cfg year m d w).map (emitApp cfg .date 4 (packDate year m d w)) := by
  rw [emitAppDate]
  cases datePayload cfg year m d w <;> rfl

theorem emitAppTime_eq_map (cfg : Config) (h m sec : Byte) (ms : Half) :
    emitAppTime cfg h m sec ms = (timePayload h m sec ms).map (emitApp cfg .time 4 (packTime h m sec ms)) := by
  rw [emitAppTime]
  cases timePayload h m sec ms <;> rfl

theorem emitAppOid_eq_map (cfg : Config) (type : Half) (inst : Word) :
    emitAppOid cfg type inst
      = (oidPayload cfg type inst).map (emitApp cfg .objectIdentifier 4 (oidResult cfg type inst)) := by
  rw [emitAppOid]
  cases oidPayload cfg type inst <;> rfl

/-! ## What a supported kind gives back (R197) -/

/-- Decoding the octets of an emission, whatever follows them and wherever they stand, gives its result registers back,
with the status of its kind and the value `rv base`, and takes exactly its octets. -/
structure ComesBack (cfg : Config) (k : Kind) (em : Emission) (rv : Nat → Long) : Prop where
  st : em.res.st = 0
  rk : em.res.rk = BitVec.ofNat 4 k.code
  decAny : ∀ rest base, decAny cfg (em.out ++ rest) base
    = .ok { res := { em.res with st := (valueStatus k).code, rv := rv base }, n := em.out.length }

theorem Kind.mem_all (k : Kind) : k ∈ Kind.all := by cases k <;> decide

/-- A supported kind is found by its tag number, since no two kinds share one (R180). -/
theorem kindOf_apptag {cfg : Config} (hcfg : cfg.Valid) {k : Kind} (hk : k.supported = true) :
    cfg.kindOf (cfg.apptag k) = some k := by
  cases hfind : cfg.kindOf (cfg.apptag k) with
  | none =>
    have hnone := List.find?_eq_none.1 hfind k (Kind.mem_all k)
    simp [hk] at hnone
  | some j =>
    have hsome := List.find?_some (p := fun j : Kind => j.supported && cfg.apptag j == cfg.apptag k) hfind
    obtain ⟨-, htag⟩ := (Bool.and_eq_true ..).mp hsome
    rw [hcfg.apptag_injective (eq_of_beq htag)]

/-- The round trip of a header and a payload: it comes back where the payload does. -/
theorem comesBack_of_payload {cfg : Config} (hcfg : cfg.Valid) {k : Kind} (hk : k.supported = true) {L : Nat}
    (hL : L < 2 ^ 32) (rv : Long) {payload : List Byte} {rv' : Nat → Long}
    (hpayload : ∀ rest base, decPayload cfg k L (payload ++ rest) (base + (encTag (cfg.apptag k) false L).length)
      = .ok (rv' base, payload.length)) :
    ComesBack cfg k (emitApp cfg k L rv payload) rv' where
  st := rfl
  rk := rfl
  decAny rest base := by
    have htag : cfg.apptag k ≤ 254 := (hcfg.apptag_le k).trans (by decide)
    have hheader := decTag_encTag hcfg.tagMax htag false hL (payload ++ rest)
    rw [emitApp, List.append_assoc, Machine.decAny, hheader]
    simp only [kindOf_apptag hcfg hk, List.drop_left, hpayload, List.length_append]
    rfl

/-! ## Each payload comes back (R195) -/

section

variable {cfg : Config}

theorem uintPayload_encUint (hcfg : cfg.Valid) (v : Word) (rest : List Byte) :
    uintPayload cfg (ulen v.toNat) (encUint v.toNat ++ rest) = .ok (v.setWidth 64, (encUint v.toNat).length) := by
  rw [uintPayload, decUint_encUint hcfg v.isLt, encUint, be_length, ← BitVec.ofNat_toNat]

theorem sintPayload_encSint (hcfg : cfg.Valid) (v : Word) (rest : List Byte) :
    sintPayload cfg (slen v.toInt) (encSint v.toInt ++ rest) = .ok (v.signExtend 64, (encSint v.toInt).length) := by
  rw [sintPayload, decSint_encSint hcfg (BitVec.le_toInt v) (BitVec.toInt_lt (x := v)), encSint, be_length]
  rfl

/-- A payload of fixed length comes back as the number it spells. -/
theorem fixedPayload_append {k : Nat} {payload : List Byte} (hlen : payload.length = k) (rest : List Byte) :
    withCount k (fixedValue k (payload ++ rest)) = .ok (BitVec.ofNat 64 (beVal payload), payload.length) := by
  subst hlen
  rw [fixedValue, if_neg (by simp), List.take_left]
  rfl

theorem stringPayload_append (data rest : List Byte) (index : Nat) :
    withCount data.length (stringValue data.length (data ++ rest) index) = .ok (BitVec.ofNat 64 index, data.length) := by
  rw [stringValue, if_neg (by simp)]
  rfl

/-- Reading the octet of a year gives the year: the sentinel and the offset years do not share an octet (R158, R159). -/
theorem yearOfWire_wireYear (hcfg : cfg.Valid) {year : Half} {y : Byte} (h : wireYear cfg year = .ok y) :
    yearOfWire cfg y = year := by
  unfold wireYear at h
  rw [hcfg.yearUnspec] at h
  apply BitVec.eq_of_toNat_eq
  rw [yearOfWire, hcfg.yearUnspec]
  split_ifs at h with hsentinel hrange
  · obtain rfl := Except.ok.inj h
    exact hsentinel.symm
  · obtain rfl := Except.ok.inj h
    have hoctet : (BitVec.ofNat 8 (year.toNat - cfg.yearBase)).toNat = year.toNat - cfg.yearBase := by
      rw [BitVec.toNat_ofNat, Nat.mod_eq_of_lt (by omega)]
    rw [hoctet, if_neg (by omega), Nat.sub_add_cancel hrange.1, BitVec.ofNat_toNat, BitVec.setWidth_eq]

theorem datePayload_inv {year : Half} {m d w : Byte} {payload : List Byte}
    (h : datePayload cfg year m d w = .ok payload) : ∃ y, wireYear cfg year = .ok y ∧ payload = [y, m, d, w] := by
  unfold datePayload at h
  cases hyear : wireYear cfg year with
  | error e => rw [hyear] at h; exact nomatch h
  | ok y => rw [hyear] at h; exact ⟨y, rfl, (Except.ok.inj h).symm⟩

theorem datePayload_append (hcfg : cfg.Valid) {year : Half} {m d w : Byte} {payload : List Byte}
    (h : datePayload cfg year m d w = .ok payload) (rest : List Byte) :
    withCount 4 (dateValue cfg (payload ++ rest)) = .ok (packDate year m d w, payload.length) := by
  obtain ⟨y, hyear, rfl⟩ := datePayload_inv h
  rw [← yearOfWire_wireYear hcfg hyear]
  rfl

theorem timePayload_inv {h m sec : Byte} {ms : Half} {payload : List Byte} (hp : timePayload h m sec ms = .ok payload) :
    ms.toNat ≤ 999 ∧ payload = [h, m, sec, BitVec.ofNat 8 (ms.toNat / 10)] := by
  unfold timePayload at hp
  obtain habove | hle := Nat.lt_or_ge 999 ms.toNat
  · rw [centiseconds_refused habove] at hp
    exact nomatch hp
  · rw [centiseconds_ok hle] at hp
    exact ⟨hle, (Except.ok.inj hp).symm⟩

/-- The value of a time whose milliseconds are rounded down to whole centiseconds (R197). -/
def roundedTime (h m sec : Byte) (ms : Half) : Long :=
  BitVec.ofNat 64 (h.toNat * 2 ^ 32 + m.toNat * 2 ^ 24 + sec.toNat * 2 ^ 16 + ms.toNat / 10 * 10)

theorem timePayload_append {h m sec : Byte} {ms : Half} {payload : List Byte}
    (hp : timePayload h m sec ms = .ok payload) (rest : List Byte) :
    withCount 4 (timeValue (payload ++ rest)) = .ok (roundedTime h m sec ms, payload.length) := by
  obtain ⟨hms, rfl⟩ := timePayload_inv hp
  have hcs : (millisOfWire (BitVec.ofNat 8 (ms.toNat / 10))).toNat = ms.toNat / 10 * 10 := by
    rw [millisOfWire_toNat, BitVec.toNat_ofNat, Nat.mod_eq_of_lt (by omega)]
  rw [roundedTime, ← hcs, ← packTime_eq]
  rfl

theorem oidPayload_length {type : Half} {inst : Word} {payload : List Byte}
    (h : oidPayload cfg type inst = .ok payload) : payload.length = 4 := by
  unfold oidPayload at h
  cases hword : oidWord cfg type inst with
  | error e => rw [hword] at h; exact nomatch h
  | ok w =>
    rw [hword] at h
    obtain rfl := Except.ok.inj h
    exact be_length w.toNat 4

/-! ## Each `APP_` command's value comes back (R197) -/

/-- An emission that is a function of its payload is that function of some payload. -/
theorem payload_of_map_ok {p : Except Status (List Byte)} {f : List Byte → Emission} {em : Emission}
    (h : p.map f = .ok em) : ∃ payload, p = .ok payload ∧ em = f payload := by
  cases p with
  | error e => exact nomatch h
  | ok payload => exact ⟨payload, rfl, (Except.ok.inj h).symm⟩

variable {em : Emission}

theorem comesBack_null (hcfg : cfg.Valid) (hem : emitAppNull cfg = .ok em) :
    ComesBack cfg .null em fun _ => em.res.rv := by
  obtain rfl := Except.ok.inj hem
  exact comesBack_of_payload hcfg rfl (by decide) 0 fun _ _ => rfl

theorem comesBack_bool (hcfg : cfg.Valid) {b : Byte} (hem : emitAppBool cfg b = .ok em) :
    ComesBack cfg .boolean em fun _ => em.res.rv := by
  unfold emitAppBool at hem
  split at hem
  · exact nomatch hem
  · obtain rfl := Except.ok.inj hem
    cases b.getLsbD 0 <;> exact comesBack_of_payload hcfg rfl (by decide) _ fun _ _ => rfl

theorem comesBack_uint (hcfg : cfg.Valid) {v : Word} (hem : emitAppUint cfg v = .ok em) :
    ComesBack cfg .unsigned em fun _ => em.res.rv := by
  obtain rfl := Except.ok.inj hem
  exact comesBack_of_payload hcfg rfl ((ulen_le _).trans_lt (by decide)) _ fun rest _ => uintPayload_encUint hcfg v rest

theorem comesBack_enum (hcfg : cfg.Valid) {v : Word} (hem : emitAppEnum cfg v = .ok em) :
    ComesBack cfg .enumerated em fun _ => em.res.rv := by
  obtain rfl := Except.ok.inj hem
  exact comesBack_of_payload hcfg rfl ((ulen_le _).trans_lt (by decide)) _ fun rest _ => uintPayload_encUint hcfg v rest

theorem comesBack_sint (hcfg : cfg.Valid) {v : Word} (hem : emitAppSint cfg v = .ok em) :
    ComesBack cfg .signed em fun _ => em.res.rv := by
  rw [emitAppSint, signedReading_eq_toInt] at hem
  obtain rfl := Except.ok.inj hem
  exact comesBack_of_payload hcfg rfl ((slen_le _).trans_lt (by decide)) _ fun rest _ => sintPayload_encSint hcfg v rest

theorem comesBack_real (hcfg : cfg.Valid) {v : Word} (hem : emitAppReal cfg v = .ok em) :
    ComesBack cfg .real em fun _ => em.res.rv := by
  obtain rfl := Except.ok.inj hem
  refine comesBack_of_payload hcfg rfl (by decide) _ fun rest _ => ?_
  rw [decPayload, fixedPayload_append (be_length _ 4), beVal_be_of_lt v.isLt, BitVec.ofNat_toNat]
  rfl

theorem comesBack_dbl (hcfg : cfg.Valid) {v : Long} (hem : emitAppDbl cfg v = .ok em) :
    ComesBack cfg .double em fun _ => em.res.rv := by
  obtain rfl := Except.ok.inj hem
  refine comesBack_of_payload hcfg rfl (by decide) _ fun rest _ => ?_
  rw [decPayload, fixedPayload_append (be_length _ 8), beVal_be_of_lt v.isLt, BitVec.ofNat_toNat, BitVec.setWidth_eq]
  rfl

theorem comesBack_date (hcfg : cfg.Valid) {year : Half} {m d w : Byte} (hem : emitAppDate cfg year m d w = .ok em) :
    ComesBack cfg .date em fun _ => em.res.rv := by
  rw [emitAppDate_eq_map] at hem
  obtain ⟨payload, hp, rfl⟩ := payload_of_map_ok hem
  exact comesBack_of_payload hcfg rfl (by decide) _ fun rest _ => datePayload_append hcfg hp rest

theorem comesBack_oid (hcfg : cfg.Valid) {type : Half} {inst : Word} (hem : emitAppOid cfg type inst = .ok em) :
    ComesBack cfg .objectIdentifier em fun _ => em.res.rv := by
  rw [emitAppOid_eq_map] at hem
  obtain ⟨payload, hp, rfl⟩ := payload_of_map_ok hem
  refine comesBack_of_payload hcfg rfl (by decide) _ fun rest _ => ?_
  rw [decPayload, fixedPayload_append (oidPayload_length hp), ← oidResult_eq_beVal hp]
  rfl

theorem comesBack_time (hcfg : cfg.Valid) {h m sec : Byte} {ms : Half} (hem : emitAppTime cfg h m sec ms = .ok em) :
    ComesBack cfg .time em fun _ => roundedTime h m sec ms := by
  rw [emitAppTime_eq_map] at hem
  obtain ⟨payload, hp, rfl⟩ := payload_of_map_ok hem
  exact comesBack_of_payload hcfg rfl (by decide) _ fun rest _ => timePayload_append hp rest

/-- A string comes back as the index of its octets, which are the last ones of the value. -/
theorem comesBack_str (hcfg : cfg.Valid) {data : List Byte} (hlen : data.length < 2 ^ 32)
    (hem : emitAppStr cfg data = .ok em) :
    ComesBack cfg .characterString em fun base => BitVec.ofNat 64 (base + em.out.length - data.length) := by
  obtain rfl := Except.ok.inj hem
  refine comesBack_of_payload hcfg rfl hlen _ fun rest base => ?_
  rw [decPayload, stringPayload_append, emitApp, List.length_append, ← Nat.add_assoc, Nat.add_sub_cancel]

end

/-- A kind whose status is OK gives all of its results back, but for the value. -/
theorem ComesBack.decAny_eq {cfg : Config} {k : Kind} {em : Emission} {rv : Nat → Long} (h : ComesBack cfg k em rv)
    (hk : valueStatus k = .ok) (rest : List Byte) (base : Nat) :
    Machine.decAny cfg (em.out ++ rest) base = .ok { res := { em.res with rv := rv base }, n := em.out.length } := by
  rw [h.decAny, hk, Status.code_ok, ← h.st]

/-- Settles O55: each kind's value comes back (`comesBack_of_payload`), under every legal record of parameters. -/
theorem applicationValuesRoundTrip : Obligations.ApplicationValuesRoundTrip := by
  intro cfg hcfg rest base em
  refine ⟨fun hem => (comesBack_null hcfg hem).decAny rest base, ?_,
    fun data hlen hem => (comesBack_str hcfg hlen hem).decAny_eq rfl rest base,
    fun h m sec ms hem => (comesBack_time hcfg hem).decAny_eq rfl rest base⟩
  rintro (⟨b, hem⟩ | ⟨v, hem⟩ | ⟨v, hem⟩ | ⟨v, hem⟩ | ⟨v, hem⟩ | ⟨v, hem⟩ | ⟨y, m, d, w, hem⟩ | ⟨t, n, hem⟩)
  · exact (comesBack_bool hcfg hem).decAny_eq rfl rest base
  · exact (comesBack_uint hcfg hem).decAny_eq rfl rest base
  · exact (comesBack_sint hcfg hem).decAny_eq rfl rest base
  · exact (comesBack_real hcfg hem).decAny_eq rfl rest base
  · exact (comesBack_dbl hcfg hem).decAny_eq rfl rest base
  · exact (comesBack_enum hcfg hem).decAny_eq rfl rest base
  · exact (comesBack_date hcfg hem).decAny_eq rfl rest base
  · exact (comesBack_oid hcfg hem).decAny_eq rfl rest base

/-! ## The round trip on the block (R197) -/

/-- How the value that comes back from an `APP_` command's emission goes with the command: as reported, but for a time in
whole centiseconds and for a string, which comes back as the index of its octets. -/
inductive ValueBack : Instr → Kind → Emission → (Nat → Long) → Prop where
  | reported {i : Instr} {k : Kind} {em : Emission} (htime : k ≠ .time) (hstr : k ≠ .characterString) :
      ValueBack i k em fun _ => em.res.rv
  | time {em : Emission} (h m sec : Byte) (ms : Half) :
      ValueBack (.appTime h m sec ms) .time em fun _ => roundedTime h m sec ms
  | string {em : Emission} {header data : List Byte} (hout : em.out = header ++ data)
      (hrl : em.res.rl = BitVec.ofNat 32 data.length) :
      ValueBack (.appStr data) .characterString em fun base => BitVec.ofNat 64 (base + em.out.length - data.length)

/-- What is known of the `APP_` command of a supported kind from the emission that its operands fix: the emission is
legal, the command is the writer on it, and it comes back if a length field can count its octets. -/
structure AppRoundTrip (i : Instr) (k : Kind) (r : Except Status Emission) : Prop where
  legal : EmissionLegal r
  exec : ∀ s, exec i s = .next (s.encCommand hw r)
  back : ∀ em, r = .ok em → em.out.length < 2 ^ 32 → ∃ rv, ComesBack hw k em rv ∧ ValueBack i k em rv

/-- A kind whose value comes back as reported. -/
theorem AppRoundTrip.of_reported {i : Instr} {k : Kind} {r : Except Status Emission} (hlegal : EmissionLegal r)
    (hexec : ∀ s, Machine.exec i s = .next (s.encCommand hw r)) (htime : k ≠ .time) (hstr : k ≠ .characterString)
    (hback : ∀ {em}, r = .ok em → ComesBack hw k em fun _ => em.res.rv) : AppRoundTrip i k r :=
  ⟨hlegal, hexec, fun _ hem _ => ⟨_, hback hem, .reported htime hstr⟩⟩

theorem appTime_roundTrip (h m sec : Byte) (ms : Half) :
    AppRoundTrip (.appTime h m sec ms) .time (emitAppTime hw h m sec ms) :=
  ⟨emitAppTime_legal h m sec ms, fun _ => rfl, fun _ hem _ => ⟨_, comesBack_time hw_valid hem, .time h m sec ms⟩⟩

theorem appStr_roundTrip (data : List Byte) : AppRoundTrip (.appStr data) .characterString (emitAppStr hw data) := by
  refine ⟨emitApp_legal .., fun _ => rfl, fun em hem hlen => ?_⟩
  obtain rfl := Except.ok.inj hem
  rw [emitApp, List.length_append] at hlen
  exact ⟨_, comesBack_str hw_valid (by omega) rfl, .string rfl rfl⟩

/-- Every `APP_` command of a supported kind round-trips, kind by kind. -/
theorem app_roundTrip {i : Instr} {k : Kind} (hk : appKind i = some k) : ∃ r, AppRoundTrip i k r := by
  cases i <;> cases hk
  case appNull => exact ⟨_, .of_reported (emitApp_legal ..) (fun _ => rfl) nofun nofun (comesBack_null hw_valid)⟩
  case appBool b => exact ⟨_, .of_reported (emitAppBool_legal b) (fun _ => rfl) nofun nofun (comesBack_bool hw_valid)⟩
  case appUint v => exact ⟨_, .of_reported (emitApp_legal ..) (fun _ => rfl) nofun nofun (comesBack_uint hw_valid)⟩
  case appSint v => exact ⟨_, .of_reported (emitApp_legal ..) (fun _ => rfl) nofun nofun (comesBack_sint hw_valid)⟩
  case appReal v => exact ⟨_, .of_reported (emitApp_legal ..) (fun _ => rfl) nofun nofun (comesBack_real hw_valid)⟩
  case appDbl v => exact ⟨_, .of_reported (emitApp_legal ..) (fun _ => rfl) nofun nofun (comesBack_dbl hw_valid)⟩
  case appEnum v => exact ⟨_, .of_reported (emitApp_legal ..) (fun _ => rfl) nofun nofun (comesBack_enum hw_valid)⟩
  case appDate y m d w =>
    exact ⟨_, .of_reported (emitAppDate_legal y m d w) (fun _ => rfl) nofun nofun (comesBack_date hw_valid)⟩
  case appOid t n => exact ⟨_, .of_reported (emitAppOid_legal t n) (fun _ => rfl) nofun nofun (comesBack_oid hw_valid)⟩
  case appTime h m sec ms => exact ⟨_, appTime_roundTrip h m sec ms⟩
  case appStr data => exact ⟨_, appStr_roundTrip data⟩

/-- A command of class ENC that ends with status OK in a ready block has appended an emission that fits. -/
theorem appended_of_st_zero {s : State} (hs : EncReady s) {r : Except Status Emission} (hr : EmissionLegal r)
    (hst : (s.encCommand hw r).st = 0) :
    ∃ em, r = .ok em ∧ Fits em.out s ∧ s.encCommand hw r = s.appended em := by
  cases r with
  | error e =>
    obtain rfl : e = .unsupportedValueType := hr
    rw [State.encCommand_error hs.halt hs.werr] at hst
    exact nomatch hst
  | ok em =>
    rw [State.encCommand_ok hs.halt hs.werr] at hst ⊢
    obtain hover | hfits := Nat.lt_or_ge hw.obufCap (s.wpos.toNat + em.out.length)
    · rw [State.append_overflow hover] at hst
      exact nomatch hst
    · exact ⟨em, rfl, hfits, State.append_fits hfits⟩

/-- From an empty `OBUF`, the host reads out what was appended. -/
theorem readOut_appended {s : State} (hs : EncReady s) (hempty : s.wpos = 0) {em : Emission} (hfits : Fits em.out s) :
    (s.appended em).readOut = some em.out := by
  have hbefore : output s = [] := by rw [output, hempty]; rfl
  rw [readOut_answers (s := s.appended em) hs.werr, ← output, output_appended hs.obuf hfits, hbefore, List.nil_append]

/-- Data that fits is the unread input after its load. -/
theorem loadIn_unread {s : State} {data : List Byte} (hwf : Memory.wf s.ibuf = true)
    (hfits : data.length ≤ hw.ibufCap) : (s.loadIn hw data).unread = data := by
  obtain ⟨hread, hilen, hrpos, -⟩ := loadIn_fits hwf hfits
  apply List.ext_getElem
  · rw [State.unread_length, hilen, hrpos]
    rfl
  · intro j hj hj'
    simp only [State.unread, hrpos, Memory.readAll_getElem]
    simpa using hread j hj'

/-- `HostPeekIn` of the last octets of the input, loaded from its start. -/
theorem peekIn_of_unread {s : State} {header data : List Byte} (hrpos : s.rpos = 0)
    (h : s.unread = header ++ data) : s.peekIn header.length data.length = some data := by
  have hlen : s.ilen.toNat = header.length + data.length := by
    rw [← List.length_append, ← h, State.unread_length, hrpos]
    rfl
  have hsplit : Memory.readAll s.ibuf 0 (header.length + data.length) = header ++ data := by
    rw [← h, State.unread, hrpos, hlen]
    rfl
  have hdata : Memory.readAll s.ibuf header.length data.length = data := by
    rw [Memory.readAll_add, Nat.zero_add] at hsplit
    exact List.append_inj_right hsplit (Memory.readAll_length ..)
  rw [peekIn_answers hlen.ge, hdata]

theorem exec_decAny (s : State) : exec .decAny s = .next (s.decCommand (decAny hw)) := rfl

theorem Kind.code_toNat (k : Kind) : (BitVec.ofNat 4 k.code).toNat = k.code := by cases k <;> rfl

theorem valueStatus_code_eq (k : Kind) : (valueStatus k).code = if k = .null then 1 else 0 := by cases k <;> rfl

/-- `DEC_ANY` on an input that is the octets of an emission consumes all of it. -/
theorem exec_decAny_of_unread {k : Kind} {em : Emission} {rv : Nat → Long} (h : ComesBack hw k em rv) {u : State}
    (hu : DecReady u) (hrpos : u.rpos = 0) (hunread : u.unread = em.out) :
    exec .decAny u = .next (u.consume
      { res := { em.res with st := (valueStatus k).code, rv := rv 0 }, n := em.out.length }) := by
  have hdecoded := h.decAny [] 0
  rw [List.append_nil, ← hunread] at hdecoded
  exact (exec_decAny u).trans (congrArg Host.Outcome.next
    (State.decCommand_ok hu.halt hu.rerr (hrpos ▸ hunread ▸ hdecoded)))

/-- Settles O56: the command appends an emission that comes back (`app_roundTrip`), the host reads its octets out, the load
makes them the unread input, and `DEC_ANY` decodes them there. -/
theorem roundTripOnTheBlock : Obligations.RoundTripOnTheBlock := by
  intro i k s t hk hs hempty hwf hexec hst
  obtain ⟨r, hlegal, happ, hback⟩ := app_roundTrip hk
  obtain rfl := Host.Outcome.next.inj ((happ s).symm.trans hexec)
  obtain ⟨em, hr, hfits, heq⟩ := appended_of_st_zero hs hlegal hst
  rw [heq]
  have hcap : em.out.length ≤ hw.ibufCap := (Nat.le_add_left ..).trans hfits
  obtain ⟨rv, hcomes, hvalue⟩ := hback em hr (hcap.trans_lt (by decide))
  have hunread : ((s.appended em).loadIn hw em.out).unread = em.out := loadIn_unread hwf hcap
  obtain ⟨-, -, hrpos, hrerr, -, -, hcontrol⟩ := loadIn_fits (s := s.appended em) hwf hcap
  have hdecAny := exec_decAny_of_unread hcomes ⟨hcontrol.halt.trans hs.halt, hrerr⟩ hrpos hunread
  refine ⟨em.out, _, _, readOut_appended hs hempty hfits, exec_iload (s := s.appended em) hs.halt em.out, hdecAny,
    (congrArg BitVec.toNat hcomes.rk).trans (Kind.code_toNat k), rfl, rfl, valueStatus_code_eq k, ?_, ?_, ?_⟩
  · intro htime hstr
    cases hvalue with
    | reported => rfl
    | time => exact absurd rfl htime
    | string => exact absurd rfl hstr
  · rintro h m sec ms rfl
    cases hvalue with
    | reported htime => exact absurd (Option.some.inj hk).symm htime
    | time => rfl
  · rintro data rfl
    cases hvalue with
    | reported _ hstr => exact absurd (Option.some.inj hk).symm hstr
    | @string _ header _ hout hrl =>
      have hlen : em.out.length = header.length + data.length := by rw [hout, List.length_append]
      rw [hw_ibufCap] at hcap
      have hindex : (BitVec.ofNat 64 (0 + em.out.length - data.length)).toNat = header.length := by
        rw [BitVec.toNat_ofNat, Nat.mod_eq_of_lt (by omega)]
        omega
      have hcount : em.res.rl.toNat = data.length := by
        rw [hrl, BitVec.toNat_ofNat, Nat.mod_eq_of_lt (by omega)]
      calc _ = State.peekIn _ header.length data.length := congrArg₂ (State.peekIn _) hindex hcount
        _ = some data := peekIn_of_unread hrpos (hunread.trans hout)

/-! ## `DEC_ANY` (R195, R196) -/

/-- Settles O52: the header is what `decTag` finds in the unread input, and behind a whole one the dispatch decides
(`decodesKind_of_dispatch`). -/
theorem decAnyDecodesOneValue : Obligations.DecAnyDecodesOneValue := by
  refine ⟨fun _ => rfl, rfl, fun s hs => ⟨fun hnone => ?_, fun hcut => ?_, fun t c L n hat => ?_, header_cases s⟩⟩
  · exact answers_raised (exec_decAny s) hs (by rw [unread_eq_nil hnone]; rfl)
  · exact answers_raised (exec_decAny s) hs (decAny_error (decTag_of_headerCut hcut) _)
  · have hn := le_unreadCount_of_headerAt hat
    have hf := decAny_header (decTag_of_headerAt hat) s.rpos.toNat
    rw [unread_eq_inputAt, inputAt_drop s hn, Nat.zero_add] at hf
    exact decodesKind_of_dispatch (h := ⟨t, c, L, n⟩) (exec_decAny s) hs hn hf

/-! ## What an `APP_` command answers, from its payload (R181) -/

section

variable {i : Instr} {s : State} {k : Kind} {L : Nat} {rv : Long} {p : Except Status (List Byte)}

/-- An `APP_` command whose operands give a payload appends the header of its kind and the payload (R181). -/
theorem emits_of_app (hexec : exec i s = .next (s.encCommand hw (p.map (emitApp hw k L rv)))) (hs : EncReady s)
    {payload : List Byte} (hp : p = .ok payload) :
    Emits i s (encTag (hw.apptag k) false L ++ payload)
      { rk := BitVec.ofNat 4 k.code, rt := BitVec.ofNat 8 (hw.apptag k), rl := BitVec.ofNat 32 L, rv := rv } := by
  subst hp
  exact emits_of_emission hexec hs rfl

theorem raised_of_app (hexec : exec i s = .next (s.encCommand hw (p.map (emitApp hw k L rv)))) (hs : EncReady s)
    {e : Status} (hp : p = .error e) : Answers i s (RaisedEnc e s) := by
  subst hp
  exact answers_raisedEnc hexec hs

end

/-! ## `APP_NULL` and `APP_BOOL` (R182, R183) -/

theorem exec_appNull (s : State) :
    exec .appNull s = .next (s.encCommand hw (.ok (emitApp hw .null 0 0 []))) := rfl

theorem exec_appBool (b : Byte) (s : State) : exec (.appBool b) s = .next (s.encCommand hw (emitAppBool hw b)) := rfl

/-- Settles O47: both are the header alone, whose length is the boolean. -/
theorem appNullAndBoolAreHeadersAlone : Obligations.AppNullAndBoolAreHeadersAlone := by
  refine ⟨fun _ => rfl, fun _ _ => rfl, fun _ => ⟨rfl, rfl⟩, fun s hs => ?_, fun b s hs => ⟨fun hb => ?_, fun hb => ?_⟩⟩
  · exact emits_of_app (p := .ok []) (exec_appNull s) hs rfl
  · exact answers_raisedEnc (emitAppBool_refused hw hb ▸ exec_appBool b s) hs
  · have hemits := emits_of_app (p := .ok []) (emitAppBool_accepted hw hb ▸ exec_appBool b s) hs rfl
    rw [List.append_nil, BitVec.ofNat_toNat] at hemits
    exact hemits

/-! ## `APP_UINT`, `APP_SINT` and `APP_ENUM` (R184, R185, R191) -/

theorem exec_appUint (v : Word) (s : State) :
    exec (.appUint v) s = .next (s.encCommand hw
      (.ok (emitApp hw .unsigned (ulen v.toNat) (v.setWidth 64) (be v.toNat (ulen v.toNat))))) := rfl

theorem exec_appSint (v : Word) (s : State) :
    exec (.appSint v) s = .next (s.encCommand hw
      (.ok (emitApp hw .signed (slen v.toInt) (v.signExtend 64) (be v.toNat (slen v.toInt))))) :=
  emitAppSint_eq hw v ▸ rfl

theorem exec_appEnum (v : Word) (s : State) :
    exec (.appEnum v) s = .next (s.encCommand hw
      (.ok (emitApp hw .enumerated (ulen v.toNat) (v.setWidth 64) (be v.toNat (ulen v.toNat))))) := rfl

/-- Settles O48: each is a header of its kind and the minimal payload of its operand. -/
theorem appIntegersTagTheMinimalPayload : Obligations.AppIntegersTagTheMinimalPayload :=
  ⟨fun _ _ _ _ _ => rfl, fun _ _ _ _ _ => rfl, fun _ _ _ _ _ => rfl, fun _ => ⟨rfl, rfl, rfl⟩, fun v s hs =>
    ⟨emits_of_app (p := .ok _) (exec_appUint v s) hs rfl,
      emits_of_app (p := .ok _) (exec_appSint v s) hs rfl,
      emits_of_app (p := .ok _) (exec_appEnum v s) hs rfl⟩⟩

/-! ## `APP_REAL` and `APP_DBL` (R186, R187) -/

theorem exec_appReal (v : Word) (s : State) :
    exec (.appReal v) s = .next (s.encCommand hw (.ok (emitApp hw .real 4 (v.setWidth 64) (be v.toNat 4)))) := rfl

theorem exec_appDbl (v : Long) (s : State) :
    exec (.appDbl v) s = .next (s.encCommand hw (.ok (emitApp hw .double 8 v (be v.toNat 8)))) := rfl

/-- Settles O49: each is a header of its kind and the octets of the pattern. -/
theorem appRealAndDoubleTagTheBitPattern : Obligations.AppRealAndDoubleTagTheBitPattern :=
  ⟨fun _ _ _ _ _ => rfl, fun _ _ _ _ _ _ _ _ _ => rfl, fun _ _ => ⟨rfl, rfl⟩,
    fun v s hs => emits_of_app (p := .ok _) (exec_appReal v s) hs rfl,
    fun v s hs => emits_of_app (p := .ok _) (exec_appDbl v s) hs rfl⟩

/-! ## `APP_OCTSTR`, `APP_STR` and `APP_BITSTR` (R188, R189, R190) -/

theorem exec_appOctstr (data : List Byte) (s : State) :
    exec (.appOctstr data) s = .next (s.encCommand hw (.error .unsupportedValueType)) := rfl

theorem exec_appBitstr (data : List Byte) (s : State) :
    exec (.appBitstr data) s = .next (s.encCommand hw (.error .unsupportedValueType)) := rfl

theorem exec_appStr (data : List Byte) (s : State) :
    exec (.appStr data) s = .next (s.encCommand hw (.ok (emitApp hw .characterString data.length 0 data))) := rfl

/-- Settles O50: the length field of format S counts the data; two of the kinds are refused, and a character string is a
header and its octets. -/
theorem appStringsTagTheOctetsOrRaise : Obligations.AppStringsTagTheOctetsOrRaise := by
  refine ⟨fun a b c d data rest hlen => ?_, fun _ => ⟨rfl, rfl, rfl⟩, fun data s _ hs => ⟨?_, ?_, ?_⟩⟩
  · have hdata (f : List Byte → Instr) : parseData f (beVal [a, b, c, d]) (data ++ rest) = .done (f data) rest :=
      hlen ▸ parseData_append f data rest
    exact ⟨hdata .appOctstr, hdata .appStr, hdata .appBitstr⟩
  · exact answers_raisedEnc (exec_appOctstr data s) hs
  · exact answers_raisedEnc (exec_appBitstr data s) hs
  · exact emits_of_app (p := .ok _) (exec_appStr data s) hs rfl

/-! ## `APP_DATE`, `APP_TIME` and `APP_OID` (R192, R193, R194) -/

theorem exec_appDate (year : Half) (m d w : Byte) (s : State) :
    exec (.appDate year m d w) s
      = .next (s.encCommand hw ((datePayload hw year m d w).map (emitApp hw .date 4 (packDate year m d w)))) :=
  emitAppDate_eq_map hw year m d w ▸ rfl

theorem exec_appTime (h m sec : Byte) (ms : Half) (s : State) :
    exec (.appTime h m sec ms) s
      = .next (s.encCommand hw ((timePayload h m sec ms).map (emitApp hw .time 4 (packTime h m sec ms)))) :=
  emitAppTime_eq_map hw h m sec ms ▸ rfl

theorem exec_appOid (type : Half) (inst : Word) (s : State) :
    exec (.appOid type inst) s
      = .next (s.encCommand hw
        ((oidPayload hw type inst).map (emitApp hw .objectIdentifier 4 (oidResult hw type inst)))) :=
  emitAppOid_eq_map hw type inst ▸ rfl

theorem wireYear_accepted {year : Half} {y : Byte}
    (h : (year = 255 ∧ y = 255) ∨ (year ≠ 255 ∧ y ≠ 255 ∧ year.toNat = y.toNat + 1990)) :
    wireYear hw year = .ok y := by
  obtain ⟨rfl, rfl⟩ | ⟨hyear, hy, heq⟩ := h
  · exact wireYear_sentinel
  · exact wireYear_offset hyear hy heq

theorem oidResult_ok {type : Half} {inst : Word} (htype : type.toNat ≤ 1023) (hinst : inst.toNat ≤ 4194303) :
    oidResult hw type inst = BitVec.ofNat 64 (type.toNat * 2 ^ 22 + inst.toNat) := by
  rw [oidResult_eq_beVal (oidPayload_ok htype hinst), beVal_be_of_lt (by omega)]

/-- Settles O51: each is a header of its kind and the payload of the body command, which decides what is refused. -/
theorem appDateTimeAndOidTagTheFixedPayload : Obligations.AppDateTimeAndOidTagTheFixedPayload := by
  refine ⟨fun _ _ _ _ _ _ => rfl, fun _ _ _ _ _ _ => rfl, fun _ _ _ _ _ _ _ => rfl,
    fun _ _ _ _ _ _ _ _ _ _ => ⟨rfl, rfl, rfl⟩, fun year m d w y s hs => ⟨fun haccepted => ?_, fun hyear hrange => ?_⟩,
    fun h m sec ms s hs => ⟨fun habove => ?_, fun hle => ?_⟩,
    fun type inst s hs => ⟨fun hrange => ?_, fun htype hinst => ?_⟩⟩
  · rw [← packDate_eq]
    exact emits_of_app (exec_appDate year m d w s) hs (by rw [datePayload, wireYear_accepted haccepted])
  · exact raised_of_app (exec_appDate year m d w s) hs (by rw [datePayload, wireYear_refused hyear hrange])
  · exact raised_of_app (exec_appTime h m sec ms s) hs (by rw [timePayload, centiseconds_refused habove])
  · rw [← packTime_eq]
    exact emits_of_app (exec_appTime h m sec ms s) hs (by rw [timePayload, centiseconds_ok hle])
  · exact raised_of_app (exec_appOid type inst s) hs (oidPayload_refused hrange)
  · rw [← oidResult_ok htype hinst]
    exact emits_of_app (exec_appOid type inst s) hs (oidPayload_ok htype hinst)

end Sys2Proof.Machine
end

section
/-! PROOFS. The family of spec/45_npdu.md: the header that `ENC_NPDU` appends, part by part (R212 to R214), its length
(R213) and the examples of R215 and R216. -/

namespace Sys2Proof.Machine

open Safety

/-! ## The operands of format N (R81) -/

theorem be_eq_singleton (n : Nat) : be n 1 = [BitVec.ofNat 8 n] := by rw [be_succ, be_zero, pow_zero, Nat.div_one]

/-- The parser reads the address strings that `dlen` and `slen` count. -/
theorem decode_encNpdu (flags hop mtype v1 v0 d1 d0 dlen s1 s0 slen : Byte) {dadr sadr : List Byte}
    (hd : dadr.length = dlen.toNat) (hs : sadr.length = slen.toNat) (rest : List Byte) :
    decode (0x60 :: flags :: hop :: mtype :: v1 :: v0 :: d1 :: d0 :: dlen
        :: (dadr ++ s1 :: s0 :: slen :: (sadr ++ rest)))
      = .done (.encNpdu flags hop mtype (half v1 v0) (half d1 d0) dadr (half s1 s0) sadr) rest := by
  have hdest := parseN_octets .encNpdu flags hop mtype (half v1 v0) (half d1 d0) (hd ▸ dlen.isLt)
    (s1 :: s0 :: slen :: (sadr ++ rest))
  have hsource := parseNSource_octets (.encNpdu flags hop mtype (half v1 v0) (half d1 d0) dadr) (half s1 s0)
    (hs ▸ slen.isLt) rest
  rw [octets2, octets2, be_half, be_half, be_eq_singleton, hd, BitVec.ofNat_toNat, BitVec.setWidth_eq] at hdest
  rw [octets2, be_half, be_eq_singleton, hs, BitVec.ofNat_toNat, BitVec.setWidth_eq, List.append_assoc] at hsource
  exact hdest.trans hsource

/-! ## The control octet (R212) -/

theorem half_toNat_pos_iff (v : Half) : 0 < v.toNat ↔ v ≠ 0 :=
  Nat.pos_iff_ne_zero.trans (not_congr (BitVec.toNat_inj (y := 0)))

/-- A flag shifted to bit `k` is that bit alone. -/
theorem testBit_flag (b : Bool) (k i : Nat) : (b.toNat <<< k).testBit i = (decide (i = k) && b) := by
  have hplace : i ≥ k ∧ i - k = 0 ↔ i = k := by omega
  rw [Nat.testBit_shiftLeft, Nat.testBit_bool_toNat, ← Bool.and_assoc, ← Bool.decide_and, decide_eq_decide.2 hplace]

/-- The control octet is its five fields, each in its place. -/
theorem npduControl_getLsbD (flags : Byte) (dnet snet : Half) (slen : Nat) {i : Nat} (hi : i < 8) :
    (npduControl flags dnet snet slen).getLsbD i
      = (decide (i = 7) && flags.getLsbD 7 || decide (i = 5) && decide (0 < dnet.toNat)
        || decide (i = 3) && decide (0 < snet.toNat ∧ 0 < slen) || decide (i = 2) && flags.getLsbD 2
        || decide (i < 2) && flags.getLsbD i) := by
  have hlow : (flags.extractLsb' 0 2).toNat.testBit i = (decide (i < 2) && flags.getLsbD i) := by
    rw [BitVec.testBit_toNat, BitVec.getLsbD_extractLsb', Nat.zero_add]
  simp only [npduControl, BitVec.getLsbD_ofNat, Nat.testBit_or, testBit_flag, hlow, decide_eq_true hi, Bool.true_and,
    gt_iff_lt]

/-- An octet whose eight bits are as R212 says is the control octet. -/
theorem eq_npduControl {flags control : Byte} {dnet snet : Half} {sadr : List Byte}
    (h7 : control.getLsbD 7 = flags.getLsbD 7) (h6 : control.getLsbD 6 = false)
    (h5 : control.getLsbD 5 = decide (dnet ≠ 0)) (h4 : control.getLsbD 4 = false)
    (h3 : control.getLsbD 3 = decide (snet ≠ 0 ∧ sadr ≠ [])) (h2 : control.getLsbD 2 = flags.getLsbD 2)
    (h1 : control.getLsbD 1 = flags.getLsbD 1) (h0 : control.getLsbD 0 = flags.getLsbD 0) :
    control = npduControl flags dnet snet sadr.length := by
  apply BitVec.eq_of_getLsbD_eq
  intro i hi
  rw [npduControl_getLsbD flags dnet snet sadr.length hi]
  simp only [half_toNat_pos_iff, List.length_pos_iff]
  interval_cases i
  · simpa using h0
  · simpa using h1
  · simpa using h2
  · simpa using h3
  · simpa using h4
  · simpa using h5
  · simpa using h6
  · simpa using h7

/-! ## The parts of the header and their lengths (R213) -/

theorem npduAddress_eq (net : Half) (adr : List Byte) :
    npduAddress net adr = be net.toNat 2 ++ [BitVec.ofNat 8 adr.length] ++ adr := by
  rw [npduAddress, be_eq_singleton]

theorem npduHop_eq (dnet : Half) (hop : Byte) : npduHop dnet hop = if dnet ≠ 0 then [hop] else [] :=
  if_congr (half_toNat_pos_iff dnet) rfl rfl

theorem npduMessage_eq (flags mtype : Byte) (vendor : Half) :
    npduMessage flags mtype vendor
      = if flags.getLsbD 7 = true then (if mtype.toNat < 0x80 then [mtype] else mtype :: be vendor.toNat 2)
        else [] := by
  rw [npduMessage]
  cases flags.getLsbD 7 <;> rfl

theorem npduAddress_length (net : Half) (adr : List Byte) : (npduAddress net adr).length = 3 + adr.length := by
  rw [npduAddress_eq, List.length_append, List.length_append, be_length, List.length_singleton]

theorem npduHop_length (dnet : Half) (hop : Byte) :
    (npduHop dnet hop).length = if 0 < dnet.toNat then 1 else 0 := by
  rw [npduHop, apply_ite List.length]
  rfl

theorem npduMessage_length (flags mtype : Byte) (vendor : Half) :
    (npduMessage flags mtype vendor).length
      = (if flags.getLsbD 7 then 1 else 0) + (if flags.getLsbD 7 && decide (0x80 ≤ mtype.toNat) then 2 else 0) := by
  rw [npduMessage_eq]
  cases flags.getLsbD 7 with
  | false => rfl
  | true =>
    obtain hplain | hvendor := Nat.lt_or_ge mtype.toNat 0x80
    · simp [hplain, Nat.not_le.2 hplain]
    · simp [hvendor, Nat.not_lt.2 hvendor]

theorem encNpdu_length (cfg : Config) (flags hop mtype : Byte) (vendor dnet : Half) (dadr : List Byte) (snet : Half)
    (sadr : List Byte) :
    (encNpdu cfg flags hop mtype vendor dnet dadr snet sadr).length
      = 8 + dadr.length + sadr.length + (if 0 < dnet.toNat then 1 else 0)
        + (if flags.getLsbD 7 then 1 else 0) + (if flags.getLsbD 7 && decide (0x80 ≤ mtype.toNat) then 2 else 0) := by
  simp only [encNpdu, List.length_cons, List.length_append, npduAddress_length, npduHop_length, npduMessage_length]
  omega

/-- Settles O58: the parts' lengths add up (`encNpdu_length`), the optional ones to at most 4; the examples are
evaluated. -/
theorem npduHeaderLengthAndExample : Obligations.NpduHeaderLengthAndExample := by
  refine ⟨fun flags hop mtype vendor dnet dadr snet sadr hd hs => ?_, by decide, by decide⟩
  have hlen := encNpdu_length hw flags hop mtype vendor dnet dadr snet sadr
  have hhop : (if 0 < dnet.toNat then 1 else 0) ≤ 1 := by split <;> decide
  have htype : (if flags.getLsbD 7 then 1 else 0) ≤ 1 := by split <;> decide
  have hvendor : (if flags.getLsbD 7 && decide (0x80 ≤ mtype.toNat) then 2 else 0) ≤ 2 := by split <;> decide
  exact ⟨hlen, by omega, by omega⟩

/-! ## `ENC_NPDU` (R214) -/

theorem exec_encNpdu (flags hop mtype : Byte) (vendor dnet : Half) (dadr : List Byte) (snet : Half) (sadr : List Byte)
    (s : State) :
    exec (.encNpdu flags hop mtype vendor dnet dadr snet sadr) s
      = .next (s.encCommand hw (emitNpdu hw flags hop mtype vendor dnet dadr snet sadr)) := rfl

theorem reservedBits63_iff (b : Byte) : reservedBits63 b = true ↔ b.toNat / 8 % 16 ≠ 0 := by
  have hbits : (b.extractLsb' 3 4).toNat = b.toNat / 8 % 16 := by
    rw [BitVec.extractLsb'_toNat, Nat.shiftRight_eq_div_pow]
  rw [reservedBits63, bne_iff_ne, ne_eq, ← BitVec.toNat_inj, hbits]
  rfl

section

variable {flags : Byte} (hop mtype : Byte) (vendor dnet : Half) (dadr : List Byte) (snet : Half) (sadr : List Byte)

theorem emitNpdu_refused (h : flags.toNat / 8 % 16 ≠ 0) :
    emitNpdu hw flags hop mtype vendor dnet dadr snet sadr = .error .unsupportedValueType :=
  if_pos ((reservedBits63_iff flags).2 h)

theorem emitNpdu_accepted (h : flags.toNat / 8 % 16 = 0) :
    emitNpdu hw flags hop mtype vendor dnet dadr snet sadr = .ok
      { out := encNpdu hw flags hop mtype vendor dnet dadr snet sadr
        res := { rl := BitVec.ofNat 32 (encNpdu hw flags hop mtype vendor dnet dadr snet sadr).length
                 rv := (npduControl flags dnet snet sadr.length).setWidth 64 } } :=
  if_neg (mt (reservedBits63_iff flags).1 (not_not_intro h))

end

/-- Settles O57: a reserved flag bit is refused, and else the six parts follow each other, the control octet being the
one with the bits of R212 (`eq_npduControl`). -/
theorem encNpduAppendsTheSixSteps : Obligations.EncNpduAppendsTheSixSteps := by
  refine ⟨fun flags hop mtype v1 v0 d1 d0 dlen dadr s1 s0 slen sadr rest hd hs =>
      decode_encNpdu flags hop mtype v1 v0 d1 d0 dlen s1 s0 slen hd hs rest,
    fun _ _ _ _ _ _ _ _ => rfl,
    fun flags hop mtype control vendor dnet dadr snet sadr s _ _ hs => ⟨fun hreserved => ?_,
      fun hclear h7 h6 h5 h4 h3 h2 h1 h0 out hout => ?_⟩⟩
  · exact answers_raisedEnc (emitNpdu_refused hop mtype vendor dnet dadr snet sadr hreserved ▸ exec_encNpdu ..) hs
  · have hcontrol := eq_npduControl h7 h6 h5 h4 h3 h2 h1 h0
    have hparts : out = encNpdu hw flags hop mtype vendor dnet dadr snet sadr := by
      rw [hout, hcontrol, encNpdu, npduAddress_eq, npduAddress_eq, npduHop_eq, npduMessage_eq]
      simp only [List.append_assoc]
      rfl
    rw [hparts, hcontrol]
    exact emits_of_emission (emitNpdu_accepted hop mtype vendor dnet dadr snet sadr hclear ▸ exec_encNpdu ..) hs rfl

end Sys2Proof.Machine
end

section
/-! PROOFS. The family of spec/46_segparam.md: the buckets of the segmentation octet (R225) and what `ENC_SEG` answers
(R226). -/

namespace Sys2Proof.Machine

open Safety

/-! ## The max-segments bucket (R225) -/

/-- The ladder of R225 lands in a bucket, whatever the operand. -/
theorem segHighBucket_segHigh (maxsegs : Nat) : SegHighBucket maxsegs (segHigh maxsegs) := by
  unfold segHigh SegHighBucket
  split_ifs <;> omega

/-- The buckets are apart: no other than the ladder's holds the operand. -/
theorem segHigh_eq_of_bucket {maxsegs hi : Nat} (h : SegHighBucket maxsegs hi) : segHigh maxsegs = hi := by
  unfold segHigh
  obtain ⟨hle, hbelow, hfrom⟩ | ⟨rfl, rfl⟩ | ⟨rfl, habove⟩ := h
  · interval_cases hi <;> split_ifs <;> omega
  · rfl
  · split_ifs <;> omega

theorem segHighBucket_le {maxsegs hi : Nat} (h : SegHighBucket maxsegs hi) : hi ≤ 7 := by
  obtain ⟨hle, -⟩ | ⟨rfl, -⟩ | ⟨rfl, -⟩ := h <;> omega

/-! ## The max-APDU bucket (R225) -/

/-- The search through the thresholds, written as the ladder of R225. -/
theorem segLow_eq_ladder (maxapdu : Nat) :
    segLow hw maxapdu
      = if maxapdu ≤ 50 then some 0 else if maxapdu ≤ 128 then some 1 else if maxapdu ≤ 206 then some 2
        else if maxapdu ≤ 480 then some 3 else if maxapdu ≤ 1024 then some 4 else if maxapdu ≤ 1476 then some 5
        else none := by
  simp only [segLow, hw_apduLimits, List.findIdx?_cons, List.findIdx?_nil, decide_eq_true_eq]
  split_ifs <;> rfl

theorem segLow_eq_some_iff {maxapdu lo : Nat} : segLow hw maxapdu = some lo ↔ SegLowBucket maxapdu lo := by
  rw [segLow_eq_ladder, SegLowBucket]
  split_ifs <;> simp <;> omega

theorem segLow_eq_none_iff {maxapdu : Nat} : segLow hw maxapdu = none ↔ 1476 < maxapdu := by
  rw [segLow_eq_ladder]
  split_ifs <;> simp <;> omega

theorem exists_segLowBucket {maxapdu : Nat} (h : maxapdu ≤ 1476) : ∃ lo, SegLowBucket maxapdu lo := by
  obtain ⟨lo, hlo⟩ := Option.ne_none_iff_exists'.1 (mt segLow_eq_none_iff.1 (Nat.not_lt.2 h))
  exact ⟨lo, segLow_eq_some_iff.1 hlo⟩

theorem segLowBucket_le {maxapdu lo : Nat} (h : SegLowBucket maxapdu lo) : lo ≤ 5 := by
  unfold SegLowBucket at h
  omega

/-! ## The segmentation octet (R225) -/

theorem segOctet_refused (maxsegs : Nat) {maxapdu : Nat} (h : 1476 < maxapdu) :
    segOctet hw maxsegs maxapdu = .error .unsupportedValueType := by
  rw [segOctet, segLow_eq_none_iff.2 h]

/-- A nibble joined to one shifted above it is their sum, the high one counted sixteenfold. -/
theorem shiftLeft_four_or {hi lo : Nat} (h : lo < 2 ^ 4) : hi <<< 4 ||| lo = hi * 16 + lo := by
  rw [← Nat.shiftLeft_add_eq_or_of_lt h, Nat.shiftLeft_eq]

theorem segOctet_ok {maxsegs maxapdu hi lo : Nat} (hhi : SegHighBucket maxsegs hi) (hlo : SegLowBucket maxapdu lo) :
    segOctet hw maxsegs maxapdu = .ok (BitVec.ofNat 8 (hi * 16 + lo)) := by
  have hnibble : lo < 2 ^ 4 := Nat.lt_of_le_of_lt (segLowBucket_le hlo) (by decide)
  rw [segOctet, segLow_eq_some_iff.2 hlo, segHigh_eq_of_bucket hhi]
  exact congrArg (fun octet => Except.ok (BitVec.ofNat 8 octet)) (shiftLeft_four_or hnibble)

/-! ## `ENC_SEG` (R226) -/

theorem sameButResults_setResults (s : State) (r : Results) : SameButResults s (s.setResults r) :=
  ⟨⟨fun _ => rfl, rfl, rfl⟩, ⟨fun _ => rfl, rfl, rfl, rfl⟩, ⟨rfl, rfl⟩⟩

section

variable {s : State} {maxsegs maxapdu : Half}

theorem exec_encSeg (h : s.halt = false) (maxsegs maxapdu : Half) :
    exec (.encSeg maxsegs maxapdu) s = .next (s.segCommand hw maxsegs maxapdu) :=
  congrArg Host.Outcome.next (State.prologue_neutral h _)

theorem segCommand_refused (h : 1476 < maxapdu.toNat) : s.segCommand hw maxsegs maxapdu = s.report 3 := by
  rw [State.segCommand, segOctet_refused _ h]
  rfl

/-- The octet is zero-extended into `RV`: the two nibbles stay below 256. -/
theorem segCommand_answers {hi lo : Nat} (hhi : SegHighBucket maxsegs.toNat hi) (hlo : SegLowBucket maxapdu.toNat lo) :
    s.segCommand hw maxsegs maxapdu = s.setResults { rv := BitVec.ofNat 64 (hi * 16 + lo) } := by
  have hoctet : hi * 16 + lo < 2 ^ 8 := by
    have := segHighBucket_le hhi
    have := segLowBucket_le hlo
    omega
  rw [State.segCommand, segOctet_ok hhi hlo]
  exact congrArg (fun octet => s.setResults { rv := octet })
    (BitVec.setWidth_ofNat_of_le_of_lt (by decide) hoctet)

end

/-- Settles O59: above the last threshold the search finds no bucket and nothing but the results changes; else each
operand has one bucket, and the two make the octet. -/
theorem encSegAnswersTheOctet : Obligations.EncSegAnswersTheOctet := by
  refine ⟨fun _ _ _ _ _ => rfl, fun _ _ => rfl, fun maxsegs maxapdu s h => ⟨fun habove => ?_,
    fun hi lo hhi hlo => ?_, ⟨_, segHighBucket_segHigh _⟩, exists_segLowBucket⟩⟩
  · exact ⟨s.report 3, segCommand_refused habove ▸ exec_encSeg h maxsegs maxapdu, rfl, sameButResults_setResults s _⟩
  · exact ⟨_, segCommand_answers hhi hlo ▸ exec_encSeg h maxsegs maxapdu, rfl, sameButResults_setResults s _⟩

end Sys2Proof.Machine
end

section
/-! PROOFS. The family of spec/60_exceptions.md: a step runs the command at the front of the stream (R240), a sticky
error holds its class back (R243) and stays until its buffer is emptied (R248, R251), a fault leaves everything but the
results and that sticky error (R244, R250), and the statuses each command can end with (R254).

The effects of each class (`EncEffect`, `DecEffect`, `NeutralEffect`) say what a fault does and which statuses a class
has at most. R254's shorter lists rest on which operands a command refuses and on the faults its decode helper names. -/

namespace Sys2Proof.Safety

open Machine

/-- Settles O7. -/
theorem stepRunsTheDecodedCommand : Obligations.StepRunsTheDecodedCommand :=
  fun _ _ _ h hd => step_done h hd

/-! ## A sticky error holds its class back (R243) -/

theorem exec_heldBack {i : Instr} {s : State} (h : s.halt = false) (hne : sticky (cls i) s ≠ 0) :
    exec i s = .next (s.report (sticky (cls i) s)) := by
  obtain ⟨body, -, hexec⟩ := exec_eq_prologue i
  rw [hexec, State.prologue_sticky h hne]

/-- Settles O24: a command that is held back reports the code, and a report writes nothing but the results. -/
theorem stickyErrorShortCircuits : Obligations.StickyErrorShortCircuits :=
  fun _ s h hne => ⟨_, exec_heldBack h hne, rfl, sameButResults_setResults s _⟩

/-! ## A sticky error stays until its buffer is emptied (R248, R251) -/

section

variable {i : Instr} {s t : State}

/-- A command that finds its own sticky error set leaves both as they are. -/
theorem exec_keeps_sticky_of_set (hst : exec i s = .next t) (hne : sticky (cls i) s ≠ 0) :
    t.werr = s.werr ∧ t.rerr = s.rerr := by
  obtain h | h := Bool.eq_false_or_eq_true s.halt
  · rw [eq_of_exec_halted h hst]
    exact ⟨rfl, rfl⟩
  · obtain rfl := Host.Outcome.next.inj ((exec_heldBack h hne).symm.trans hst)
    exact ⟨rfl, rfl⟩

theorem neutralEffect_werr (heff : NeutralEffect i s t) :
    t.werr = s.werr ∨ (i = .oclr ∧ t.werr = 0 ∧ t.wpos = 0) := by
  cases heff with
  | clearedOut => exact .inr ⟨rfl, rfl, rfl⟩
  | nop | clearedIn | loadRefused | loaded | segRefused | segAnswered => exact .inl rfl

theorem neutralEffect_rerr (heff : NeutralEffect i s t) :
    t.rerr = s.rerr ∨ ((i = .iclr ∨ ∃ data, i = .iload data) ∧ t.rpos = 0) := by
  cases heff with
  | clearedIn => exact .inr ⟨.inl rfl, rfl⟩
  | loadRefused | loaded => exact .inr ⟨.inr ⟨_, rfl⟩, rfl⟩
  | nop | clearedOut | segRefused | segAnswered => exact .inl rfl

/-- What a NEUTRAL command does; a halted block executes none and stays as it is. -/
theorem exec_neutral_halted_or_effect (hc : cls i = .neutral) (hst : exec i s = .next t) :
    t = s ∨ NeutralEffect i s t := by
  obtain h | h := Bool.eq_false_or_eq_true s.halt
  · exact .inl (eq_of_exec_halted h hst)
  · exact .inr (exec_neutral_effect h hc hst)

/-- A set `WERR` holds back class ENC, is foreign to class DEC, and of the NEUTRAL commands only `OCLR` clears it. -/
theorem exec_werr_of_set (hst : exec i s = .next t) (hne : s.werr ≠ 0) :
    t.werr = s.werr ∨ (i = .oclr ∧ t.werr = 0 ∧ t.wpos = 0) := by
  cases hc : cls i with
  | enc => exact .inl (exec_keeps_sticky_of_set hst (by rwa [hc])).1
  | dec => exact .inl (congrArg EncodeHalf.werr (dec_keeps_encodeHalf hc hst))
  | neutral =>
    obtain rfl | heff := exec_neutral_halted_or_effect hc hst
    · exact .inl rfl
    · exact neutralEffect_werr heff

/-- A set `RERR` holds back class DEC, is foreign to class ENC, and of the NEUTRAL commands only `ICLR` and `ILOAD`
write it. -/
theorem exec_rerr_of_set (hst : exec i s = .next t) (hne : s.rerr ≠ 0) :
    t.rerr = s.rerr ∨ ((i = .iclr ∨ ∃ data, i = .iload data) ∧ t.rpos = 0) := by
  cases hc : cls i with
  | enc => exact .inl (congrArg DecodeHalf.rerr (enc_keeps_decodeHalf hc hst))
  | dec => exact .inl (exec_keeps_sticky_of_set hst (by rwa [hc])).2
  | neutral =>
    obtain rfl | heff := exec_neutral_halted_or_effect hc hst
    · exact .inl rfl
    · exact neutralEffect_rerr heff

end

/-- Settles O27: each sticky error apart, class by class; no instruction writes `HALT`. -/
theorem onlyClearingLeavesAFault : Obligations.OnlyClearingLeavesAFault :=
  fun _ _ _ hst => ⟨exec_werr_of_set hst, exec_rerr_of_set hst, (exec_sameControl hst).halt⟩

/-! ## A fault leaves the buffers and cursors (R244, R250) -/

@[simp] theorem appended_st (s : State) (em : Emission) : (s.appended em).st = 0 := rfl

@[simp] theorem consume_st (s : State) (d : Decoded) : (s.consume d).st = d.res.st := rfl

@[simp] theorem raise_st (s : State) (c : Cls) (e : Status) : (s.raise c e).st = e.code := by
  cases c <;> rfl

theorem RaisedEnc.st_eq {e : Status} {s t : State} (h : RaisedEnc e s t) : t.st = e.code :=
  congrArg Results.st h.results

theorem RaisedDec.st_eq {e : Status} {s t : State} (h : RaisedDec e s t) : t.st = e.code :=
  congrArg Results.st h.results

/-- A command of class ENC that is not held back faults by a `raise`: an append reports OK. -/
theorem raisedEnc_of_fault {s t : State} (hwerr : s.werr = 0) (heff : EncEffect s t) (hfault : 2 ≤ t.st.toNat) :
    ∃ e, RaisedEnc e s t := by
  cases heff with
  | heldBack hne => exact absurd hwerr hne
  | fault => exact ⟨_, raisedEnc_raise s _⟩
  | encoded => simp at hfault

/-- A command of class DEC that is not held back faults by a `raise`: a decode reports OK or NullValue. -/
theorem raisedDec_of_fault {s t : State} (hrerr : s.rerr = 0) (heff : DecEffect s t) (hfault : 2 ≤ t.st.toNat) :
    ∃ e, RaisedDec e s t := by
  cases heff with
  | heldBack hne => exact absurd hrerr hne
  | fault => exact ⟨_, raisedDec_raise s _⟩
  | decoded hd =>
    obtain ⟨-, hok | hnull, -⟩ := hd
    · simp [hok] at hfault
    · simp [hnull] at hfault

/-- Settles O25: the only effect with a status of 2 or more is a `raise`, whose frame the statement spells out. -/
theorem faultLeavesBuffersAndCursors : Obligations.FaultLeavesBuffersAndCursors := by
  intro i s t h hs hst hfault
  refine ⟨fun hc => ?_, fun hc => ?_⟩ <;> rw [hc] at hs
  · obtain ⟨e, hraised⟩ := raisedEnc_of_fault hs (exec_enc_effect h hc hst) hfault
    rw [hraised.st_eq]
    exact ⟨hraised.results, hraised.werr, hraised.wpos, hraised.obuf, hraised.dec, hraised.control⟩
  · obtain ⟨e, hraised⟩ := raisedDec_of_fault hs (exec_dec_effect h hc hst) hfault
    rw [hraised.st_eq]
    exact ⟨hraised.results, hraised.rerr, hraised.rpos, hraised.ilen, hraised.ibuf, hraised.enc, hraised.control⟩

/-! ## The statuses of class ENC (R254) -/

section

variable {i : Instr} {s t : State}

/-- A command of class ENC ends with OK, UnsupportedValueType or BufferOverflow. -/
theorem encEffect_st (hwerr : s.werr = 0) (heff : EncEffect s t) : t.st ∈ [0, 3, 6] := by
  cases heff with
  | heldBack hne => exact absurd hwerr hne
  | fault he => obtain rfl | rfl := he <;> simp
  | encoded => simp

/-- A command whose operands are accepted ends with OK or BufferOverflow. -/
theorem st_of_accepted {em : Emission} (hexec : exec i s = .next (s.encCommand hw (.ok em))) (h : s.halt = false)
    (hwerr : s.werr = 0) (hst : exec i s = .next t) : t.st ∈ [0, 6] := by
  obtain rfl := Host.Outcome.next.inj (hexec.symm.trans hst)
  rw [State.encCommand_ok h hwerr]
  obtain hover | hfits := Nat.lt_or_ge hw.obufCap (s.wpos.toNat + em.out.length)
  · simp [State.append_overflow hover]
  · simp [State.append_fits hfits]

/-- A command whose operands are refused ends with the refusal. -/
theorem st_of_refused {e : Status} (hexec : exec i s = .next (s.encCommand hw (.error e))) (h : s.halt = false)
    (hwerr : s.werr = 0) (hst : exec i s = .next t) : t.st ∈ [e.code] := by
  obtain rfl := Host.Outcome.next.inj (hexec.symm.trans hst)
  rw [State.encCommand_error h hwerr]
  simp

theorem enc_statuses (hc : cls i = .enc) (h : s.halt = false) (hwerr : s.werr = 0) (hst : exec i s = .next t) :
    t.st ∈ possibleStatus i := by
  have hclass := encEffect_st hwerr (exec_enc_effect h hc hst)
  cases i <;> cases hc
  case encUint | encSint | encReal | encDbl | encStr => exact st_of_accepted rfl h hwerr hst
  case appNull | appUint | appSint | appReal | appDbl | appStr | appEnum => exact st_of_accepted rfl h hwerr hst
  case appOctstr | appBitstr => exact st_of_refused (e := .unsupportedValueType) rfl h hwerr hst
  all_goals exact hclass

end

/-! ## The statuses of class DEC (R254) -/

/-- The status that a decode helper's answer ends with. -/
def decodedStatus : Except Status Decoded → BitVec 4
  | .error e => e.code
  | .ok d => d.res.st

theorem decCommand_st {s : State} (h : s.halt = false) (hrerr : s.rerr = 0)
    (f : List Byte → Nat → Except Status Decoded) :
    (s.decCommand f).st = decodedStatus (f s.unread s.rpos.toNat) := by
  cases hf : f s.unread s.rpos.toNat with
  | error e => rw [State.decCommand_error h hrerr hf, raise_st, decodedStatus]
  | ok d => rw [State.decCommand_ok h hrerr hf, consume_st, decodedStatus]

theorem readTag_status (inp : List Byte) : decodedStatus (readTag hw inp) ∈ [0, 2, 5] := by
  cases hd : decTag hw inp with
  | error e => obtain rfl | rfl := decTag_error hd <;> simp [readTag_error hd, decodedStatus]
  | ok hdr => simp [readTag_ok hd, decodedStatus]

theorem readUint_status (n : Byte) (inp : List Byte) : decodedStatus (readUint hw n inp) ∈ [0, 2, 5] := by
  obtain ⟨-, hdec⟩ | ⟨-, -, hdec⟩ | ⟨-, -, hdec⟩ := decUint_cases hw inp n.toNat <;>
    simp [readUint, hdec, decodedStatus]

theorem readSint_status (n : Byte) (inp : List Byte) : decodedStatus (readSint hw n inp) ∈ [0, 2, 5] := by
  obtain ⟨-, hdec⟩ | ⟨-, -, hdec⟩ | ⟨-, -, hdec⟩ := decSint_cases hw inp n.toNat <;>
    simp [readSint, hdec, decodedStatus]

/-- A body decode whose value can only be cut short ends with OK or InsufficientBytes. -/
theorem readBody_status {k : Nat} {v : Except Status Long} (hv : v = .error .insufficientBytes ∨ ∃ rv, v = .ok rv) :
    decodedStatus (readBody k v) ∈ [0, 5] := by
  obtain rfl | ⟨rv, rfl⟩ := hv <;> simp [readBody, decodedStatus]

theorem fixedValue_status (k : Nat) (inp : List Byte) : decodedStatus (readBody k (fixedValue k inp)) ∈ [0, 5] :=
  readBody_status ((fixedValue_cases k inp).imp And.right fun h => ⟨_, h.2⟩)

theorem stringValue_status (n : Nat) (inp : List Byte) (base : Nat) :
    decodedStatus (readBody n (stringValue n inp base)) ∈ [0, 5] :=
  readBody_status ((stringValue_cases n inp base).imp And.right fun h => ⟨_, h.2⟩)

theorem dateValue_status (inp : List Byte) : decodedStatus (readBody 4 (dateValue hw inp)) ∈ [0, 5] :=
  readBody_status ((dateValue_cases hw inp).imp And.right And.right)

theorem timeValue_status (inp : List Byte) : decodedStatus (readBody 4 (timeValue inp)) ∈ [0, 5] :=
  readBody_status ((timeValue_cases inp).imp And.right And.right)

section

variable {i : Instr} {s t : State}

/-- A command of class DEC ends with OK, NullValue or one of the three faults of decoding; this is the whole list of
`DEC_ANY` and its rows. -/
theorem decEffect_st (hrerr : s.rerr = 0) (heff : DecEffect s t) : t.st ∈ [0, 1, 2, 4, 5] := by
  cases heff with
  | heldBack hne => exact absurd hrerr hne
  | fault he => obtain rfl | rfl | rfl := he <;> simp
  | decoded hd => obtain ⟨-, hcode | hcode, -⟩ := hd <;> simp [hcode]

/-- A command of class DEC ends with a status that its helper can give. -/
theorem st_of_helper {f : List Byte → Nat → Except Status Decoded} {codes : List (BitVec 4)}
    (hexec : exec i s = .next (s.decCommand f)) (h : s.halt = false) (hrerr : s.rerr = 0) (hst : exec i s = .next t)
    (hf : decodedStatus (f s.unread s.rpos.toNat) ∈ codes) : t.st ∈ codes := by
  obtain rfl := Host.Outcome.next.inj (hexec.symm.trans hst)
  rwa [decCommand_st h hrerr]

theorem dec_statuses (hc : cls i = .dec) (h : s.halt = false) (hrerr : s.rerr = 0) (hst : exec i s = .next t) :
    t.st ∈ possibleStatus i := by
  have hclass := decEffect_st hrerr (exec_dec_effect h hc hst)
  cases i <;> cases hc
  case decTag => exact st_of_helper (exec_decTag s) h hrerr hst (readTag_status _)
  case decUint n => exact st_of_helper (exec_decUint n s) h hrerr hst (readUint_status n _)
  case decSint n => exact st_of_helper (exec_decSint n s) h hrerr hst (readSint_status n _)
  case decReal => exact st_of_helper (exec_decReal s) h hrerr hst (fixedValue_status 4 _)
  case decDbl => exact st_of_helper (exec_decDbl s) h hrerr hst (fixedValue_status 8 _)
  case decOid => exact st_of_helper (exec_decOid s) h hrerr hst (fixedValue_status 4 _)
  case decStr n => exact st_of_helper (exec_decStr n s) h hrerr hst (stringValue_status n.toNat _ _)
  case decDate => exact st_of_helper (exec_decDate s) h hrerr hst (dateValue_status _)
  case decTime => exact st_of_helper (exec_decTime s) h hrerr hst (timeValue_status _)
  all_goals exact hclass

end

/-! ## The statuses of every command (R254) -/

/-- `NOP` leaves `ST`; the other NEUTRAL commands report what their effect says. -/
theorem neutral_statuses {i : Instr} {s t : State} (heff : NeutralEffect i s t) :
    (i = .nop ∧ t.st = s.st) ∨ t.st ∈ possibleStatus i := by
  cases heff with
  | nop => exact .inl ⟨rfl, rfl⟩
  | clearedOut | clearedIn => exact .inr (List.mem_singleton.2 rfl)
  | loadRefused | loaded | segRefused | segAnswered => simp [possibleStatus]

/-- Settles O26: the three classes apart. -/
theorem statusesOfEachCommand : Obligations.StatusesOfEachCommand := by
  intro i s t h hs hst
  cases hc : cls i with
  | enc =>
    rw [hc] at hs
    exact .inr (enc_statuses hc h hs hst)
  | dec =>
    rw [hc] at hs
    exact .inr (dec_statuses hc h hs hst)
  | neutral => exact neutral_statuses (exec_neutral_effect h hc hst)

end Sys2Proof.Safety
end
